-- ==== Sys2Proof/Word.lean ====
section
/-! DEFINITION. The word types of the SSS257 block: bus words, field registers, register indices. -/

namespace Sys2Proof

/-- One 32-bit word of the host bus, and one command word (spec/20_memory.md R60, spec/30_encoding.md R90). -/
abbrev Word := BitVec 32

/-- One byte of the secret (spec/10_state.md R38). -/
abbrev Byte := BitVec 8

/-- Nine bits of field storage, which may hold the non-canonical values 257 to 511
(spec/10_state.md R22, R23). It is also one raw word of the entropy source (spec/41_coefficient_poly.md R150). -/
abbrev FieldWord := BitVec 9

/-- A field register index: every value of the four bits names a register (spec/30_encoding.md R95). -/
abbrev Reg := BitVec 4

end Sys2Proof
end

