-- ==== Sys2Proof/Syntax.lean ====
section
/-! DEFINITION. The twelve commands of the block, one constructor per row of spec/opcode_table.json. -/

namespace Sys2Proof

/-- A command (spec/30_encoding.md R92, R96). Fields that a format does not use are no argument here. -/
inductive Instr where
  | fadd (rd rs1 rs2 : Reg)
  | fsub (rd rs1 rs2 : Reg)
  | fmul (rd rs1 rs2 : Reg)
  | fpow (rd rs1 rs2 : Reg)
  | finv (rd rs1 : Reg)
  | fldi (rd : Reg) (imm : FieldWord)
  | cgen (rs1 : Reg)
  | peval (rd rs1 : Reg)
  | pclr
  | lbasis
  | split
  | recon
  deriving DecidableEq, Repr

end Sys2Proof
end

