-- ==== Sys2Proof/WellFormed.lean ====
section
/-! DEFINITION. The one check that the types of Instr leave open: the immediate names a field element. -/

namespace Sys2Proof

/-- Canonical: a nine-bit value in [0,256] (spec/00_scope.md R16). -/
def canonical (v : FieldWord) : Bool := decide (v.toNat ≤ 256)

/-- A command has an encoding: an FLDI immediate is at most 256 (spec/30_encoding.md R94). Register fields
take every value (R95), so no other command needs a check. -/
def Instr.wellFormed : Instr → Bool
  | .fadd _ _ _ => true
  | .fsub _ _ _ => true
  | .fmul _ _ _ => true
  | .fpow _ _ _ => true
  | .finv _ _ => true
  | .fldi _ imm => canonical imm
  | .cgen _ => true
  | .peval _ _ => true
  | .pclr => true
  | .lbasis => true
  | .split => true
  | .recon => true

end Sys2Proof
end

