-- ==== Sys2Proof/Decode.lean ====
section
/-! DEFINITION. The command word: its fields, the decoder, which names why it rejects a word, and the encoder. -/

namespace Sys2Proof

/-- Bits [5:0] (spec/30_encoding.md R91). -/
def opField (w : Word) : BitVec 6 := w.extractLsb' 0 6

/-- Bits [9:6] (R91). -/
def rdField (w : Word) : Reg := w.extractLsb' 6 4

/-- Bits [13:10] (R91). -/
def rs1Field (w : Word) : Reg := w.extractLsb' 10 4

/-- Bits [17:14] (R91). -/
def rs2Field (w : Word) : Reg := w.extractLsb' 14 4

/-- Bits [26:18] (R91, R94). -/
def immField (w : Word) : FieldWord := w.extractLsb' 18 9

/-- Bits [31:27], which must be 0 (R91). -/
def resField (w : Word) : BitVec 5 := w.extractLsb' 27 5

/-- Why a word is no command (spec/30_encoding.md R98). -/
inductive DecodeError where
  /-- res is not 0. -/
  | reservedField
  /-- op is not in the table of R96. -/
  | reservedOpcode
  /-- A field that the format does not use is not 0 (R92). -/
  | unusedField
  /-- The immediate of an FLDI is 257 or more (R94). -/
  | immediateRange
  /-- The bytes are not the four bytes of one word (R90). -/
  | notOneWord
  deriving DecidableEq, Repr

/-- Format FR: rd, rs1, rs2; imm must be 0 (R92). -/
def decodeFR (mk : Reg → Reg → Reg → Instr) (w : Word) : Except DecodeError Instr :=
  if immField w ≠ 0 then .error .unusedField
  else .ok (mk (rdField w) (rs1Field w) (rs2Field w))

/-- Format FU: rd, rs1; rs2 and imm must be 0 (R92). -/
def decodeFU (mk : Reg → Reg → Instr) (w : Word) : Except DecodeError Instr :=
  if rs2Field w ≠ 0 ∨ immField w ≠ 0 then .error .unusedField
  else .ok (mk (rdField w) (rs1Field w))

/-- Format FI: rd, imm at most 256; rs1 and rs2 must be 0 (R92, R94). -/
def decodeFI (mk : Reg → FieldWord → Instr) (w : Word) : Except DecodeError Instr :=
  if rs1Field w ≠ 0 ∨ rs2Field w ≠ 0 then .error .unusedField
  else if canonical (immField w) = false then .error .immediateRange
  else .ok (mk (rdField w) (immField w))

/-- Format FS: rs1; rd, rs2 and imm must be 0 (R92). -/
def decodeFS (mk : Reg → Instr) (w : Word) : Except DecodeError Instr :=
  if rdField w ≠ 0 ∨ rs2Field w ≠ 0 ∨ immField w ≠ 0 then .error .unusedField
  else .ok (mk (rs1Field w))

/-- Format FZ: no field but op (R92, R97). -/
def decodeFZ (i : Instr) (w : Word) : Except DecodeError Instr :=
  if w.extractLsb' 6 26 ≠ 0 then .error .unusedField
  else .ok i

/-- Decode (spec/30_encoding.md R97): it reads nothing but the word. -/
def decode (w : Word) : Except DecodeError Instr :=
  if resField w ≠ 0 then .error .reservedField
  else
    match (opField w).toNat with
    | 0x01 => decodeFR .fadd w
    | 0x02 => decodeFR .fsub w
    | 0x03 => decodeFR .fmul w
    | 0x04 => decodeFR .fpow w
    | 0x05 => decodeFU .finv w
    | 0x06 => decodeFI .fldi w
    | 0x10 => decodeFS .cgen w
    | 0x11 => decodeFU .peval w
    | 0x12 => decodeFZ .pclr w
    | 0x18 => decodeFZ .lbasis w
    | 0x20 => decodeFZ .split w
    | 0x21 => decodeFZ .recon w
    | _ => .error .reservedOpcode

/-- The word whose bytes, lowest address first, are the given ones (little-endian, spec/20_memory.md R61).
A command is four bytes, neither fewer nor more (spec/30_encoding.md R90, R100). -/
def decodeBytes : List Byte → Except DecodeError Instr
  | [b0, b1, b2, b3] => decode (b3 ++ b2 ++ b1 ++ b0)
  | _ => .error .notOneWord

/-- The bytes of a word, lowest address first (spec/20_memory.md R61). -/
def wordBytes (w : Word) : List Byte :=
  [w.extractLsb' 0 8, w.extractLsb' 8 8, w.extractLsb' 16 8, w.extractLsb' 24 8]

/-- What the decoder reads from an instruction whose bits, as spec/opcode_table.json numbers them, are w:
the word of those bits is laid out in its byte order and decoded. -/
def decodeTableWord (nbits w : Nat) : Option Instr :=
  if nbits ≤ 32 then
    match decodeBytes (wordBytes (BitVec.ofNat 32 (w % 2 ^ nbits))) with
    | .ok i => some i
    | .error _ => none
  else none

/-- A word is assembled from its fields, with res = 0 (spec/30_encoding.md R91, R93). -/
def assembleWord (imm : FieldWord) (rs2 rs1 rd : Reg) (op : BitVec 6) : Word :=
  (0 : BitVec 5) ++ imm ++ rs2 ++ rs1 ++ rd ++ op

/-- The opcode of a command (spec/30_encoding.md R96). -/
def Instr.opcode : Instr → BitVec 6
  | .fadd _ _ _ => 0x01
  | .fsub _ _ _ => 0x02
  | .fmul _ _ _ => 0x03
  | .fpow _ _ _ => 0x04
  | .finv _ _ => 0x05
  | .fldi _ _ => 0x06
  | .cgen _ => 0x10
  | .peval _ _ => 0x11
  | .pclr => 0x12
  | .lbasis => 0x18
  | .split => 0x20
  | .recon => 0x21

/-- The word of a command: the fields its format uses, every other field 0 (spec/30_encoding.md R92, R93). -/
def encode (i : Instr) : Word :=
  match i with
  | .fadd rd rs1 rs2 => assembleWord 0 rs2 rs1 rd i.opcode
  | .fsub rd rs1 rs2 => assembleWord 0 rs2 rs1 rd i.opcode
  | .fmul rd rs1 rs2 => assembleWord 0 rs2 rs1 rd i.opcode
  | .fpow rd rs1 rs2 => assembleWord 0 rs2 rs1 rd i.opcode
  | .finv rd rs1 => assembleWord 0 0 rs1 rd i.opcode
  | .fldi rd imm => assembleWord imm 0 0 rd i.opcode
  | .cgen rs1 => assembleWord 0 0 rs1 0 i.opcode
  | .peval rd rs1 => assembleWord 0 0 rs1 rd i.opcode
  | .pclr => assembleWord 0 0 0 0 i.opcode
  | .lbasis => assembleWord 0 0 0 0 i.opcode
  | .split => assembleWord 0 0 0 0 i.opcode
  | .recon => assembleWord 0 0 0 0 i.opcode

end Sys2Proof
end

