-- ==== Sys2Proof/Config.lean ====
section
/-! DEFINITION. What an implementation fixes: the capacities and the base address, each an open parameter. -/

namespace Sys2Proof

/-- The parameters of one block (spec/00_scope.md R6, spec/20_memory.md R65). A value carries the proof that
it is legal, which `by decide` supplies for numerals. -/
structure Params where
  /-- S_MAX: share slots, and coefficient registers. -/
  sMax : Nat
  /-- L_MAX: byte positions of the secret and of a share slot. -/
  lMax : Nat
  /-- BLOCK_BASE: where the platform places the block. -/
  base : Word
  sMax_legal : 2 ≤ sMax ∧ sMax ≤ 256 := by decide
  lMax_legal : 1 ≤ lMax ∧ lMax ≤ 65535 := by decide
  base_legal : base.toNat % 4 = 0 ∧ base.toNat + 0x05000000 ≤ 2 ^ 32 := by decide
  deriving DecidableEq, Repr

/-- DESIGN CHOICE, log 1: the open parameter S_MAX, as its place in the legal range 2..256. -/
opaque Config.sMaxPlace : Fin 255

/-- DESIGN CHOICE, log 1: the open parameter L_MAX, as its place in the legal range 1..65535. -/
opaque Config.lMaxPlace : Fin 65535

/-- DESIGN CHOICE, log 1: the open parameter BLOCK_BASE, as the number of words below it. The last legal base
is 2^32 - 0x0500_0000. -/
opaque Config.basePlace : Fin 1052770305

/-- The parameters of the machine that State.reset describes: any legal ones (spec/00_scope.md R6,
spec/20_memory.md R65). -/
def Config.params : Params where
  sMax := 2 + Config.sMaxPlace.val
  lMax := 1 + Config.lMaxPlace.val
  base := BitVec.ofNat 32 (4 * Config.basePlace.val)
  sMax_legal := by have := Config.sMaxPlace.isLt; omega
  lMax_legal := by have := Config.lMaxPlace.isLt; omega
  base_legal := by
    have h := Config.basePlace.isLt
    have e : (BitVec.ofNat 32 (4 * Config.basePlace.val)).toNat = 4 * Config.basePlace.val :=
      Nat.mod_eq_of_lt (by omega)
    rw [e]
    omega

end Sys2Proof
end

