-- ==== Sys2Proof/Machine/State.lean ====
section
/-! DEFINITION. The state of the block as plain data (spec/10_state.md R20), the moves of its agents that are
still to come, the reasons a step can stop, and the state after reset. -/

namespace Sys2Proof.Machine

/-- The cells of one array: (index, value) pairs, indices strictly rising. An index that is not listed has no
value, its written mark is clear (spec/10_state.md R41). log 5. -/
abbrev Cells (w : Nat) := List (Nat × BitVec w)

/-- Share memory, weights and secret memory (spec/10_state.md R35 to R39). SECRET holds bytes, so `Cells 8` is
`List Host.Cell`; the other arrays hold wider elements. The cells of Y are keyed by
65536 * s + p, the word index of the element's offset in the Y region (spec/20_memory.md R66). -/
structure Memory where
  x : Cells 9
  slen : Cells 16
  w : Cells 9
  secret : Cells 8
  y : Cells 9
  deriving DecidableEq, Repr

/-- One array element, by the name the spec gives it. -/
inductive Elem where
  | x (s : Nat)
  | slen (s : Nat)
  | w (s : Nat)
  | secret (p : Nat)
  | y (s p : Nat)
  deriving DecidableEq, Repr

/-- STATUS. The bits that no field names read 0 (spec/10_state.md R25, R26), so they need no storage. CODE is
four bits wide: the reserved codes 10 to 15 (spec/60_exceptions.md R220) can be written down, and Safety's
invariant says that no step brings one about. -/
structure Status where
  busy : Bool
  done : Bool
  err : Bool
  code : BitVec 4
  deriving DecidableEq, Repr

/-- The completion codes (spec/60_exceptions.md R220). -/
inductive Code where
  | ok
  | invalidParameters
  | divisionByZero
  | inconsistentShares
  | duplicateShareIndex
  | emptyShareSet
  | illegalCommand
  | operandRange
  | indexRange
  | capacity
  deriving DecidableEq, Repr

/-- How wide a host access is; only word accesses exist (spec/20_memory.md R62). -/
inductive AccessWidth where
  | byte
  | half
  | word
  deriving DecidableEq, Repr

/-- One operation of the host (spec/30_encoding.md R105). Addresses are bus addresses, BLOCK_BASE included.
A write carries its four byte enables (spec/20_memory.md R62). -/
inductive HostOp where
  | read (addr : Word) (width : AccessWidth)
  | write (addr : Word) (width : AccessWidth) (enables : BitVec 4) (value : Word)
  | poll
  deriving DecidableEq, Repr

/-- Which agent moves (spec/00_scope.md R8, spec/20_memory.md R72): the host performs its next operation, the
unit has its step, the entropy source answers one raw word, or the platform applies RST. -/
inductive Turn where
  | host
  | unit
  | entropy (raw : FieldWord)
  | reset
  deriving DecidableEq, Repr

/-- The block's response to the host's last access (spec/20_memory.md R72). log 4. -/
inductive Response where
  | none
  | readData (value : Word)
  | writeDone
  deriving DecidableEq, Repr

/-- Everything the spec gives the block, the parameters it was built with, and the moves still to come. -/
structure State where
  /-- F[0..15] (spec/10_state.md R22). -/
  f : Vector FieldWord 16
  /-- STATUS (R26). -/
  status : Status
  /-- CMDREG (R28). -/
  cmdreg : Word
  /-- ERRINFO (R29). -/
  errinfo : Word
  /-- NREG.N (R30). -/
  nreg : FieldWord
  /-- KREG.K (R30). -/
  kreg : FieldWord
  /-- LEN.L (R32). -/
  len : BitVec 16
  /-- SCNT.M (R33). -/
  scnt : FieldWord
  /-- X, SLEN, W, SECRET and Y with their written marks (R35 to R39, R41). -/
  mem : Memory
  /-- COEF[0..S_MAX-1], hidden (R40). -/
  coef : List FieldWord
  /-- KC, hidden (R40). -/
  kc : FieldWord
  /-- The constants SMAX and LMAX (R31) and BLOCK_BASE (spec/20_memory.md R65). MODULUS is hard-wired. -/
  cfg : Params
  /-- The model's own: which agents move next, first to last. log 2. -/
  turns : List Turn
  /-- The model's own: the host's operations still to come, in program order. log 2. -/
  program : List HostOp
  /-- The model's own: raw words the entropy source has answered and no draw has used, oldest first. log 3. -/
  entropy : List FieldWord
  /-- The model's own: the response to the host's last access. log 4. -/
  response : Response
  deriving DecidableEq, Repr

/-- Why a run stops. Every constructor is a model fault of spec/60_exceptions.md R228: the spec asks that it be
recorded, never cleared, and that every claim take its absence as a premise. All are safe: the model stops
where the hardware answers an error or some unspecified value. -/
inductive Fault where
  /-- A host access narrower than a word, or a write whose byte enables are not all set
  (spec/20_memory.md R62). Raised by a host access. Safe. -/
  | busSubWord
  /-- A host access whose address is not a multiple of 4 (spec/20_memory.md R64). Raised by a host access.
  Safe. -/
  | busMisaligned
  /-- A host access to an unmapped offset (spec/20_memory.md R67). Raised by a host access. Safe. -/
  | busUnmapped
  /-- A host write to a read-only offset (spec/20_memory.md R68). Raised by a host access. Safe. -/
  | busReadOnly
  /-- A host access that is not allowed while BUSY = 1 (spec/20_memory.md R71). Raised by a host access. Safe. -/
  | busWhileBusy
  /-- A read of an array element whose written mark is clear (spec/10_state.md R41). Raised by a host read and
  by SPLIT, LBASIS and RECON. Safe. -/
  | unwritten (e : Elem)
  deriving DecidableEq, Repr

/-- Why an instruction has no meaning. -/
inductive Refusal where
  /-- An instruction this model has not reached. Raised by exec's arm for it, and by nothing else: no arm of
  this model raises it. Safe. -/
  | notModelled (mnemonic : String)
  deriving DecidableEq, Repr

/-- STATUS after reset (spec/10_state.md R43). -/
def Status.cleared : Status := { busy := false, done := false, err := false, code := 0 }

/-- No element is written (spec/10_state.md R41, R43). -/
def Memory.unwritten : Memory := { x := [], slen := [], w := [], secret := [], y := [] }

/-- A block with the given parameters right after reset (spec/10_state.md R43), with no agent's move pending
(logs 2, 3, 4). -/
def State.powerOn (p : Params) : State where
  f := Vector.replicate 16 0
  status := Status.cleared
  cmdreg := 0
  errinfo := 0
  nreg := 0
  kreg := 0
  len := 0
  scnt := 0
  mem := Memory.unwritten
  coef := List.replicate p.sMax 0
  kc := 0
  cfg := p
  turns := []
  program := []
  entropy := []
  response := .none

/-- The machine right after reset (spec/10_state.md R43), for any legal parameters (log 1). -/
def State.reset : State := State.powerOn Config.params

end Sys2Proof.Machine
end

