-- ==== Sys2Proof/Machine/Flags.lean ====
section
/-! DEFINITION. STATUS as a bus word, and the only values that acceptance and completion give it. -/

namespace Sys2Proof.Machine

/-- The number of a completion code (spec/60_exceptions.md R220). -/
def Code.bits : Code → BitVec 4
  | .ok => 0
  | .invalidParameters => 1
  | .divisionByZero => 2
  | .inconsistentShares => 3
  | .duplicateShareIndex => 4
  | .emptyShareSet => 5
  | .illegalCommand => 6
  | .operandRange => 7
  | .indexRange => 8
  | .capacity => 9

/-- STATUS as the host reads it: BUSY [0], DONE [1], ERR [2], CODE [11:8], every other bit 0
(spec/10_state.md R26). -/
def Status.toWord (st : Status) : Word :=
  (0 : BitVec 20) ++ st.code ++ (0 : BitVec 5) ++ BitVec.ofBool st.err ++ BitVec.ofBool st.done
    ++ BitVec.ofBool st.busy

/-- STATUS at acceptance (spec/10_state.md R27). -/
def Status.accepted : Status := { busy := true, done := false, err := false, code := 0 }

/-- STATUS at completion with code c (spec/10_state.md R27, spec/60_exceptions.md R224). -/
def Status.completed (c : Code) : Status :=
  { busy := false, done := true, err := decide (c ≠ .ok), code := c.bits }

end Sys2Proof.Machine
end

