-- ==== Sys2Proof/Machine/Ops.lean ====
section
/-! DEFINITION. The named operations over registers and arrays, and the life of a command: acceptance,
completion (the one operation that a raised error takes), reset, and how a command's checks end it. -/

namespace Sys2Proof.Machine

/-! ## Arrays -/

/-- The value at index i; none where the written mark is clear (spec/10_state.md R41). -/
def Cells.read {w : Nat} : Cells w → Nat → Option (BitVec w)
  | [], _ => none
  | (k, v) :: rest, i => if i = k then some v else Cells.read rest i

/-- Set the value at index i, and with it its written mark (spec/10_state.md R41). -/
def Cells.write {w : Nat} : Cells w → Nat → BitVec w → Cells w
  | [], i, v => [(i, v)]
  | (k, u) :: rest, i, v =>
    if i < k then (i, v) :: (k, u) :: rest
    else if i = k then (i, v) :: rest
    else (k, u) :: Cells.write rest i v

/-- Set the values at i, i+1, ... in ascending order (spec/00_scope.md R15). -/
def Cells.writeRun {w : Nat} (c : Cells w) (i : Nat) : List (BitVec w) → Cells w
  | [] => c
  | v :: vs => Cells.writeRun (c.write i v) (i + 1) vs

/-- Every index is at least lo and the indices rise strictly. -/
def Cells.risingFrom {w : Nat} (lo : Nat) : Cells w → Bool
  | [] => true
  | (k, _) :: rest => decide (lo ≤ k) && Cells.risingFrom (k + 1) rest

/-- The canonical form of one array: strictly rising indices. An unlisted index has no value, so no entry can
equal what an unlisted one reads as. -/
def Cells.wf {w : Nat} (c : Cells w) : Bool := c.risingFrom 0

/-- The canonical form of all arrays, so that equal memories are equal data (log 5). -/
def Memory.wf (m : Memory) : Bool := m.x.wf && m.slen.wf && m.w.wf && m.secret.wf && m.y.wf

/-- The key of Y[s][p]: the word index of its offset in the Y region (spec/20_memory.md R66). -/
def yKey (s p : Nat) : Nat := 65536 * s + p

/-- The block has this element (spec/10_state.md R35 to R39, spec/20_memory.md R67). -/
def Elem.mapped (cfg : Params) : Elem → Bool
  | .x s => decide (s < cfg.sMax)
  | .slen s => decide (s < cfg.sMax)
  | .w s => decide (s < cfg.sMax)
  | .secret p => decide (p < cfg.lMax)
  | .y s p => decide (s < cfg.sMax) && decide (p < cfg.lMax)

/-- The element as a bus word, zero-extended (spec/10_state.md R34); none where its written mark is clear. -/
def Memory.read (m : Memory) : Elem → Option Word
  | .x s => (m.x.read s).map (BitVec.setWidth 32)
  | .slen s => (m.slen.read s).map (BitVec.setWidth 32)
  | .w s => (m.w.read s).map (BitVec.setWidth 32)
  | .secret p => (m.secret.read p).map (BitVec.setWidth 32)
  | .y s p => (m.y.read (yKey s p)).map (BitVec.setWidth 32)

/-- Store the low bits of a bus word in the element (spec/10_state.md R34). -/
def Memory.store (m : Memory) (e : Elem) (v : Word) : Memory :=
  match e with
  | .x s => { m with x := m.x.write s (v.setWidth 9) }
  | .slen s => { m with slen := m.slen.write s (v.setWidth 16) }
  | .w s => { m with w := m.w.write s (v.setWidth 9) }
  | .secret p => { m with secret := m.secret.write p (v.setWidth 8) }
  | .y s p => { m with y := m.y.write (yKey s p) (v.setWidth 9) }

/-! ## Registers -/

/-- F[r] (spec/00_scope.md R11). -/
def State.readF (s : State) (r : Reg) : FieldWord := s.f[r.toNat]'(r.isLt)

/-- F[r] <- v (spec/00_scope.md R11). -/
def State.writeF (s : State) (r : Reg) (v : FieldWord) : State :=
  { s with f := s.f.set r.toNat v r.isLt }

/-- COEF[0..S_MAX-1] <- cs followed by zeros, KC <- k (spec/10_state.md R40). -/
def State.setPoly (s : State) (cs : List FieldWord) (k : FieldWord) : State :=
  { s with coef := cs ++ List.replicate (s.cfg.sMax - cs.length) 0, kc := k }

/-- COEF <- 0 and KC <- 0: the polynomial is discarded (spec/41_coefficient_poly.md R158, spec/42_split.md
R170). -/
def State.clearPoly (s : State) : State := s.setPoly [] 0

/-- Put other arrays in place. -/
def State.setMem (s : State) (m : Memory) : State := { s with mem := m }

/-- LEN <- v (spec/44_reconstruct.md R200). -/
def State.setLen (s : State) (v : BitVec 16) : State := { s with len := v }

/-- The raw words that remain after a command's draws (spec/41_coefficient_poly.md R151). -/
def State.setEntropy (s : State) (left : List FieldWord) : State := { s with entropy := left }

/-! ## The life of a command -/

/-- Acceptance of the word v: CMDREG <- v, ERRINFO <- 0, STATUS as at acceptance (spec/10_state.md R28). -/
def State.accept (s : State) (v : Word) : State :=
  { s with cmdreg := v, errinfo := 0, status := Status.accepted }

/-- Completion with code c and info i (spec/60_exceptions.md R224). With a code other than OK this is all that
a raised error does: the block saves no pc and no status, changes no mode and jumps nowhere (R225), and nothing
has to be returned from (R227). -/
def State.complete (s : State) (c : Code) (info : Word) : State :=
  { s with status := Status.completed c, errinfo := if c = .ok then 0 else info }

/-- RST: every piece of the block's state takes its reset value and nothing else changes
(spec/70_reset_and_hazards.md R260). A pending command is aborted (R261). The parameters are constants, and
what the agents will do next is not the block's. -/
def State.applyReset (s : State) : State :=
  { State.powerOn s.cfg with
    turns := s.turns, program := s.program, entropy := s.entropy, response := s.response }

/-- The entropy source answers a raw word (spec/41_coefficient_poly.md R150). -/
def State.deliver (s : State) (raw : FieldWord) : State := s.setEntropy (s.entropy ++ [raw])

/-- An accepted command whose unit step comes next (log 6). -/
def State.placeCommand (s : State) (v : Word) : State :=
  { s.accept v with turns := .unit :: s.turns }

/-! ## How a command's checks and reads end it -/

/-- What ends a command early. -/
inductive Stop where
  /-- `raise c(info)` (spec/00_scope.md R13). -/
  | raise (c : Code) (info : Word)
  /-- A model fault (spec/10_state.md R41). -/
  | fault (r : Fault)
  /-- The entropy source has not answered an acceptable word for every draw: the unit step is not enabled
  (spec/41_coefficient_poly.md R153). -/
  | wait
  deriving DecidableEq, Repr

/-- A part of a command that may end it early. -/
abbrev Check (α : Type) := Except Stop α

/-- Raise c(info) if p holds (spec/00_scope.md R13). -/
def raiseIf (p : Prop) [Decidable p] (c : Code) (info : Word) : Check Unit :=
  if p then .error (.raise c info) else .ok ()

/-- The value of an element, or the model fault of an unwritten one (spec/10_state.md R41). -/
def written {α : Type} (e : Elem) : Option α → Check α
  | some v => .ok v
  | none => .error (.fault (.unwritten e))

/-- The results of g at the listed indices, in that order; the first that ends the command ends it
(spec/00_scope.md R15). -/
def gather {α : Type} (g : Nat → Check α) : List Nat → Check (List α)
  | [] => .ok []
  | i :: rest =>
    match g i with
    | .error e => .error e
    | .ok a =>
      match gather g rest with
      | .error e => .error e
      | .ok as => .ok (a :: as)

/-- The unit step of a command whose rule, from s, is body (spec/10_state.md R24). Success completes with OK
after every write; a raise completes with its code and none of the writes (spec/60_exceptions.md R224); a
command that still waits for entropy leaves the state as it is, BUSY = 1, which is the hang of
spec/41_coefficient_poly.md R151. -/
def finish (s : State) (body : Check State) : Host.Outcome State Fault Refusal :=
  match body with
  | .ok t => .next (t.complete .ok 0)
  | .error (.raise c info) => .next (s.complete c info)
  | .error (.fault r) => .fault r
  | .error .wait => .next s

end Sys2Proof.Machine
end

