-- ==== Sys2Proof/Machine/Bus.lean ====
section
/-! DEFINITION. The host bus: the address map, what a read answers, what a write stores, and which accesses are
bus errors (spec/20_memory.md). -/

namespace Sys2Proof.Machine

/-- A mapped place of the block (spec/20_memory.md R66). -/
inductive Loc where
  | modulus
  | smax
  | lmax
  | status
  | cmd
  | errinfo
  | nreg
  | kreg
  | len
  | scnt
  | f (r : Reg)
  | elem (e : Elem)
  deriving DecidableEq, Repr

/-- The place exists on a block with these capacities (spec/20_memory.md R67). -/
def Loc.mapped (cfg : Params) : Loc → Bool
  | .elem e => e.mapped cfg
  | .modulus => true
  | .smax => true
  | .lmax => true
  | .status => true
  | .cmd => true
  | .errinfo => true
  | .nreg => true
  | .kreg => true
  | .len => true
  | .scnt => true
  | .f _ => true

/-- The offset of a place (spec/20_memory.md R66). -/
def Loc.offset : Loc → Nat
  | .modulus => 0x0000
  | .smax => 0x0004
  | .lmax => 0x0008
  | .status => 0x000C
  | .cmd => 0x0010
  | .errinfo => 0x0014
  | .nreg => 0x0018
  | .kreg => 0x001C
  | .len => 0x0020
  | .scnt => 0x0024
  | .f r => 0x0040 + 4 * r.toNat
  | .elem (.x s) => 0x1000 + 4 * s
  | .elem (.slen s) => 0x1400 + 4 * s
  | .elem (.w s) => 0x1800 + 4 * s
  | .elem (.secret p) => 0x00010000 + 4 * p
  | .elem (.y s p) => 0x01000000 + 0x00040000 * s + 4 * p

/-- The bus address of a place (spec/20_memory.md R65). -/
def Loc.address (cfg : Params) (l : Loc) : Word := cfg.base + BitVec.ofNat 32 l.offset

/-- An element, if the block has it (spec/20_memory.md R67). -/
def mappedElem (cfg : Params) (e : Elem) : Option Loc :=
  if e.mapped cfg then some (.elem e) else none

/-- The registers of the address map below 0x40 (spec/20_memory.md R66). -/
def locateControl (off : Nat) : Option Loc :=
  match off with
  | 0x0000 => some .modulus
  | 0x0004 => some .smax
  | 0x0008 => some .lmax
  | 0x000C => some .status
  | 0x0010 => some .cmd
  | 0x0014 => some .errinfo
  | 0x0018 => some .nreg
  | 0x001C => some .kreg
  | 0x0020 => some .len
  | 0x0024 => some .scnt
  | _ => none

/-- The place at a word-aligned offset, none where it is unmapped (spec/20_memory.md R66, R67). -/
def locate (cfg : Params) (off : Nat) : Option Loc :=
  if off < 0x0040 then locateControl off
  else if off < 0x0080 then some (.f (BitVec.ofNat 4 ((off - 0x0040) / 4)))
  else if off < 0x1000 then none
  else if off < 0x1400 then mappedElem cfg (.x ((off - 0x1000) / 4))
  else if off < 0x1800 then mappedElem cfg (.slen ((off - 0x1400) / 4))
  else if off < 0x1C00 then mappedElem cfg (.w ((off - 0x1800) / 4))
  else if off < 0x00010000 then none
  else if off < 0x01000000 then mappedElem cfg (.secret ((off - 0x00010000) / 4))
  else if off < 0x05000000 then
    mappedElem cfg (.y ((off - 0x01000000) / 0x00040000) ((off - 0x01000000) % 0x00040000 / 4))
  else none

/-- The offset of a bus address from BLOCK_BASE (spec/20_memory.md R65). An address below the base wraps to an
offset of at least 0x0500_0000, which is unmapped (log 7). -/
def offsetOf (cfg : Params) (addr : Word) : Nat := (addr - cfg.base).toNat

/-- A place the host may not write (spec/20_memory.md R66, R68). -/
def Loc.readOnly : Loc → Bool
  | .modulus => true
  | .smax => true
  | .lmax => true
  | .status => true
  | .errinfo => true
  | .elem (.w _) => true
  | .cmd => false
  | .nreg => false
  | .kreg => false
  | .len => false
  | .scnt => false
  | .f _ => false
  | .elem (.x _) => false
  | .elem (.slen _) => false
  | .elem (.secret _) => false
  | .elem (.y _ _) => false

/-- A place the host may read while BUSY = 1 (spec/20_memory.md R71). -/
def Loc.readableWhileBusy : Loc → Bool
  | .modulus => true
  | .smax => true
  | .lmax => true
  | .status => true
  | .cmd => false
  | .errinfo => false
  | .nreg => false
  | .kreg => false
  | .len => false
  | .scnt => false
  | .f _ => false
  | .elem _ => false

/-- What a host read answers: the value zero-extended (spec/10_state.md R34), or the model fault of an
unwritten element (R41). -/
def readLoc (s : State) : Loc → Except Fault Word
  | .modulus => .ok 257
  | .smax => .ok (BitVec.ofNat 32 s.cfg.sMax)
  | .lmax => .ok (BitVec.ofNat 32 s.cfg.lMax)
  | .status => .ok s.status.toWord
  | .cmd => .ok s.cmdreg
  | .errinfo => .ok s.errinfo
  | .nreg => .ok (s.nreg.setWidth 32)
  | .kreg => .ok (s.kreg.setWidth 32)
  | .len => .ok (s.len.setWidth 32)
  | .scnt => .ok (s.scnt.setWidth 32)
  | .f r => .ok ((s.readF r).setWidth 32)
  | .elem e =>
    match s.mem.read e with
    | some v => .ok v
    | none => .error (.unwritten e)

/-- What a host write to a writable place does: it stores the low bits of the word there
(spec/10_state.md R34); at CMD it accepts a command (R28). The read-only places are refused before
(spec/20_memory.md R68) and keep their value here. -/
def writeLoc (s : State) (l : Loc) (v : Word) : State :=
  match l with
  | .modulus => s
  | .smax => s
  | .lmax => s
  | .status => s
  | .cmd => s.accept v
  | .errinfo => s
  | .nreg => { s with nreg := v.setWidth 9 }
  | .kreg => { s with kreg := v.setWidth 9 }
  | .len => { s with len := v.setWidth 16 }
  | .scnt => { s with scnt := v.setWidth 9 }
  | .f r => s.writeF r (v.setWidth 9)
  | .elem e => s.setMem (s.mem.store e v)

/-- The place that an access reaches: it must be a whole word (spec/20_memory.md R62), aligned (R64) and mapped
(R67). -/
def reach (s : State) (addr : Word) (width : AccessWidth) (enables : BitVec 4) :
    Except Fault Loc :=
  if width ≠ .word ∨ enables ≠ 0xF then .error .busSubWord
  else if addr.toNat % 4 ≠ 0 then .error .busMisaligned
  else
    match locate s.cfg (offsetOf s.cfg addr) with
    | none => .error .busUnmapped
    | some l => .ok l

/-- The end of an access: the block answers, or the access is a bus error or a model fault
(spec/20_memory.md R63). -/
def answer (body : Except Fault State) : Host.Outcome State Fault Refusal :=
  match body with
  | .ok t => .next t
  | .error r => .fault r

/-- MemRead (spec/00_scope.md R12, spec/20_memory.md R62 to R71). The only thing it changes is the response. -/
def hostRead (s : State) (addr : Word) (width : AccessWidth) : Host.Outcome State Fault Refusal :=
  answer do
    let l ← reach s addr width 0xF
    if s.status.busy = true ∧ l.readableWhileBusy = false then .error .busWhileBusy
    else
      let v ← readLoc s l
      .ok { s with response := .readData v }

/-- MemWrite (spec/00_scope.md R12, spec/20_memory.md R62 to R71). -/
def hostWrite (s : State) (addr : Word) (width : AccessWidth) (enables : BitVec 4) (v : Word) :
    Host.Outcome State Fault Refusal :=
  answer do
    let l ← reach s addr width enables
    if s.status.busy = true then .error .busWhileBusy
    else if l.readOnly then .error .busReadOnly
    else .ok { writeLoc s l v with response := .writeDone }

/-- POLL's read of STATUS, which is repeated until BUSY = 0 (spec/30_encoding.md R105). The argument `again` is
the host's program with the POLL still in front. -/
def hostPoll (s : State) (again : List HostOp) : Host.Outcome State Fault Refusal :=
  match hostRead s (Loc.status.address s.cfg) .word with
  | .next t => .next (if s.status.busy then { t with program := again } else t)
  | .fault r => .fault r
  | .refused r => .refused r

/-- The host performs its next operation, if it has one, and then has it behind it (spec/20_memory.md R72). -/
def hostTurn (s : State) : Host.Outcome State Fault Refusal :=
  match s.program with
  | [] => .next s
  | .read addr width :: rest => hostRead { s with program := rest } addr width
  | .write addr width enables v :: rest => hostWrite { s with program := rest } addr width enables v
  | .poll :: rest => hostPoll { s with program := rest } s.program

/-- WR name, value (spec/30_encoding.md R105). -/
def wr (cfg : Params) (l : Loc) (v : Word) : HostOp := .write (l.address cfg) .word 0xF v

/-- RD name (spec/30_encoding.md R105). -/
def rd (cfg : Params) (l : Loc) : HostOp := .read (l.address cfg) .word

/-- EXEC of the command with word v: WR CMD followed by POLL (spec/30_encoding.md R105). -/
def execOps (cfg : Params) (v : Word) : List HostOp := [wr cfg .cmd v, .poll]

end Sys2Proof.Machine
end

