-- ==== Sys2Proof/Machine/Field.lean ====
section
/-! DEFINITION. Arithmetic mod 257 on exact integers (spec/00_scope.md R10, spec/40_field_arith.md R129),
polynomial values, and Lagrange weights at 0. -/

namespace Sys2Proof.Machine

/-- P = 257 (spec/00_scope.md R5). -/
def prime : Nat := 257

/-- (a + b) mod 257 (R10). -/
def addP (a b : Nat) : Nat := (a + b) % prime

/-- (a - b) mod 257, with a result in [0,256] for negative differences too (R10). -/
def subP (a b : Nat) : Nat := (((a : Int) - (b : Int)) % (prime : Int)).toNat

/-- (a * b) mod 257: the exact product, then one reduction (R10). -/
def mulP (a b : Nat) : Nat := (a * b) % prime

/-- a^e mod 257, with a^0 = 1 for every a (R10, spec/40_field_arith.md R124). -/
def powP (a e : Nat) : Nat := a ^ e % prime

/-- The inverse of a in [1,256]: a^(P-2) (R10, spec/40_field_arith.md R125). -/
def invP (a : Nat) : Nat := powP a (prime - 2)

/-- The exact sum of c * powP(x, i), i counting from the given exponent (spec/41_coefficient_poly.md R155). -/
def powerSum (x : Nat) : List FieldWord → Nat → Nat
  | [], _ => 0
  | c :: cs, i => c.toNat * powP x i + powerSum x cs (i + 1)

/-- PolyVal(C, K, x) for the first K coefficients cs of C (spec/41_coefficient_poly.md R155). -/
def polyVal (cs : List FieldWord) (x : Nat) : Nat := powerSum x cs 0 % prime

/-- The factor of point j in the weight of point i (spec/43_lagrange_basis.md R188). -/
def basisFactor (xi xj : Nat) : Nat := mulP (subP 0 xj) (invP (subP xi xj))

/-- Basis(X, m, i): the product over j ≠ i, mod 257, the empty product being 1
(spec/43_lagrange_basis.md R188). -/
def basis (xs : List FieldWord) (i : Nat) : Nat :=
  ((List.range xs.length).filter fun j => decide (j ≠ i)).foldr
    (fun j acc => mulP (basisFactor (xs.getD i 0).toNat (xs.getD j 0).toNat) acc) 1

/-- The weights of all points (spec/43_lagrange_basis.md R185). -/
def weights (xs : List FieldWord) : List Nat := (List.range xs.length).map (basis xs)

/-- Interpolation at 0: the sum of y_i * w_i, mod 257 (spec/44_reconstruct.md R200). -/
def interpolate (ws : List Nat) (ys : List FieldWord) : Nat :=
  (List.zipWith (fun y w => y.toNat * w) ys ws).sum % prime

/-- The fold onto a byte (spec/44_reconstruct.md R201). -/
def fold (v : Nat) : Byte := BitVec.ofNat 8 (v % 256)

end Sys2Proof.Machine
end

