-- ==== Sys2Proof/Machine/Operands.lean ====
section
/-! DEFINITION. The operand forms: a field register, an array element, a checked share index, a checked share
value, and the draws of the coefficient generator. -/

namespace Sys2Proof.Machine

/-- A register index as the info of a raise (spec/60_exceptions.md R223). -/
def regInfo (r : Reg) : Word := r.setWidth 32

/-- A slot as the info of a raise, in ERRINFO.LO (spec/60_exceptions.md R223). -/
def slotInfo (i : Nat) : Word := (0 : BitVec 16) ++ BitVec.ofNat 16 i

/-- ERRINFO with its two halves (spec/60_exceptions.md R223). -/
def pairInfo (hi lo : Nat) : Word := BitVec.ofNat 16 hi ++ BitVec.ofNat 16 lo

/-- F[r] as a field operand, which must be canonical (spec/10_state.md R23, spec/60_exceptions.md R222). -/
def fieldOperand (s : State) (r : Reg) : Check FieldWord := do
  raiseIf (canonical (s.readF r) = false) .operandRange (regInfo r)
  .ok (s.readF r)

/-- X[i] (spec/10_state.md R35). -/
def readX (s : State) (i : Nat) : Check FieldWord := written (.x i) (s.mem.x.read i)

/-- SLEN[i] (spec/10_state.md R36). -/
def readSlen (s : State) (i : Nat) : Check (BitVec 16) := written (.slen i) (s.mem.slen.read i)

/-- SECRET[p] (spec/10_state.md R38). -/
def readSecret (s : State) (p : Nat) : Check Byte := written (.secret p) (s.mem.secret.read p)

/-- Y[i][p] (spec/10_state.md R39). -/
def readY (s : State) (i p : Nat) : Check FieldWord := written (.y i p) (s.mem.y.read (yKey i p))

/-- X[i] as a share index in 1..256 (spec/43_lagrange_basis.md R187). -/
def checkedX (s : State) (i : Nat) : Check FieldWord := do
  let x ← readX s i
  raiseIf (x = 0 ∨ canonical x = false) .indexRange (slotInfo i)
  .ok x

/-- SLEN[i] as a length equal to that of slot 0 (spec/44_reconstruct.md R203). -/
def checkedSlen (s : State) (l : BitVec 16) (i : Nat) : Check (BitVec 16) := do
  let n ← readSlen s i
  raiseIf (n ≠ l) .inconsistentShares (slotInfo i)
  .ok n

/-- Y[i][p] as a field element; ERRINFO.HI is p and ERRINFO.LO is the slot (spec/44_reconstruct.md R202). -/
def checkedY (s : State) (i p : Nat) : Check FieldWord := do
  let y ← readY s i p
  raiseIf (canonical y = false) .operandRange (pairInfo p i)
  .ok y

/-- The first n acceptable raw words and what is left behind the last of them: each draw takes raw words until
one is at most 256 and discards the others (spec/41_coefficient_poly.md R151, R152). None if the words that
were answered do not suffice. -/
def takeDraws : Nat → List FieldWord → Option (List FieldWord × List FieldWord)
  | 0, raw => some ([], raw)
  | _ + 1, [] => none
  | n + 1, r :: rest =>
    if canonical r then
      match takeDraws n rest with
      | some (ds, left) => some (r :: ds, left)
      | none => none
    else takeDraws (n + 1) rest

/-- n draws in order, and the raw words that remain; the command waits until the entropy source has answered
them all (spec/41_coefficient_poly.md R153). Each draw is a free value: the raw words are inputs (log 3). -/
def sample (s : State) (n : Nat) : Check (List FieldWord × List FieldWord) :=
  match takeDraws n s.entropy with
  | some r => .ok r
  | none => .error .wait

end Sys2Proof.Machine
end

