-- ==== Sys2Proof/Machine/FieldArith.lean ====
section
/-! DEFINITION. The field arithmetic commands FADD, FSUB, FMUL, FPOW, FINV and FLDI
(spec/40_field_arith.md). -/

namespace Sys2Proof.Machine

/-- The shared form of FADD, FSUB, FMUL and FPOW: both operands are read and checked, rs1 first, before F[rd]
is written (spec/40_field_arith.md R120 to R123). -/
def binaryFieldRule (op : Nat → Nat → Nat) (rd rs1 rs2 : Reg) (s : State) : Check State := do
  let a ← fieldOperand s rs1
  let b ← fieldOperand s rs2
  .ok (s.writeF rd (BitVec.ofNat 9 (op a.toNat b.toNat)))

/-- FADD (spec/40_field_arith.md R120). -/
def execFadd (rd rs1 rs2 : Reg) (s : State) : Host.Outcome State Fault Refusal :=
  finish s (binaryFieldRule addP rd rs1 rs2 s)

/-- FSUB (spec/40_field_arith.md R121). -/
def execFsub (rd rs1 rs2 : Reg) (s : State) : Host.Outcome State Fault Refusal :=
  finish s (binaryFieldRule subP rd rs1 rs2 s)

/-- FMUL (spec/40_field_arith.md R122). -/
def execFmul (rd rs1 rs2 : Reg) (s : State) : Host.Outcome State Fault Refusal :=
  finish s (binaryFieldRule mulP rd rs1 rs2 s)

/-- FPOW (spec/40_field_arith.md R123): the exponent register is held to the same check. -/
def execFpow (rd rs1 rs2 : Reg) (s : State) : Host.Outcome State Fault Refusal :=
  finish s (binaryFieldRule powP rd rs1 rs2 s)

/-- The rule of FINV: OPERAND_RANGE before DIVISION_BY_ZERO (spec/40_field_arith.md R125). -/
def finvRule (rd rs1 : Reg) (s : State) : Check State := do
  let a ← fieldOperand s rs1
  raiseIf (a = 0) .divisionByZero (regInfo rs1)
  .ok (s.writeF rd (BitVec.ofNat 9 (invP a.toNat)))

/-- FINV (spec/40_field_arith.md R125). -/
def execFinv (rd rs1 : Reg) (s : State) : Host.Outcome State Fault Refusal :=
  finish s (finvRule rd rs1 s)

/-- FLDI (spec/40_field_arith.md R127). -/
def execFldi (rd : Reg) (imm : FieldWord) (s : State) : Host.Outcome State Fault Refusal :=
  finish s (.ok (s.writeF rd imm))

end Sys2Proof.Machine
end

