-- ==== Sys2Proof/Machine/Poly.lean ====
section
/-! DEFINITION. The polynomial unit: CGEN, PEVAL and PCLR (spec/41_coefficient_poly.md). -/

namespace Sys2Proof.Machine

/-- The rule of CGEN: every check precedes the first draw (spec/41_coefficient_poly.md R152, R154). -/
def cgenRule (rs1 : Reg) (s : State) : Check State := do
  raiseIf (s.kreg.toNat < 2) .invalidParameters 3
  raiseIf (s.kreg.toNat > s.cfg.sMax) .capacity 3
  let c ← fieldOperand s rs1
  let d ← sample s (s.kreg.toNat - 1)
  .ok ((s.setEntropy d.2).setPoly (c :: d.1) s.kreg)

/-- CGEN (spec/41_coefficient_poly.md R154). -/
def execCgen (rs1 : Reg) (s : State) : Host.Outcome State Fault Refusal :=
  finish s (cgenRule rs1 s)

/-- The rule of PEVAL: x = 0 is refused (spec/41_coefficient_poly.md R156). -/
def pevalRule (rd rs1 : Reg) (s : State) : Check State := do
  let x ← fieldOperand s rs1
  raiseIf (x = 0) .invalidParameters 5
  .ok (s.writeF rd (BitVec.ofNat 9 (polyVal (s.coef.take s.kc.toNat) x.toNat)))

/-- PEVAL (spec/41_coefficient_poly.md R156). -/
def execPeval (rd rs1 : Reg) (s : State) : Host.Outcome State Fault Refusal :=
  finish s (pevalRule rd rs1 s)

/-- PCLR (spec/41_coefficient_poly.md R158). -/
def execPclr (s : State) : Host.Outcome State Fault Refusal :=
  finish s (.ok s.clearPoly)

end Sys2Proof.Machine
end

