-- ==== Sys2Proof/Machine/Lagrange.lean ====
section
/-! DEFINITION. The checks shared by LBASIS and RECON, and LBASIS (spec/43_lagrange_basis.md). -/

namespace Sys2Proof.Machine

/-- check_count(m) (spec/43_lagrange_basis.md R186). -/
def checkCount (cfg : Params) (m : Nat) : Check Unit := do
  raiseIf (m = 0) .emptyShareSet 0
  raiseIf (m > cfg.sMax) .capacity 1

/-- The first pair (i, j), i < j, with equal indices, in the order of the loops: the smallest i, then the
smallest j (spec/43_lagrange_basis.md R187). The first argument is the slot of the list's head. -/
def firstDuplicate : Nat → List FieldWord → Option (Nat × Nat)
  | _, [] => none
  | i, x :: rest =>
    match rest.findIdx? (fun z => z = x) with
    | some d => some (i, i + 1 + d)
    | none => firstDuplicate (i + 1) rest

/-- The duplicate check; ERRINFO.HI is j and ERRINFO.LO is i (spec/43_lagrange_basis.md R187). -/
def checkDistinct (xs : List FieldWord) : Check Unit :=
  match firstDuplicate 0 xs with
  | some (i, j) => .error (.raise .duplicateShareIndex (pairInfo j i))
  | none => .ok ()

/-- check_x(m): the share indices of slots 0..m-1, all in range, then all distinct
(spec/43_lagrange_basis.md R187). -/
def checkX (s : State) (m : Nat) : Check (List FieldWord) := do
  let xs ← gather (checkedX s) (List.range m)
  checkDistinct xs
  .ok xs

/-- The arrays with W[0..m-1] written (spec/43_lagrange_basis.md R185). -/
def writeWeights (m : Memory) (ws : List Nat) : Memory :=
  { m with w := m.w.writeRun 0 (ws.map (BitVec.ofNat 9)) }

/-- The rule of LBASIS (spec/43_lagrange_basis.md R185). -/
def lbasisRule (s : State) : Check State := do
  checkCount s.cfg s.scnt.toNat
  let xs ← checkX s s.scnt.toNat
  .ok (s.setMem (writeWeights s.mem (weights xs)))

/-- LBASIS (spec/43_lagrange_basis.md R185). -/
def execLbasis (s : State) : Host.Outcome State Fault Refusal :=
  finish s (lbasisRule s)

end Sys2Proof.Machine
end

