-- ==== Sys2Proof/Machine/Recon.lean ====
section
/-! DEFINITION. The reconstruction pipeline (spec/44_reconstruct.md). -/

namespace Sys2Proof.Machine

/-- check_len(m, L) with L = SLEN[0], which it answers (spec/44_reconstruct.md R203). -/
def checkLen (s : State) (m : Nat) : Check (BitVec 16) := do
  let l ← readSlen s 0
  let _ ← gather (checkedSlen s l) (List.range' 1 (m - 1))
  raiseIf (l.toNat > s.cfg.lMax) .capacity 2
  .ok l

/-- check_y(m, L): the share values, one row per slot (spec/44_reconstruct.md R202). -/
def checkY (s : State) (m l : Nat) : Check (List (List FieldWord)) :=
  gather (fun i => gather (checkedY s i) (List.range l)) (List.range m)

/-- out[0..L-1]: each position interpolated at 0 and folded (spec/44_reconstruct.md R200, R201). -/
def recovered (ws : List Nat) (rows : List (List FieldWord)) (l : Nat) : List Byte :=
  (List.range l).map fun p => fold (interpolate ws (rows.map fun row => row.getD p 0))

/-- The arrays with SECRET[0..L-1] written (spec/44_reconstruct.md R200). -/
def writeSecret (m : Memory) (out : List Byte) : Memory :=
  { m with secret := m.secret.writeRun 0 out }

/-- The rule of RECON: every check and read, then the writes (spec/44_reconstruct.md R200). -/
def reconRule (s : State) : Check State := do
  checkCount s.cfg s.scnt.toNat
  let l ← checkLen s s.scnt.toNat
  let xs ← checkX s s.scnt.toNat
  let rows ← checkY s s.scnt.toNat l.toNat
  .ok ((s.setMem (writeSecret (writeWeights s.mem (weights xs))
    (recovered (weights xs) rows l.toNat))).setLen l)

/-- RECON (spec/44_reconstruct.md R200). -/
def execRecon (s : State) : Host.Outcome State Fault Refusal :=
  finish s (reconRule s)

end Sys2Proof.Machine
end

