-- ==== Sys2Proof/Machine/Split.lean ====
section
/-! DEFINITION. The split pipeline (spec/42_split.md). -/

namespace Sys2Proof.Machine

/-- check_split(L, n, k) (spec/42_split.md R171). -/
def checkSplit (cfg : Params) (l n k : Nat) : Check Unit := do
  raiseIf (l = 0) .invalidParameters 1
  raiseIf (n < 2) .invalidParameters 2
  raiseIf (k < 2) .invalidParameters 3
  raiseIf (k > n) .invalidParameters 4
  raiseIf (n > cfg.sMax) .capacity 1
  raiseIf (l > cfg.lMax) .capacity 2

/-- One polynomial per secret byte: the byte, then the next d draws (spec/42_split.md R170, R174). -/
def splitPolys (d : Nat) : List Byte → List FieldWord → List (List FieldWord)
  | [], _ => []
  | b :: bs, draws => (b.setWidth 9 :: draws.take d) :: splitPolys d bs (draws.drop d)

/-- V[s][0..L-1]: every polynomial at x = s + 1 (spec/42_split.md R170). -/
def shareValues (polys : List (List FieldWord)) (s : Nat) : List FieldWord :=
  polys.map fun c => BitVec.ofNat 9 (polyVal c (s + 1))

/-- X[0..n-1], SLEN[0..n-1] and Y[0..n-1][0..L-1] as SPLIT writes them (spec/42_split.md R170, R172). -/
def writeShares (m : Memory) (n : Nat) (len : BitVec 16) (polys : List (List FieldWord)) : Memory :=
  { m with
    x := m.x.writeRun 0 ((List.range n).map fun s => BitVec.ofNat 9 (s + 1))
    slen := m.slen.writeRun 0 (List.replicate n len)
    y := (List.range n).foldl (fun y s => y.writeRun (yKey s 0) (shareValues polys s)) m.y }

/-- The rule of SPLIT: every check, then every read, then every draw, then the writes
(spec/42_split.md R170). -/
def splitRule (s : State) : Check State := do
  checkSplit s.cfg s.len.toNat s.nreg.toNat s.kreg.toNat
  let b ← gather (readSecret s) (List.range s.len.toNat)
  let d ← sample s (s.len.toNat * (s.kreg.toNat - 1))
  .ok (((s.setEntropy d.2).setMem
    (writeShares s.mem s.nreg.toNat s.len (splitPolys (s.kreg.toNat - 1) b d.1))).clearPoly)

/-- SPLIT (spec/42_split.md R170). -/
def execSplit (s : State) : Host.Outcome State Fault Refusal :=
  finish s (splitRule s)

end Sys2Proof.Machine
end

