-- ==== Sys2Proof/Machine/Dispatch.lean ====
section
/-! DEFINITION. One arm per command, each a direct call of its meaning. -/

namespace Sys2Proof.Machine

/-- The unit step of a decoded command (spec/10_state.md R24). -/
def exec (i : Instr) (s : State) : Host.Outcome State Fault Refusal :=
  match i with
  | .fadd rd rs1 rs2 => Sys2Proof.Machine.execFadd rd rs1 rs2 s
  | .fsub rd rs1 rs2 => Sys2Proof.Machine.execFsub rd rs1 rs2 s
  | .fmul rd rs1 rs2 => Sys2Proof.Machine.execFmul rd rs1 rs2 s
  | .fpow rd rs1 rs2 => Sys2Proof.Machine.execFpow rd rs1 rs2 s
  | .finv rd rs1 => Sys2Proof.Machine.execFinv rd rs1 s
  | .fldi rd imm => Sys2Proof.Machine.execFldi rd imm s
  | .cgen rs1 => Sys2Proof.Machine.execCgen rs1 s
  | .peval rd rs1 => Sys2Proof.Machine.execPeval rd rs1 s
  | .pclr => Sys2Proof.Machine.execPclr s
  | .lbasis => Sys2Proof.Machine.execLbasis s
  | .split => Sys2Proof.Machine.execSplit s
  | .recon => Sys2Proof.Machine.execRecon s

end Sys2Proof.Machine
end

