-- ==== Sys2Proof/Machine/Unit.lean ====
section
/-! DEFINITION. The unit's step, and the move of each agent. -/

namespace Sys2Proof.Machine

/-- The unit executes the command in CMDREG (spec/10_state.md R24); a word that is no command completes with
ILLEGAL_COMMAND and info 0 (spec/30_encoding.md R98). -/
def unitStep (s : State) : Host.Outcome State Fault Refusal :=
  match decode s.cmdreg with
  | .ok i => exec i s
  | .error _ => .next (s.complete .illegalCommand 0)

/-- The unit has a step exactly when BUSY = 1 (spec/10_state.md R24). -/
def unitTurn (s : State) : Host.Outcome State Fault Refusal :=
  if s.status.busy then unitStep s else .next s

/-- One agent moves (spec/00_scope.md R8, spec/20_memory.md R72). -/
def runTurn (t : Turn) (s : State) : Host.Outcome State Fault Refusal :=
  match t with
  | .host => hostTurn s
  | .unit => unitTurn s
  | .entropy raw => .next (s.deliver raw)
  | .reset => .next s.applyReset

/-- The move when no turn is listed: the unit's while a command is pending, so that an accepted command is
completed in the end (spec/70_reset_and_hazards.md R281), else the host's (log 2). -/
def defaultTurn (s : State) : Host.Outcome State Fault Refusal :=
  if s.status.busy then unitStep s else hostTurn s

/-- The next move of the whole machine. -/
def advance (s : State) : Host.Outcome State Fault Refusal :=
  match s.turns with
  | [] => defaultTurn s
  | t :: rest => runTurn t { s with turns := rest }

end Sys2Proof.Machine
end

