-- ==== Sys2Proof/Machine/Step.lean ====
section
/-! DEFINITION. One step of the machine, and how the host of this model places a command to run next. -/

namespace Sys2Proof.Machine

/-- One event: a host access, a unit step, an answer of the entropy source, or a reset
(spec/20_memory.md R72). -/
def step : State → Host.Outcome State Fault Refusal := advance

/-- s with the command word w accepted and the unit to move next (log 6). The bits above nbits are 0. -/
def State.withFetchWord (s : State) (nbits w : Nat) : State :=
  s.placeCommand (BitVec.ofNat 32 (w % 2 ^ nbits))

end Sys2Proof.Machine
end

