-- ==== Sys2Proof/Machine/Asm.lean ====
section
/-! DEFINITION. The command assembler's notation: lines, registers, immediates, host-level addresses and
pseudo-instructions (spec/30_encoding.md R101 to R104, R106). -/

namespace Sys2Proof.Machine

/-! ## Pseudo-instructions -/

/-- The pseudo-instructions (spec/30_encoding.md R106). They have no opcode of their own. -/
inductive Pseudo where
  | fclr (fd : Reg)
  | fsqr (fd fa : Reg)
  | fdiv (fd fa fb ft : Reg)
  | fneg (fd fa fz : Reg)
  deriving DecidableEq, Repr

/-- The expansion into commands (spec/30_encoding.md R106). -/
def Pseudo.expand : Pseudo → List Instr
  | .fclr fd => [.fldi fd 0]
  | .fsqr fd fa => [.fmul fd fa fa]
  | .fdiv fd fa fb ft => [.finv ft fb, .fmul fd fa ft]
  | .fneg fd fa fz => [.fsub fd fz fa]

/-- The temporary of FDIV must differ from the dividend (spec/30_encoding.md R106, log 8). -/
def Pseudo.wellFormed : Pseudo → Bool
  | .fclr _ => true
  | .fsqr _ _ => true
  | .fdiv _ fa _ ft => decide (ft ≠ fa)
  | .fneg _ _ _ => true

/-! ## Characters -/

/-- A space or a tab. -/
def isBlank (c : Char) : Bool := c == ' ' || c == '\t'

/-- The text without the blanks at both ends. -/
def trim (cs : List Char) : List Char := ((cs.dropWhile isBlank).reverse.dropWhile isBlank).reverse

/-- The pieces of a text between separators, at least one. -/
def splitAt (sep : Char) : List Char → List (List Char)
  | [] => [[]]
  | c :: cs =>
    match splitAt sep cs with
    | [] => [[c]]
    | piece :: pieces => if c == sep then [] :: piece :: pieces else (c :: piece) :: pieces

/-- The value of a digit of the given base, at most 16. -/
def digitValue (base : Nat) (c : Char) : Option Nat :=
  let n := c.toNat
  let v := if 48 ≤ n ∧ n ≤ 57 then n - 48
    else if 65 ≤ n ∧ n ≤ 70 then n - 55
    else if 97 ≤ n ∧ n ≤ 102 then n - 87
    else 16
  if v < base then some v else none

/-- The number that digits spell, after the digits already read. -/
def numberFrom (base : Nat) (acc : Nat) : List Char → Option Nat
  | [] => some acc
  | c :: cs =>
    match digitValue base c with
    | some v => numberFrom base (acc * base + v) cs
    | none => none

/-- A decimal number, or a hexadecimal one with the prefix 0x (spec/30_encoding.md R102). -/
def parseNumber : List Char → Option Nat
  | [] => none
  | '0' :: 'x' :: [] => none
  | '0' :: 'x' :: cs => numberFrom 16 0 cs
  | cs => numberFrom 10 0 cs

/-- The decimal spelling of a number below 1000. -/
def decimal (n : Nat) : List Char :=
  if n < 10 then [Nat.digitChar n]
  else if n < 100 then [Nat.digitChar (n / 10), Nat.digitChar (n % 10)]
  else [Nat.digitChar (n / 100), Nat.digitChar (n / 10 % 10), Nat.digitChar (n % 10)]

/-! ## Operands -/

/-- A field register: f0 to f15, or F0 to F15, no other spelling (spec/30_encoding.md R103). -/
def parseReg : List Char → Option Reg
  | c :: ds =>
    if c == 'f' || c == 'F' then
      match numberFrom 10 0 ds with
      | some n => if n < 16 && ds == decimal n then some (BitVec.ofNat 4 n) else none
      | none => none
    else none
  | [] => none

/-- An immediate in 0..256 (spec/30_encoding.md R102). -/
def parseImm (cs : List Char) : Option FieldWord :=
  match parseNumber cs with
  | some n => if n ≤ 256 then some (BitVec.ofNat 9 n) else none
  | none => none

/-- The index of a name such as X[3]: the text between the bracket already read and its closing bracket, and
what follows. -/
def parseIndex (cs : List Char) : Option (Nat × List Char) :=
  match parseNumber (cs.takeWhile (· != ']')), cs.dropWhile (· != ']') with
  | some n, ']' :: rest => some (n, rest)
  | _, _ => none

/-- An array element or a field register by name: its letters, then one or two bracketed indices. -/
def parseElem (name : List Char) (i : Nat) (rest : List Char) : Option Loc :=
  match name, rest with
  | ['F'], [] => if i < 16 then some (.f (BitVec.ofNat 4 i)) else none
  | ['X'], [] => some (.elem (.x i))
  | ['S', 'L', 'E', 'N'], [] => some (.elem (.slen i))
  | ['W'], [] => some (.elem (.w i))
  | ['S', 'E', 'C', 'R', 'E', 'T'], [] => some (.elem (.secret i))
  | ['Y'], '[' :: cs =>
    match parseIndex cs with
    | some (p, []) => some (.elem (.y i p))
    | _ => none
  | _, _ => none

/-- The control registers by name (spec/20_memory.md R66). -/
def parseControl : List Char → Option Loc
  | ['M', 'O', 'D', 'U', 'L', 'U', 'S'] => some .modulus
  | ['S', 'M', 'A', 'X'] => some .smax
  | ['L', 'M', 'A', 'X'] => some .lmax
  | ['S', 'T', 'A', 'T', 'U', 'S'] => some .status
  | ['C', 'M', 'D'] => some .cmd
  | ['E', 'R', 'R', 'I', 'N', 'F', 'O'] => some .errinfo
  | ['N', 'R', 'E', 'G'] => some .nreg
  | ['K', 'R', 'E', 'G'] => some .kreg
  | ['L', 'E', 'N'] => some .len
  | ['S', 'C', 'N', 'T'] => some .scnt
  | _ => none

/-- A register name of R66 (spec/30_encoding.md R102). -/
def parseLoc (cs : List Char) : Option Loc :=
  match cs.dropWhile (· != '[') with
  | '[' :: inner =>
    match parseIndex inner with
    | some (i, rest) => parseElem (cs.takeWhile (· != '[')) i rest
    | none => none
  | _ => parseControl cs

/-- A host-level address, as an offset: the name of a register that the block has, or a hexadecimal offset
(spec/30_encoding.md R102). DESIGN CHOICE, log 14: the name of an element beyond the block's capacity, such as
X[20] at S_MAX = 20, is rejected here; its offset can still be written in hexadecimal, and the access is then
a bus error (spec/20_memory.md R67). -/
def parseAddress (cfg : Params) : List Char → Option Nat
  | '0' :: 'x' :: cs => parseNumber ('0' :: 'x' :: cs)
  | cs =>
    match parseLoc cs with
    | some l => if l.mapped cfg then some l.offset else none
    | none => none

/-! ## Lines -/

/-- Why the assembler rejects a line. -/
inductive AsmError where
  /-- No command or pseudo-instruction has this mnemonic. -/
  | unknownMnemonic
  /-- The operands are not those of the mnemonic (spec/30_encoding.md R101 to R104, R106). -/
  | badOperands
  deriving DecidableEq, Repr

/-- The commands of a pseudo-instruction that may be used so. -/
def expandChecked (p : Pseudo) : Except AsmError (List Instr) :=
  if p.wellFormed then .ok p.expand else .error .badOperands

/-- Operands rd, rs1, rs2 (spec/30_encoding.md R101). -/
def asmFR (mk : Reg → Reg → Reg → Instr) : List (List Char) → Except AsmError (List Instr)
  | [a, b, c] =>
    match parseReg a, parseReg b, parseReg c with
    | some x, some y, some z => .ok [mk x y z]
    | _, _, _ => .error .badOperands
  | _ => .error .badOperands

/-- Operands rd, rs1 (spec/30_encoding.md R101). -/
def asmFU (mk : Reg → Reg → List Instr) : List (List Char) → Except AsmError (List Instr)
  | [a, b] =>
    match parseReg a, parseReg b with
    | some x, some y => .ok (mk x y)
    | _, _ => .error .badOperands
  | _ => .error .badOperands

/-- Operands rd, imm (spec/30_encoding.md R101). -/
def asmFI : List (List Char) → Except AsmError (List Instr)
  | [a, b] =>
    match parseReg a, parseImm b with
    | some x, some v => .ok [.fldi x v]
    | _, _ => .error .badOperands
  | _ => .error .badOperands

/-- One register operand (spec/30_encoding.md R101, R106). -/
def asmFS (mk : Reg → List Instr) : List (List Char) → Except AsmError (List Instr)
  | [a] =>
    match parseReg a with
    | some x => .ok (mk x)
    | none => .error .badOperands
  | _ => .error .badOperands

/-- No operands (spec/30_encoding.md R101). -/
def asmFZ (i : Instr) : List (List Char) → Except AsmError (List Instr)
  | [] => .ok [i]
  | _ => .error .badOperands

/-- FDIV fd, fa, fb, ft (spec/30_encoding.md R106). -/
def asmDiv : List (List Char) → Except AsmError (List Instr)
  | [a, b, c, d] =>
    match parseReg a, parseReg b, parseReg c, parseReg d with
    | some x, some y, some z, some t => expandChecked (.fdiv x y z t)
    | _, _, _, _ => .error .badOperands
  | _ => .error .badOperands

/-- FNEG fd, fa, fz (spec/30_encoding.md R106). -/
def asmNeg : List (List Char) → Except AsmError (List Instr)
  | [a, b, c] =>
    match parseReg a, parseReg b, parseReg c with
    | some x, some y, some z => .ok (Pseudo.fneg x y z).expand
    | _, _, _ => .error .badOperands
  | _ => .error .badOperands

/-- A mnemonic in capitals with its operands (spec/30_encoding.md R101, R104, R106). -/
def asmCommand (mnemonic : List Char) (ops : List (List Char)) : Except AsmError (List Instr) :=
  match mnemonic with
  | ['F', 'A', 'D', 'D'] => asmFR .fadd ops
  | ['F', 'S', 'U', 'B'] => asmFR .fsub ops
  | ['F', 'M', 'U', 'L'] => asmFR .fmul ops
  | ['F', 'P', 'O', 'W'] => asmFR .fpow ops
  | ['F', 'I', 'N', 'V'] => asmFU (fun d a => [.finv d a]) ops
  | ['F', 'L', 'D', 'I'] => asmFI ops
  | ['C', 'G', 'E', 'N'] => asmFS (fun c => [.cgen c]) ops
  | ['P', 'E', 'V', 'A', 'L'] => asmFU (fun d a => [.peval d a]) ops
  | ['P', 'C', 'L', 'R'] => asmFZ .pclr ops
  | ['L', 'B', 'A', 'S', 'I', 'S'] => asmFZ .lbasis ops
  | ['S', 'P', 'L', 'I', 'T'] => asmFZ .split ops
  | ['R', 'E', 'C', 'O', 'N'] => asmFZ .recon ops
  | ['F', 'C', 'L', 'R'] => asmFS (fun d => (Pseudo.fclr d).expand) ops
  | ['F', 'S', 'Q', 'R'] => asmFU (fun d a => (Pseudo.fsqr d a).expand) ops
  | ['F', 'D', 'I', 'V'] => asmDiv ops
  | ['F', 'N', 'E', 'G'] => asmNeg ops
  | _ => .error .unknownMnemonic

/-- The operands of a line: none if nothing follows the mnemonic, else comma-separated
(spec/30_encoding.md R101). -/
def operandsOf (cs : List Char) : List (List Char) :=
  match trim cs with
  | [] => []
  | c :: rest => (splitAt ',' (c :: rest)).map trim

/-- One line: the comment after a semicolon is dropped, a blank line gives no command, mnemonics are
case-insensitive (spec/30_encoding.md R101). -/
def assembleLine (line : List Char) : Except AsmError (List Instr) :=
  match trim (line.takeWhile (· != ';')) with
  | [] => .ok []
  | c :: rest =>
    asmCommand (((c :: rest).takeWhile fun d => !isBlank d).map Char.toUpper)
      (operandsOf ((c :: rest).dropWhile fun d => !isBlank d))

/-! ## Printing -/

/-- f0 to f15 (spec/30_encoding.md R103). -/
def regText (r : Reg) : List Char := 'f' :: decimal r.toNat

/-- Two operands with their comma. -/
def operandPair (a b : List Char) : List Char := a ++ ',' :: ' ' :: b

/-- The canonical line of a command (spec/30_encoding.md R104). -/
def instrText : Instr → List Char
  | .fadd rd rs1 rs2 => ['F', 'A', 'D', 'D', ' '] ++ operandPair (regText rd) (operandPair (regText rs1) (regText rs2))
  | .fsub rd rs1 rs2 => ['F', 'S', 'U', 'B', ' '] ++ operandPair (regText rd) (operandPair (regText rs1) (regText rs2))
  | .fmul rd rs1 rs2 => ['F', 'M', 'U', 'L', ' '] ++ operandPair (regText rd) (operandPair (regText rs1) (regText rs2))
  | .fpow rd rs1 rs2 => ['F', 'P', 'O', 'W', ' '] ++ operandPair (regText rd) (operandPair (regText rs1) (regText rs2))
  | .finv rd rs1 => ['F', 'I', 'N', 'V', ' '] ++ operandPair (regText rd) (regText rs1)
  | .fldi rd imm => ['F', 'L', 'D', 'I', ' '] ++ operandPair (regText rd) (decimal imm.toNat)
  | .cgen rs1 => ['C', 'G', 'E', 'N', ' '] ++ regText rs1
  | .peval rd rs1 => ['P', 'E', 'V', 'A', 'L', ' '] ++ operandPair (regText rd) (regText rs1)
  | .pclr => ['P', 'C', 'L', 'R']
  | .lbasis => ['L', 'B', 'A', 'S', 'I', 'S']
  | .split => ['S', 'P', 'L', 'I', 'T']
  | .recon => ['R', 'E', 'C', 'O', 'N']

end Sys2Proof.Machine
end

