-- ==== Sys2Proof/Safety.lean ====
section
/-! DEFINITION. What every state of a run satisfies, and what a run without a fault is. -/

namespace Sys2Proof.Machine

/-- Every listed index is below n. -/
def Cells.below {w : Nat} (n : Nat) (c : Cells w) : Bool := c.all fun e => decide (e.1 < n)

/-- Every key of Y is that of a slot and a position the block has. -/
def Cells.inGrid (cfg : Params) (c : Cells 9) : Bool :=
  c.all fun e => decide (e.1 / 65536 < cfg.sMax) && decide (e.1 % 65536 < cfg.lMax)

/-- Only elements that the block has are written (spec/10_state.md R35 to R39). -/
def Memory.inRange (cfg : Params) (m : Memory) : Bool :=
  m.x.below cfg.sMax && m.slen.below cfg.sMax && m.w.below cfg.sMax && m.secret.below cfg.lMax
    && m.y.inGrid cfg

/-- STATUS and ERRINFO agree (spec/10_state.md R26, R27, R29, spec/60_exceptions.md R220): BUSY and DONE never
hold together, ERR says that CODE is not 0, no reserved code appears, without DONE there is no code, and
without a code ERRINFO is 0. -/
def State.statusOk (s : State) : Bool :=
  !(s.status.busy && s.status.done)
    && (s.status.err == decide (s.status.code ≠ 0))
    && decide (s.status.code.toNat ≤ 9)
    && (s.status.done || decide (s.status.code = 0))
    && (decide (s.status.code ≠ 0) || decide (s.errinfo = 0))

/-- The hidden store holds S_MAX field elements, zeros from KC on, and KC is 0 or in 2..S_MAX
(spec/10_state.md R40, spec/41_coefficient_poly.md R154, R158). -/
def State.polyOk (s : State) : Bool :=
  decide (s.coef.length = s.cfg.sMax)
    && s.coef.all canonical
    && decide (s.kc.toNat ≤ s.cfg.sMax)
    && (decide (s.kc = 0) || decide (2 ≤ s.kc.toNat))
    && (s.coef.drop s.kc.toNat).all fun c => decide (c = 0)

/-- Every written weight is a field element: only commands write W (spec/10_state.md R37). -/
def Memory.weightsOk (m : Memory) : Bool := m.w.all fun e => canonical e.2

/-- The invariant of the machine. -/
structure State.Inv (s : State) : Prop where
  wf : s.mem.wf = true
  inRange : s.mem.inRange s.cfg = true
  weights : s.mem.weightsOk = true
  status : s.statusOk = true
  poly : s.polyOk = true

/-- The step does not fault: the premise that every claim about a host program takes
(spec/60_exceptions.md R228). -/
def State.safe (s : State) : Prop := ∃ t, step s = .next t

/-- s runs to t in n steps, none of them a fault. -/
def State.runsTo (s : State) (n : Nat) (t : State) : Prop :=
  match n with
  | 0 => s = t
  | n + 1 => ∃ u, step s = .next u ∧ u.runsTo n t

end Sys2Proof.Machine
end

