-- ==== Sys2Proof/Certificates/Slice0/Obligations.lean ====
section
/-! DEFINITION. The statements about the model. Each docstring names the rule of spec/ it formalises. -/

open Sys2Proof Sys2Proof.Machine

namespace Sys2Proof.Claims

/-! ## Words used in the statements -/

/-- The word of R93: res = 0, then each field shifted to its place. -/
def wordOf (imm : FieldWord) (rs2 rs1 rd : Reg) (op : BitVec 6) : Word :=
  (imm.setWidth 32 <<< 18) ||| (rs2.setWidth 32 <<< 14) ||| (rs1.setWidth 32 <<< 10)
    ||| (rd.setWidth 32 <<< 6) ||| op.setWidth 32

/-- The numbers of the completion codes (R220). -/
def codeNumber : Code → BitVec 4
  | .ok => 0
  | .invalidParameters => 1
  | .divisionByZero => 2
  | .inconsistentShares => 3
  | .duplicateShareIndex => 4
  | .emptyShareSet => 5
  | .illegalCommand => 6
  | .operandRange => 7
  | .indexRange => 8
  | .capacity => 9

/-- STATUS after a completion with OK (R224). -/
def okStatus : Status := { busy := false, done := true, err := false, code := 0 }

/-- s after a raise of c with info: BUSY = 0, DONE = 1, ERR = 1, CODE the number of c, ERRINFO = info, and nothing
else changed (R13, R220, R223, R224). -/
def raisedState (s : State) (c : Code) (info : Word) : State :=
  { s with
    status := { busy := false, done := true, err := true, code := codeNumber c }
    errinfo := info }

/-- t after a completion with OK: BUSY = 0, DONE = 1, ERR = 0, CODE = 0, ERRINFO = 0, and nothing else changed
(R224). -/
def okState (t : State) : State := { t with status := okStatus, errinfo := 0 }

/-- The pending command completes with code c and info, and nothing else changes (R13, R224). -/
def raises (i : Instr) (s : State) (c : Code) (info : Word) : Prop :=
  exec i s = .next (raisedState s c info)

/-- The pending command completes with OK, having turned s into t (R224). -/
def completes (i : Instr) (s t : State) : Prop := exec i s = .next (okState t)

/-- A word with this opcode that is no command completes with ILLEGAL_COMMAND and ERRINFO = 0, and nothing else
changes (R98). -/
def illegalCompletes (op : BitVec 6) : Prop :=
  ∀ s : State, s.status.busy = true → opField s.cmdreg = op → (∀ i, decode s.cmdreg ≠ .ok i) →
    unitTurn s = .next (raisedState s .illegalCommand 0)

/-- The access is a bus error (20_memory.md R63), not the model fault of an unwritten element: 60_exceptions.md
R228 keeps the two apart. Which bus fault it is named is left open (log 9). -/
def busError (o : Host.Outcome State Fault Refusal) : Prop :=
  ∃ r, o = .fault r ∧ ∀ e, r ≠ .unwritten e

/-- A command with two operand registers that writes f of them to F[rd]: its encoding, its result, and its two
errors in order. -/
def binaryRule (op : BitVec 6) (mk : Reg → Reg → Reg → Instr) (f : Nat → Nat → Nat) : Prop :=
  (∀ rd rs1 rs2, decode (wordOf 0 rs2 rs1 rd op) = .ok (mk rd rs1 rs2))
    ∧ illegalCompletes op
    ∧ ∀ (s : State) (rd rs1 rs2 : Reg),
      ((s.readF rs1).toNat ≤ 256 → (s.readF rs2).toNat ≤ 256 →
        completes (mk rd rs1 rs2) s
          (s.writeF rd (BitVec.ofNat 9 (f (s.readF rs1).toNat (s.readF rs2).toNat))))
      ∧ (256 < (s.readF rs1).toNat → raises (mk rd rs1 rs2) s .operandRange (rs1.setWidth 32))
      ∧ ((s.readF rs1).toNat ≤ 256 → 256 < (s.readF rs2).toNat →
        raises (mk rd rs1 rs2) s .operandRange (rs2.setWidth 32))

/-- Slots 0..m-1 hold the share indices x. -/
def holdsX (s : State) (m : Nat) (x : Nat → FieldWord) : Prop :=
  ∀ i < m, s.mem.x.read i = some (x i)

/-- Slots 0..m-1 all hold the length l. -/
def holdsLength (s : State) (m : Nat) (l : BitVec 16) : Prop :=
  ∀ i < m, s.mem.slen.read i = some l

/-- Slots 0..m-1 hold the share values y at positions 0..l-1. -/
def holdsY (s : State) (m l : Nat) (y : Nat → Nat → FieldWord) : Prop :=
  ∀ i < m, ∀ p < l, s.mem.y.read (yKey i p) = some (y i p)

/-- An index in 1..256 (R187). -/
def inRange (x : FieldWord) : Prop := 1 ≤ x.toNat ∧ x.toNat ≤ 256

/-- The first m indices are in range and pairwise distinct. -/
def goodIndices (m : Nat) (x : Nat → FieldWord) : Prop :=
  (∀ i < m, inRange (x i)) ∧ ∀ i < m, ∀ j < m, x i = x j → i = j

/-- (i, j) is the first pair of equal indices in the order of R187's loops. -/
def firstEqualPair (m : Nat) (x : Nat → FieldWord) (i j : Nat) : Prop :=
  i < j ∧ j < m ∧ x i = x j
    ∧ ∀ i' j', i' < j' → j' < m → x i' = x j' → i < i' ∨ (i = i' ∧ j ≤ j')

/-- The weight of point i at 0: the product over j ≠ i of (0 - x_j) * (x_i - x_j)^255, mod 257 (R188). -/
def basisValue (m : Nat) (x : Nat → FieldWord) (i : Nat) : Nat :=
  (∏ j ∈ (Finset.range m).erase i,
    (257 - (x j).toNat) * (((x i).toNat + 257 - (x j).toNat) % 257) ^ 255) % 257

/-- The value of the polynomial with coefficients c at x: the sum of c_i * x^i, mod 257 (R155). -/
def polyValue (c : Nat → Nat) (k x : Nat) : Nat := (∑ i ∈ Finset.range k, c i * x ^ i) % 257

/-- The elements that a SPLIT into n shares of length l writes (R172). -/
def splitWrites (n l : Nat) : Elem → Prop
  | .x s => s < n
  | .slen s => s < n
  | .w _ => False
  | .secret _ => False
  | .y s p => s < n ∧ p < l

/-- The elements that a RECON of m shares of length l writes (R204). -/
def reconWrites (m l : Nat) : Elem → Prop
  | .x _ => False
  | .slen _ => False
  | .w i => i < m
  | .secret p => p < l
  | .y _ _ => False

/-- Everything that no command writes: the host's control registers but LEN, CMDREG, the constants, and what
the other agents will do. -/
def sameSurround (s t : State) : Prop :=
  t.cmdreg = s.cmdreg ∧ t.nreg = s.nreg ∧ t.kreg = s.kreg ∧ t.scnt = s.scnt ∧ t.cfg = s.cfg
    ∧ t.turns = s.turns ∧ t.program = s.program ∧ t.response = s.response

/-- STATUS is that of a completion: BUSY = 0, DONE = 1, ERR exactly when CODE is not 0, and ERRINFO is 0 after
OK (R27, R224). -/
def completionFields (t : State) : Prop :=
  t.status.busy = false ∧ t.status.done = true ∧ (t.status.err = true ↔ t.status.code ≠ 0)
    ∧ (t.status.code = 0 → t.errinfo = 0)

/-- The field commands of 40_field_arith.md. -/
def fieldCommand : Instr → Prop
  | .fadd _ _ _ | .fsub _ _ _ | .fmul _ _ _ | .fpow _ _ _ | .finv _ _ | .fldi _ _ => True
  | .cgen _ | .peval _ _ | .pclr | .lbasis | .split | .recon => False

/-- The destination register of a command, if it has one (R92). -/
def dest : Instr → Option Reg
  | .fadd rd _ _ => some rd
  | .fsub rd _ _ => some rd
  | .fmul rd _ _ => some rd
  | .fpow rd _ _ => some rd
  | .finv rd _ => some rd
  | .fldi rd _ => some rd
  | .peval rd _ => some rd
  | .cgen _ | .pclr | .lbasis | .split | .recon => none

/-- The register operands a command reads (R92, R128). -/
def sources : Instr → List Reg
  | .fadd _ a b => [a, b]
  | .fsub _ a b => [a, b]
  | .fmul _ a b => [a, b]
  | .fpow _ a b => [a, b]
  | .finv _ a => [a]
  | .fldi _ _ => []
  | .cgen a => [a]
  | .peval _ a => [a]
  | .pclr | .lbasis | .split | .recon => []

/-- A field that the format of the word's opcode does not use is not 0 (R92). -/
def unusedFieldSet (w : Word) : Prop :=
  (opField w ∈ [0x01, 0x02, 0x03, 0x04] ∧ immField w ≠ 0)
    ∨ (opField w ∈ [0x05, 0x11] ∧ (rs2Field w ≠ 0 ∨ immField w ≠ 0))
    ∨ (opField w = 0x06 ∧ (rs1Field w ≠ 0 ∨ rs2Field w ≠ 0))
    ∨ (opField w = 0x10 ∧ (rdField w ≠ 0 ∨ rs2Field w ≠ 0 ∨ immField w ≠ 0))
    ∨ (opField w ∈ [0x12, 0x18, 0x20, 0x21]
        ∧ (rdField w ≠ 0 ∨ rs1Field w ≠ 0 ∨ rs2Field w ≠ 0 ∨ immField w ≠ 0))

/-- Binary exponentiation as R124's reference form writes it, for an exponent below 2^n. -/
def binaryPower : Nat → Nat → Nat → Nat → Nat
  | 0, r, _, _ => r
  | n + 1, r, b, e => binaryPower n (if e % 2 = 1 then r * b % 257 else r) (b * b % 257) (e / 2)

/-- Horner's form of R155, for the coefficients from the constant term on. -/
def horner (x : Nat) : List FieldWord → Nat
  | [] => 0
  | c :: cs => (horner x cs * x + c.toNat) % 257

/-- The block's part of the state is the same; the response and the other agents' moves may differ. -/
def sameBlock (s t : State) : Prop :=
  t.f = s.f ∧ t.status = s.status ∧ t.cmdreg = s.cmdreg ∧ t.errinfo = s.errinfo ∧ t.nreg = s.nreg
    ∧ t.kreg = s.kreg ∧ t.len = s.len ∧ t.scnt = s.scnt ∧ t.mem = s.mem ∧ t.coef = s.coef ∧ t.kc = s.kc
    ∧ t.cfg = s.cfg

/-- A host read of the word at an offset from BLOCK_BASE answers v and changes only the response. -/
def answersAt (s : State) (off : Nat) (v : Word) : Prop :=
  hostRead s (s.cfg.base + BitVec.ofNat 32 off) .word = .next { s with response := .readData v }

/-- A host write of v at an offset from BLOCK_BASE turns s into t with the response recorded, and a read at the
offset then answers kept. -/
def storesAt (s : State) (off : Nat) (v : Word) (t : State) (kept : Word) : Prop :=
  hostWrite s (s.cfg.base + BitVec.ofNat 32 off) .word 0xF v = .next { t with response := .writeDone }
    ∧ answersAt { t with response := .writeDone } off kept

/-- What an array element keeps of the word v written to it, zero-extended: the low bits of its width (R34 to
R39). W is read-only. -/
def keptBits (e : Elem) (v : Word) : Word :=
  match e with
  | .x _ => (v.extractLsb' 0 9).setWidth 32
  | .slen _ => (v.extractLsb' 0 16).setWidth 32
  | .w _ => 0
  | .secret _ => (v.extractLsb' 0 8).setWidth 32
  | .y _ _ => (v.extractLsb' 0 9).setWidth 32

/-- The command samples, and the entropy source has answered fewer acceptable raw words than its draws, k - 1 of
CGEN and L * (k - 1) of SPLIT (41_coefficient_poly.md R152, R153). -/
def lacksDraws (s : State) : Instr → Prop
  | .cgen _ => (s.entropy.filter canonical).length < s.kreg.toNat - 1
  | .split => (s.entropy.filter canonical).length < s.len.toNat * (s.kreg.toNat - 1)
  | .fadd _ _ _ | .fsub _ _ _ | .fmul _ _ _ | .fpow _ _ _ | .finv _ _ | .fldi _ _ => False
  | .peval _ _ | .pclr | .lbasis | .recon => False

/-- s with another hidden store. -/
def withHidden (s : State) (c : List FieldWord) (k : FieldWord) : State := { s with coef := c, kc := k }

/-- The secret bytes b and the draws ds that a SPLIT from s uses: every check of R171 passes, every byte is
written, and the entropy source has answered enough acceptable words. -/
def splitReady (s : State) (b : Nat → Byte) (ds left : List FieldWord) : Prop :=
  s.len ≠ 0 ∧ 2 ≤ s.kreg.toNat ∧ s.kreg.toNat ≤ s.nreg.toNat ∧ s.nreg.toNat ≤ s.cfg.sMax
    ∧ s.len.toNat ≤ s.cfg.lMax ∧ (∀ p < s.len.toNat, s.mem.secret.read p = some (b p))
    ∧ takeDraws (s.len.toNat * (s.kreg.toNat - 1)) s.entropy = some (ds, left)

/-- The coefficients of the polynomial of byte position p: the byte, then the k - 1 draws of that position, which
start at draw p * (k - 1) (R152, R170). -/
def lanePoly (k : Nat) (b : Nat → Byte) (ds : List FieldWord) (p i : Nat) : Nat :=
  if i = 0 then (b p).toNat else (ds.getD (p * (k - 1) + (i - 1)) 0).toNat

end Sys2Proof.Claims

open Sys2Proof.Claims

/-! ## Encoding -/

/-- 30_encoding.md R97 with R92, R93: no bit of an encoding is dropped. -/
def Obligations.DecodeOfEncode : Prop :=
  ∀ i : Instr, i.wellFormed = true → decode (encode i) = .ok i

/-- 30_encoding.md R97: a word that decodes is the encoding of what it decodes to, so no two words are one
command. -/
def Obligations.EncodeOfDecode : Prop :=
  ∀ (w : Word) (i : Instr), decode w = .ok i → i.wellFormed = true ∧ encode i = w

/-- 30_encoding.md R93: the word of every command is the formula applied to the fields its format uses. -/
def Obligations.WordIsAssembledFromFields : Prop :=
  (∀ rd rs1 rs2, encode (.fadd rd rs1 rs2) = wordOf 0 rs2 rs1 rd 0x01)
    ∧ (∀ rd rs1 rs2, encode (.fsub rd rs1 rs2) = wordOf 0 rs2 rs1 rd 0x02)
    ∧ (∀ rd rs1 rs2, encode (.fmul rd rs1 rs2) = wordOf 0 rs2 rs1 rd 0x03)
    ∧ (∀ rd rs1 rs2, encode (.fpow rd rs1 rs2) = wordOf 0 rs2 rs1 rd 0x04)
    ∧ (∀ rd rs1, encode (.finv rd rs1) = wordOf 0 0 rs1 rd 0x05)
    ∧ (∀ rd imm, encode (.fldi rd imm) = wordOf imm 0 0 rd 0x06)
    ∧ (∀ rs1, encode (.cgen rs1) = wordOf 0 0 rs1 0 0x10)
    ∧ (∀ rd rs1, encode (.peval rd rs1) = wordOf 0 0 rs1 rd 0x11)
    ∧ encode .pclr = wordOf 0 0 0 0 0x12
    ∧ encode .lbasis = wordOf 0 0 0 0 0x18
    ∧ encode .split = wordOf 0 0 0 0 0x20
    ∧ encode .recon = wordOf 0 0 0 0 0x21
    ∧ encode (.fmul 3 1 2) = 0x000084C3

/-- 30_encoding.md R104, 95_test_vectors.md V-DEC, V-LDI: words of the spec decode as the spec says. -/
def Obligations.SpecWordsDecode : Prop :=
  decode 0x00015A01 = .ok (.fadd 8 6 5) ∧ decode 0x00015182 = .ok (.fsub 6 4 5)
    ∧ decode 0x000084C3 = .ok (.fmul 3 1 2) ∧ decode 0x000151C4 = .ok (.fpow 7 4 5)
    ∧ decode 0x00000485 = .ok (.finv 2 1) ∧ decode 0x000C0046 = .ok (.fldi 1 3)
    ∧ decode 0x04000006 = .ok (.fldi 0 256) ∧ decode 0x00000410 = .ok (.cgen 1)
    ∧ decode 0x00000C91 = .ok (.peval 2 3) ∧ decode 0x00000012 = .ok .pclr
    ∧ decode 0x00000018 = .ok .lbasis ∧ decode 0x00000020 = .ok .split ∧ decode 0x00000021 = .ok .recon

/-- 30_encoding.md R98: the four kinds of illegal word, and only they; they complete with ILLEGAL_COMMAND and
ERRINFO = 0 in the unit step and change no other state; acceptance does not check the word. -/
def Obligations.IllegalWordCompletes : Prop :=
  (∀ w : Word, (∀ i, decode w ≠ .ok i) ↔
    (opField w ∉ [0x01, 0x02, 0x03, 0x04, 0x05, 0x06, 0x10, 0x11, 0x12, 0x18, 0x20, 0x21]
      ∨ resField w ≠ 0 ∨ unusedFieldSet w ∨ (opField w = 0x06 ∧ 256 < (immField w).toNat)))
    ∧ (∀ op, illegalCompletes op)
    ∧ (∀ i, decode 0 ≠ .ok i)
    ∧ ∀ (s : State) (v : Word), s.status.busy = false →
      hostWrite s (Loc.cmd.address s.cfg) .word 0xF v = .next { s.accept v with response := .writeDone }

/-- 30_encoding.md R101 to R104: the canonical line of every well-formed command assembles to that command. -/
def Obligations.AssemblerReadsItsOwnLines : Prop :=
  ∀ i : Instr, i.wellFormed = true → assembleLine (instrText i) = .ok [i]

/-- 30_encoding.md R106: the expansions, and what each of them computes. -/
def Obligations.PseudoInstructionsExpand : Prop :=
  (∀ fd, (Pseudo.fclr fd).expand = [.fldi fd 0])
    ∧ (∀ fd fa, (Pseudo.fsqr fd fa).expand = [.fmul fd fa fa])
    ∧ (∀ fd fa fb ft, (Pseudo.fdiv fd fa fb ft).expand = [.finv ft fb, .fmul fd fa ft])
    ∧ (∀ fd fa fz, (Pseudo.fneg fd fa fz).expand = [.fsub fd fz fa])
    ∧ (∀ (s : State) (fd : Reg),
        ∃ t, exec (.fldi fd 0) s = .next t ∧ t.status.code = 0 ∧ t.readF fd = 0)
    ∧ (∀ (s : State) (fd fa : Reg), (s.readF fa).toNat ≤ 256 →
        ∃ t, exec (.fmul fd fa fa) s = .next t ∧ t.status.code = 0
          ∧ (t.readF fd).toNat = (s.readF fa).toNat * (s.readF fa).toNat % 257)
    ∧ (∀ (s : State) (fd fa fb ft : Reg), ft ≠ fa → (s.readF fa).toNat ≤ 256 →
        inRange (s.readF fb) →
        ∃ t u, exec (.finv ft fb) s = .next t ∧ exec (.fmul fd fa ft) t = .next u
          ∧ t.status.code = 0 ∧ u.status.code = 0
          ∧ (t.readF ft).toNat * (s.readF fb).toNat % 257 = 1
          ∧ (u.readF fd).toNat * (s.readF fb).toNat % 257 = (s.readF fa).toNat % 257)
    ∧ (∀ (s : State) (ft fb : Reg), s.readF fb = 0 →
        raises (.finv ft fb) s .divisionByZero (fb.setWidth 32))
    ∧ ∀ (s : State) (fd fa fz : Reg), s.readF fz = 0 → (s.readF fa).toNat ≤ 256 →
        ∃ t, exec (.fsub fd fz fa) s = .next t ∧ t.status.code = 0
          ∧ ((t.readF fd).toNat + (s.readF fa).toNat) % 257 = 0

/-! ## Steps, reset and the life of a command -/

/-- 10_state.md R24: a unit turn, and the default turn, with BUSY = 1 is exec of the decoded command. The step
only takes the turn off the list. -/
def Obligations.StepRunsDecodedCommand : Prop :=
  ∀ (s : State) (i : Instr), s.status.busy = true → decode s.cmdreg = .ok i →
    (s.turns = [] ∨ ∃ rest, s.turns = .unit :: rest) →
    step s = exec i { s with turns := s.turns.tail }

/-- 00_scope.md R8, 20_memory.md R72, 41_coefficient_poly.md R150, 30_encoding.md R105: what the turns of the host
and of the entropy source do. A host turn, and the default turn while BUSY = 0, performs the host's next
operation, which is then behind it (a POLL only once BUSY = 0); with no operation left it changes nothing. An
entropy turn puts its raw word at the end of the queue. A unit turn while BUSY = 0 does nothing (10_state.md R24).
The lists of turns and operations and the queue are the model's choice (logs 2, 3). -/
def Obligations.TurnsOfTheOtherAgents : Prop :=
  (∀ s : State, let u := { s with turns := s.turns.tail }
    ((∃ rest, s.turns = .host :: rest) ∨ (s.turns = [] ∧ s.status.busy = false)) →
      (∀ a w rest, s.program = .read a w :: rest → step s = hostRead { u with program := rest } a w)
        ∧ (∀ a w en v rest, s.program = .write a w en v :: rest →
          step s = hostWrite { u with program := rest } a w en v)
        ∧ (∀ rest, s.program = .poll :: rest → step s = .next { u with
          program := if s.status.busy then s.program else rest
          response := .readData s.status.toWord })
        ∧ (s.program = [] → step s = .next u))
    ∧ (∀ (s : State) (raw : FieldWord) (rest : List Turn), s.turns = .entropy raw :: rest →
      step s = .next { s with turns := rest, entropy := s.entropy ++ [raw] })
    ∧ ∀ (s : State) (rest : List Turn), s.turns = .unit :: rest → s.status.busy = false →
      step s = .next { s with turns := rest }

/-- 10_state.md R43: the reset table, at power-on of a block with any legal parameters, State.reset
being one (log 1). -/
def Obligations.ResetTable : Prop :=
  (∀ p : Params, let s := State.powerOn p
    (∀ r, s.readF r = 0)
      ∧ s.status.busy = false ∧ s.status.done = false ∧ s.status.err = false ∧ s.status.code = 0
      ∧ s.cmdreg = 0 ∧ s.errinfo = 0 ∧ s.nreg = 0 ∧ s.kreg = 0 ∧ s.len = 0 ∧ s.scnt = 0
      ∧ readLoc s .modulus = .ok 257
      ∧ readLoc s .smax = .ok (BitVec.ofNat 32 p.sMax) ∧ readLoc s .lmax = .ok (BitVec.ofNat 32 p.lMax)
      ∧ s.coef = List.replicate p.sMax 0 ∧ s.kc = 0
      ∧ ∀ e, s.mem.read e = none)
    ∧ State.reset = State.powerOn Config.params

/-- 70_reset_and_hazards.md R260: RST, applied in any state, sets every piece of the block's state to its reset
value and clears every written mark, and changes nothing else. The last line's fields are the model's own; that
RST keeps them is the model's choice (logs 2, 3, 4). -/
def Obligations.ResetTurnResetsEverything : Prop :=
  ∀ (s : State) (rest : List Turn), s.turns = .reset :: rest →
    ∃ t, step s = .next t ∧ sameBlock (State.powerOn s.cfg) t ∧ (∀ e, t.mem.read e = none)
      ∧ t.turns = rest ∧ t.program = s.program ∧ t.entropy = s.entropy ∧ t.response = s.response

/-- 10_state.md R28, at the offset of 20_memory.md R66: a write to CMD while BUSY = 0 accepts the word, whatever it
is; while BUSY = 1 it is a bus error; a read of CMD answers the last accepted word, 0 after reset. -/
def Obligations.CmdWriteAccepts : Prop :=
  (∀ (s : State) (v : Word), s.status.busy = false →
    ∃ t, hostWrite s (s.cfg.base + 0x10) .word 0xF v = .next t
      ∧ t.cmdreg = v ∧ t.errinfo = 0
      ∧ t.status = { busy := true, done := false, err := false, code := 0 }
      ∧ t = { s with cmdreg := t.cmdreg, errinfo := t.errinfo, status := t.status, response := .writeDone })
    ∧ (∀ (s : State) (v : Word), s.status.busy = true →
      busError (hostWrite s (s.cfg.base + 0x10) .word 0xF v))
    ∧ (∀ s : State, s.status.busy = false →
      hostRead s (s.cfg.base + 0x10) .word = .next { s with response := .readData s.cmdreg })
    ∧ ∀ p, (State.powerOn p).cmdreg = 0

/-- 10_state.md R27: STATUS changes by reset, by acceptance and by completion, to the values R27 gives, and in
no other way; a host write to STATUS is a bus error. -/
def Obligations.StatusTransitions : Prop :=
  (∀ s t : State, step s = .next t → t.status ≠ s.status →
    ((∃ rest, s.turns = .reset :: rest)
        ∧ t.status = { busy := false, done := false, err := false, code := 0 })
      ∨ (s.status.busy = false
        ∧ (∃ v rest, s.program = .write (Loc.cmd.address s.cfg) .word 0xF v :: rest ∧ t.cmdreg = v)
        ∧ t.status = { busy := true, done := false, err := false, code := 0 })
      ∨ (s.status.busy = true ∧ ∃ c : Code,
        t.status = { busy := false, done := true, err := decide (codeNumber c ≠ 0), code := codeNumber c }))
    ∧ ∀ (s : State) (en : BitVec 4) (w : AccessWidth) (v : Word),
      busError (hostWrite s (Loc.status.address s.cfg) w en v)

/-- 10_state.md R26: the layout of STATUS on the bus. -/
def Obligations.StatusWordLayout : Prop :=
  ∀ st : Status, st.toWord.getLsbD 0 = st.busy ∧ st.toWord.getLsbD 1 = st.done
    ∧ st.toWord.getLsbD 2 = st.err ∧ st.toWord.extractLsb' 8 4 = st.code
    ∧ ∀ i, 3 ≤ i ∧ i < 8 ∨ 12 ≤ i → st.toWord.getLsbD i = false

/-- 60_exceptions.md R237: an idle block holds all its state until a host write or a reset. -/
def Obligations.IdleBlockHolds : Prop :=
  ∀ s t : State, s.status.busy = false → step s = .next t →
    (∀ rest, s.turns ≠ .reset :: rest) →
    (∀ a w en v rest, s.program ≠ .write a w en v :: rest) → sameBlock s t

/-- 70_reset_and_hazards.md R281: with no other move listed, a pending command completes in the next step,
unless it samples and the entropy source has answered fewer acceptable words than its draws, or it reads an
element that nothing has written. The default turn and the queue of raw words are the model's choice (logs 2, 3);
so is that a waiting command's step changes nothing (log 11). -/
def Obligations.PendingCommandCompletes : Prop :=
  ∀ s : State, s.status.busy = true → s.turns = [] →
    (∃ t, step s = .next t ∧ completionFields t)
      ∨ (step s = .next s ∧ ∃ i, decode s.cmdreg = .ok i ∧ lacksDraws s i)
      ∨ (∃ e, step s = .fault (.unwritten e) ∧ s.mem.read e = none)

/-! ## The host bus -/

/-- 20_memory.md R66, R65: the address map in the numbers of R66, and its inverse, on every block. -/
def Obligations.AddressMapRoundTrip : Prop :=
  (∀ (cfg : Params) (l : Loc), l.mapped cfg = true → locate cfg l.offset = some l)
    ∧ (∀ (cfg : Params) (off : Nat) (l : Loc), off % 4 = 0 → locate cfg off = some l →
      l.mapped cfg = true ∧ l.offset = off)
    ∧ (∀ (cfg : Params) (l : Loc), l.mapped cfg = true →
      l.offset % 4 = 0 ∧ l.offset < 0x05000000 ∧ offsetOf cfg (l.address cfg) = l.offset)
    ∧ ∀ (cfg : Params) (l : Loc), l.address cfg = cfg.base + BitVec.ofNat 32 (match l with
      | .modulus => 0x00
      | .smax => 0x04
      | .lmax => 0x08
      | .status => 0x0C
      | .cmd => 0x10
      | .errinfo => 0x14
      | .nreg => 0x18
      | .kreg => 0x1C
      | .len => 0x20
      | .scnt => 0x24
      | .f r => 0x40 + 4 * r.toNat
      | .elem (.x s) => 0x1000 + 4 * s
      | .elem (.slen s) => 0x1400 + 4 * s
      | .elem (.w s) => 0x1800 + 4 * s
      | .elem (.secret p) => 0x00010000 + 4 * p
      | .elem (.y s p) => 0x01000000 + 0x00040000 * s + 4 * p)

/-- 20_memory.md R62, R64, R67, R68: an access that is not a whole word, is misaligned, reaches an unmapped
offset, or writes a read-only one, is a bus error. That an address below BLOCK_BASE is unmapped is an inference
of the model (log 7). -/
def Obligations.BusErrors : Prop :=
  (∀ (s : State) (a : Word) (w : AccessWidth), w ≠ .word → busError (hostRead s a w))
    ∧ (∀ (s : State) (a v : Word) (w : AccessWidth) (en : BitVec 4), w ≠ .word ∨ en ≠ 0xF →
      busError (hostWrite s a w en v))
    ∧ (∀ (s : State) (a v : Word) (w : AccessWidth) (en : BitVec 4), a.extractLsb' 0 2 ≠ 0 →
      busError (hostRead s a w) ∧ busError (hostWrite s a w en v))
    ∧ (∀ (s : State) (a v : Word) (w : AccessWidth) (en : BitVec 4),
      (∀ l : Loc, l.mapped s.cfg = true → a ≠ s.cfg.base + BitVec.ofNat 32 l.offset) →
      busError (hostRead s a w) ∧ busError (hostWrite s a w en v))
    ∧ ∀ (s : State) (l : Loc) (v : Word) (w : AccessWidth) (en : BitVec 4),
      (l ∈ [.modulus, .smax, .lmax, .status, .errinfo] ∨ ∃ i < s.cfg.sMax, l = .elem (.w i)) →
      busError (hostWrite s (s.cfg.base + BitVec.ofNat 32 l.offset) w en v)

/-- 20_memory.md R71: while BUSY = 1 only reads of MODULUS, SMAX, LMAX and STATUS are allowed; every other
access is a bus error. -/
def Obligations.BusyAccesses : Prop :=
  ∀ s : State, s.status.busy = true →
    hostRead s (s.cfg.base + 0x0) .word = .next { s with response := .readData 257 }
      ∧ hostRead s (s.cfg.base + 0x4) .word
        = .next { s with response := .readData (BitVec.ofNat 32 s.cfg.sMax) }
      ∧ hostRead s (s.cfg.base + 0x8) .word
        = .next { s with response := .readData (BitVec.ofNat 32 s.cfg.lMax) }
      ∧ hostRead s (s.cfg.base + 0xC) .word = .next { s with response := .readData s.status.toWord }
      ∧ (∀ (a : Word) (w : AccessWidth), (∀ d ∈ [0x0, 0x4, 0x8, 0xC], a ≠ s.cfg.base + d) →
        busError (hostRead s a w))
      ∧ ∀ (a v : Word) (w : AccessWidth) (en : BitVec 4), busError (hostWrite s a w en v)

/-- 20_memory.md R78, and 10_state.md R25, R26, R28 to R33 at the offsets of 20_memory.md R66: what a host read of
an element or a register answers while BUSY = 0, by its address. -/
def Obligations.HostReadValues : Prop :=
  ∀ s : State, s.status.busy = false →
    (∀ i < s.cfg.sMax, ∀ v, s.mem.x.read i = some v → answersAt s (0x1000 + 4 * i) (v.setWidth 32))
      ∧ (∀ i < s.cfg.sMax, ∀ v, s.mem.slen.read i = some v → answersAt s (0x1400 + 4 * i) (v.setWidth 32))
      ∧ (∀ i < s.cfg.sMax, ∀ v, s.mem.w.read i = some v → answersAt s (0x1800 + 4 * i) (v.setWidth 32))
      ∧ (∀ p < s.cfg.lMax, ∀ v, s.mem.secret.read p = some v →
        answersAt s (0x00010000 + 4 * p) (v.setWidth 32))
      ∧ (∀ i < s.cfg.sMax, ∀ p < s.cfg.lMax, ∀ v, s.mem.y.read (yKey i p) = some v →
        answersAt s (0x01000000 + 0x00040000 * i + 4 * p) (v.setWidth 32))
      ∧ (∀ r : Reg, answersAt s (0x0040 + 4 * r.toNat) ((s.readF r).setWidth 32))
      ∧ answersAt s 0x0C s.status.toWord
      ∧ answersAt s 0x10 s.cmdreg
      ∧ answersAt s 0x14 s.errinfo
      ∧ answersAt s 0x18 (s.nreg.setWidth 32)
      ∧ answersAt s 0x1C (s.kreg.setWidth 32)
      ∧ answersAt s 0x20 (s.len.setWidth 32)
      ∧ answersAt s 0x24 (s.scnt.setWidth 32)

/-- 10_state.md R34: a host write to a writable place of width w stores bits [w-1:0] of the word there and
nothing else changes, and a host read then answers them zero-extended. -/
def Obligations.HostWriteKeepsLowBits : Prop :=
  (∀ s : State, s.status.busy = false → ∀ v : Word,
    storesAt s 0x18 v { s with nreg := v.extractLsb' 0 9 } ((v.extractLsb' 0 9).setWidth 32)
      ∧ storesAt s 0x1C v { s with kreg := v.extractLsb' 0 9 } ((v.extractLsb' 0 9).setWidth 32)
      ∧ storesAt s 0x20 v { s with len := v.extractLsb' 0 16 } ((v.extractLsb' 0 16).setWidth 32)
      ∧ storesAt s 0x24 v { s with scnt := v.extractLsb' 0 9 } ((v.extractLsb' 0 9).setWidth 32)
      ∧ (∀ r : Reg, storesAt s (0x40 + 4 * r.toNat) v (s.writeF r (v.extractLsb' 0 9))
        ((v.extractLsb' 0 9).setWidth 32))
      ∧ ∀ e : Elem, e.mapped s.cfg = true → (∀ i, e ≠ .w i) →
        ∃ m, storesAt s (Loc.elem e).offset v { s with mem := m } (keptBits e v)
          ∧ (∀ e', e'.mapped s.cfg = true → e' ≠ e → m.read e' = s.mem.read e')
          ∧ m.read e = some (keptBits e v))
    ∧ ((0x1FF : Word).extractLsb' 0 9).toNat = 511 ∧ ((0x201 : Word).extractLsb' 0 9).toNat = 1

/-- 20_memory.md R69: a read changes nothing but the response, and the same read again answers the same. -/
def Obligations.HostReadHasNoSideEffect : Prop :=
  ∀ (s t : State) (a : Word) (w : AccessWidth), hostRead s a w = .next t →
    t = { s with response := t.response } ∧ hostRead t a w = .next t

/-- 10_state.md R31: MODULUS, SMAX and LMAX always read the constants; a write to them is a bus error and no
step, a reset included, changes them. -/
def Obligations.ConstantRegisters : Prop :=
  (∀ s : State, hostRead s (Loc.modulus.address s.cfg) .word = .next { s with response := .readData 257 }
    ∧ hostRead s (Loc.smax.address s.cfg) .word
      = .next { s with response := .readData (BitVec.ofNat 32 s.cfg.sMax) }
    ∧ hostRead s (Loc.lmax.address s.cfg) .word
      = .next { s with response := .readData (BitVec.ofNat 32 s.cfg.lMax) })
    ∧ (∀ (s : State) (l : Loc) (v : Word), l ∈ [.modulus, .smax, .lmax] →
      busError (hostWrite s (l.address s.cfg) .word 0xF v))
    ∧ ∀ s t : State, step s = .next t → t.cfg = s.cfg

/-- 10_state.md R41, 60_exceptions.md R228: a host read of an element whose mark is clear is a model fault, and
a command that faults is one that reads arrays and names an element whose mark is clear. Which element that is,
SplitRule, LbasisRule and ReconRule say. -/
def Obligations.UnwrittenReadFaults : Prop :=
  (∀ (s : State) (e : Elem), s.status.busy = false → e.mapped s.cfg = true → s.mem.read e = none →
    hostRead s ((Loc.elem e).address s.cfg) .word = .fault (.unwritten e))
    ∧ ∀ (i : Instr) (s : State) (r : Fault), exec i s = .fault r →
      i ∈ [.split, .lbasis, .recon] ∧ ∃ e, r = .unwritten e ∧ s.mem.read e = none

/-- 10_state.md R40, 60_exceptions.md R242: no host operation can tell what COEF and KC hold, or change them. -/
def Obligations.HiddenStoreStaysHidden : Prop :=
  ∀ (s : State) (c : List FieldWord) (k : FieldWord),
    hostTurn (withHidden s c k) =
      match hostTurn s with
      | .next t => .next (withHidden t c k)
      | .fault r => .fault r
      | .refused r => .refused r

/-- 30_encoding.md R105: POLL reads STATUS and stays the host's next operation while BUSY = 1. -/
def Obligations.PollRepeatsWhileBusy : Prop :=
  ∀ (s : State) (rest : List HostOp), s.program = .poll :: rest →
    hostTurn s = .next { s with
      program := if s.status.busy then s.program else rest
      response := .readData s.status.toWord }

/-! ## Field arithmetic -/

/-- 40_field_arith.md R120. -/
def Obligations.FaddRule : Prop := binaryRule 0x01 .fadd fun a b => (a + b) % 257

/-- 40_field_arith.md R121: a negative difference becomes difference + 257. -/
def Obligations.FsubRule : Prop := binaryRule 0x02 .fsub fun a b => if b ≤ a then a - b else a + 257 - b

/-- 40_field_arith.md R122: the exact product, then one reduction. -/
def Obligations.FmulRule : Prop := binaryRule 0x03 .fmul fun a b => a * b % 257

/-- 40_field_arith.md R123 with R124: 0^0 = 1. -/
def Obligations.FpowRule : Prop := binaryRule 0x04 .fpow fun a e => a ^ e % 257

/-- 40_field_arith.md R125. -/
def Obligations.FinvRule : Prop :=
  (∀ rd rs1, decode (wordOf 0 0 rs1 rd 0x05) = .ok (.finv rd rs1))
    ∧ illegalCompletes 0x05
    ∧ ∀ (s : State) (rd rs1 : Reg),
      (inRange (s.readF rs1) →
        completes (.finv rd rs1) s (s.writeF rd (BitVec.ofNat 9 ((s.readF rs1).toNat ^ 255 % 257))))
      ∧ (256 < (s.readF rs1).toNat → raises (.finv rd rs1) s .operandRange (rs1.setWidth 32))
      ∧ (s.readF rs1 = 0 → raises (.finv rd rs1) s .divisionByZero (rs1.setWidth 32))

/-- 40_field_arith.md R127: an immediate of at most 256 is loaded; a larger one is no command. -/
def Obligations.FldiRule : Prop :=
  (∀ (rd : Reg) (imm : FieldWord), imm.toNat ≤ 256 → decode (wordOf imm 0 0 rd 0x06) = .ok (.fldi rd imm))
    ∧ (∀ (rd : Reg) (imm : FieldWord) (i : Instr), 256 < imm.toNat → decode (wordOf imm 0 0 rd 0x06) ≠ .ok i)
    ∧ illegalCompletes 0x06
    ∧ ∀ (s : State) (rd : Reg) (imm : FieldWord), imm.toNat ≤ 256 →
      completes (.fldi rd imm) s (s.writeF rd imm)

/-- 40_field_arith.md R124: powP is the power reduced mod 257, 1 for the exponent 0, and binary exponentiation
gives the same value. -/
def Obligations.PowerMethodsAgree : Prop :=
  ∀ a e : Nat, powP a e = a ^ e % 257 ∧ powP a 0 = 1
    ∧ ∀ n, e < 2 ^ n → binaryPower n 1 a e % 257 = powP a e

/-- 40_field_arith.md R126: the result of FINV is the one inverse. -/
def Obligations.InverseLaw : Prop :=
  ∀ (s : State) (rd rs1 : Reg), inRange (s.readF rs1) →
    ∃ t, exec (.finv rd rs1) s = .next t ∧ inRange (t.readF rd)
      ∧ (s.readF rs1).toNat * (t.readF rd).toNat % 257 = 1
      ∧ ∀ c : Nat, 1 ≤ c → c ≤ 256 → (s.readF rs1).toNat * c % 257 = 1 → c = (t.readF rd).toNat

/-- 40_field_arith.md R128: a field command writes at most F[rd] besides the completion fields, F[rd] only on
success, and its outcome depends on its source registers alone. -/
def Obligations.FieldCommandsOnlyWriteRd : Prop :=
  ∀ i : Instr, fieldCommand i →
    (∀ s t : State, exec i s = .next t →
      (∀ r, dest i ≠ some r → t.readF r = s.readF r)
        ∧ (t.status.code ≠ 0 → t.f = s.f)
        ∧ completionFields t ∧ sameSurround s t ∧ t.len = s.len ∧ t.mem = s.mem ∧ t.coef = s.coef
        ∧ t.kc = s.kc ∧ t.entropy = s.entropy)
      ∧ ∀ s s' : State, (∀ r ∈ sources i, s.readF r = s'.readF r) →
        ∃ t t', exec i s = .next t ∧ exec i s' = .next t' ∧ t.status = t'.status ∧ t.errinfo = t'.errinfo
          ∧ (t.status.code = 0 → ∀ r, dest i = some r → t.readF r = t'.readF r)

/-! ## The polynomial unit -/

/-- 41_coefficient_poly.md R151, R152: n draws are the first n raw words that are at most 256, in order, the
words passed over are gone, and the draws can be made exactly when the source has answered n such words. -/
def Obligations.DrawsRejectLargeWords : Prop :=
  ∀ (n : Nat) (raw : List FieldWord),
    (∀ ds left, takeDraws n raw = some (ds, left) →
      ds.length = n ∧ (∀ d ∈ ds, d.toNat ≤ 256)
        ∧ ∃ front, raw = front ++ left ∧ ds = front.filter (fun r => decide (r.toNat ≤ 256))
          ∧ (front = [] ∨ ∃ r, front.getLast? = some r ∧ r.toNat ≤ 256))
    ∧ (takeDraws n raw = none ↔ (raw.filter fun r => decide (r.toNat ≤ 256)).length < n)

/-- 41_coefficient_poly.md R151, R153, 70_reset_and_hazards.md R281: a sampling command for which the source has
answered too few acceptable words changes nothing, BUSY included; once it has answered enough, it completes. The
queue of raw words is the model's choice (log 3), and so is the step that changes nothing, which stands for the
step that R153 says is not enabled (log 11). -/
def Obligations.SamplingWaitsForEntropy : Prop :=
  (∀ (s : State) (rs1 : Reg), 2 ≤ s.kreg.toNat → s.kreg.toNat ≤ s.cfg.sMax → (s.readF rs1).toNat ≤ 256 →
    ((s.entropy.filter canonical).length < s.kreg.toNat - 1 → exec (.cgen rs1) s = .next s)
      ∧ (s.kreg.toNat - 1 ≤ (s.entropy.filter canonical).length →
        ∃ t, exec (.cgen rs1) s = .next t ∧ t.status = okStatus))
    ∧ ∀ s : State, s.len ≠ 0 → 2 ≤ s.kreg.toNat → s.kreg.toNat ≤ s.nreg.toNat →
      s.nreg.toNat ≤ s.cfg.sMax → s.len.toNat ≤ s.cfg.lMax →
      (∀ p < s.len.toNat, s.mem.secret.read p ≠ none) →
      ((s.entropy.filter canonical).length < s.len.toNat * (s.kreg.toNat - 1) → exec .split s = .next s)
        ∧ (s.len.toNat * (s.kreg.toNat - 1) ≤ (s.entropy.filter canonical).length →
          ∃ t, exec .split s = .next t ∧ t.status = okStatus)

/-- 41_coefficient_poly.md R154. Where the draws come from and what they leave, takeDraws and entropy, is the
model's choice (log 3). -/
def Obligations.CgenRule : Prop :=
  (∀ rs1, decode (wordOf 0 0 rs1 0 0x10) = .ok (.cgen rs1))
    ∧ illegalCompletes 0x10
    ∧ ∀ (s : State) (rs1 : Reg),
      (∀ ds left, 2 ≤ s.kreg.toNat → s.kreg.toNat ≤ s.cfg.sMax → (s.readF rs1).toNat ≤ 256 →
        takeDraws (s.kreg.toNat - 1) s.entropy = some (ds, left) →
        completes (.cgen rs1) s { s with
          coef := (s.readF rs1 :: ds) ++ List.replicate (s.cfg.sMax - s.kreg.toNat) 0
          kc := s.kreg
          entropy := left })
      ∧ (s.kreg.toNat < 2 → raises (.cgen rs1) s .invalidParameters 3)
      ∧ (2 ≤ s.kreg.toNat → s.cfg.sMax < s.kreg.toNat → raises (.cgen rs1) s .capacity 3)
      ∧ (2 ≤ s.kreg.toNat → s.kreg.toNat ≤ s.cfg.sMax → 256 < (s.readF rs1).toNat →
        raises (.cgen rs1) s .operandRange (rs1.setWidth 32))

/-- 41_coefficient_poly.md R156 with R155. -/
def Obligations.PevalRule : Prop :=
  (∀ rd rs1, decode (wordOf 0 0 rs1 rd 0x11) = .ok (.peval rd rs1))
    ∧ illegalCompletes 0x11
    ∧ ∀ (s : State) (rd rs1 : Reg),
      (inRange (s.readF rs1) →
        completes (.peval rd rs1) s (s.writeF rd (BitVec.ofNat 9
          (polyValue (fun i => (s.coef.getD i 0).toNat) s.kc.toNat (s.readF rs1).toNat))))
      ∧ (256 < (s.readF rs1).toNat → raises (.peval rd rs1) s .operandRange (rs1.setWidth 32))
      ∧ (s.readF rs1 = 0 → raises (.peval rd rs1) s .invalidParameters 5)

/-- 41_coefficient_poly.md R158. -/
def Obligations.PclrRule : Prop :=
  decode (wordOf 0 0 0 0 0x12) = .ok .pclr
    ∧ illegalCompletes 0x12
    ∧ (∀ s : State, completes .pclr s { s with coef := List.replicate s.cfg.sMax 0, kc := 0 })
    ∧ ∀ (s : State) (rd rs1 : Reg), inRange (s.readF rs1) →
      ∃ t u, exec .pclr s = .next t ∧ exec (.peval rd rs1) t = .next u ∧ u.readF rd = 0

/-- 41_coefficient_poly.md R155: the polynomial value is the power sum, Horner's form gives the same, the value
at 0 is the constant term, and no coefficients give 0. -/
def Obligations.PolynomialFormsAgree : Prop :=
  ∀ (cs : List FieldWord) (x : Nat),
    polyVal cs x = polyValue (fun i => (cs.getD i 0).toNat) cs.length x
      ∧ polyVal cs x = horner x cs
      ∧ (∀ c rest, cs = c :: rest → c.toNat ≤ 256 → polyVal cs 0 = c.toNat)
      ∧ polyVal [] x = 0

/-- The frames of CGEN, PEVAL and PCLR (41_coefficient_poly.md R154, R156, R158): no array, no other register
and, for CGEN and PCLR, no field register changes; PEVAL keeps COEF and KC. That a CGEN without enough draws
(R153) changes nothing, and where the raw words of the draws wait, are the model's choices (logs 11, 3). -/
def Obligations.PolynomialCommandFrames : Prop :=
  (∀ (s t : State) (rs1 : Reg), exec (.cgen rs1) s = .next t →
    t.f = s.f ∧ t.mem = s.mem ∧ t.len = s.len ∧ sameSurround s t
      ∧ (t = s ∨ (completionFields t ∧ (t.status.code ≠ 0 →
        t.coef = s.coef ∧ t.kc = s.kc ∧ t.entropy = s.entropy))))
    ∧ (∀ (s t : State) (rd rs1 : Reg), exec (.peval rd rs1) s = .next t →
      (∀ r, r ≠ rd → t.readF r = s.readF r) ∧ (t.status.code ≠ 0 → t.f = s.f)
        ∧ t.mem = s.mem ∧ t.len = s.len ∧ sameSurround s t ∧ t.coef = s.coef ∧ t.kc = s.kc
        ∧ t.entropy = s.entropy ∧ completionFields t)
    ∧ ∀ s t : State, exec .pclr s = .next t →
      t.f = s.f ∧ t.mem = s.mem ∧ t.len = s.len ∧ sameSurround s t ∧ t.entropy = s.entropy
        ∧ completionFields t ∧ t.status.code = 0

/-! ## SPLIT -/

/-- 42_split.md R170 with R171: the shares, the discarded polynomial, the model fault of the first unwritten
secret byte, and the six errors in order. Where the draws come from and what they leave is the model's choice
(log 3); that the first unwritten byte is the one that faults is its inference (log 10). -/
def Obligations.SplitRule : Prop :=
  decode (wordOf 0 0 0 0 0x20) = .ok .split
    ∧ illegalCompletes 0x20
    ∧ (∀ (s : State) (b : Nat → Byte) (ds left : List FieldWord), splitReady s b ds left →
      ∃ m : Memory,
        completes .split s
          { s with mem := m, coef := List.replicate s.cfg.sMax 0, kc := 0, entropy := left }
        ∧ (∀ i < s.nreg.toNat, m.x.read i = some (BitVec.ofNat 9 (i + 1))
          ∧ m.slen.read i = some s.len
          ∧ ∀ p < s.len.toNat, m.y.read (yKey i p) = some (BitVec.ofNat 9
            (polyValue (lanePoly s.kreg.toNat b ds p) s.kreg.toNat (i + 1))))
        ∧ ∀ e, e.mapped s.cfg = true → ¬ splitWrites s.nreg.toNat s.len.toNat e →
          m.read e = s.mem.read e)
    ∧ (∀ (s : State) (p : Nat), s.len ≠ 0 → 2 ≤ s.kreg.toNat → s.kreg.toNat ≤ s.nreg.toNat →
      s.nreg.toNat ≤ s.cfg.sMax → s.len.toNat ≤ s.cfg.lMax → p < s.len.toNat →
      (∀ q < p, s.mem.secret.read q ≠ none) → s.mem.secret.read p = none →
      exec .split s = .fault (.unwritten (.secret p)))
    ∧ ∀ s : State,
      let l := s.len.toNat
      let n := s.nreg.toNat
      let k := s.kreg.toNat
      (l = 0 → raises .split s .invalidParameters 1)
        ∧ (l ≠ 0 → n < 2 → raises .split s .invalidParameters 2)
        ∧ (l ≠ 0 → 2 ≤ n → k < 2 → raises .split s .invalidParameters 3)
        ∧ (l ≠ 0 → 2 ≤ n → 2 ≤ k → n < k → raises .split s .invalidParameters 4)
        ∧ (l ≠ 0 → 2 ≤ k → k ≤ n → s.cfg.sMax < n → raises .split s .capacity 1)
        ∧ (l ≠ 0 → 2 ≤ k → k ≤ n → n ≤ s.cfg.sMax → s.cfg.lMax < l → raises .split s .capacity 2)

/-- 42_split.md R172: what a SPLIT writes and what it leaves alone, whatever its outcome. That a SPLIT without enough
draws (41_coefficient_poly.md R153) changes nothing is the model's choice (log 11). -/
def Obligations.SplitFrame : Prop :=
  ∀ s t : State, exec .split s = .next t →
    t.f = s.f ∧ t.len = s.len ∧ sameSurround s t
      ∧ (∀ e, e.mapped s.cfg = true → ¬ splitWrites s.nreg.toNat s.len.toNat e → t.mem.read e = s.mem.read e)
      ∧ (t = s ∨ (∃ c info, c ≠ .ok ∧ t = raisedState s c info)
        ∨ (completionFields t ∧ t.status.code = 0
          ∧ ∀ e, splitWrites s.nreg.toNat s.len.toNat e → t.mem.read e ≠ none))

/-- 42_split.md R173: after a successful SPLIT every share index is in [1, n], and none is 0 mod 257. -/
def Obligations.SplitIndexBounds : Prop :=
  ∀ s t : State, s.status.busy = true → exec .split s = .next t → t.status = okStatus →
    s.nreg.toNat ≤ 256 ∧ ∀ i < s.nreg.toNat, ∃ x, t.mem.x.read i = some x ∧ x.toNat = i + 1
      ∧ 1 ≤ x.toNat ∧ x.toNat ≤ s.nreg.toNat ∧ x.toNat % 257 ≠ 0

/-- 42_split.md R175: a successful SPLIT makes exactly L*(k-1) draws, the accepted words of a front part of the
raw words, and leaves COEF all 0 and KC = 0. -/
def Obligations.SplitDrawsAndDiscards : Prop :=
  ∀ s t : State, s.status.busy = true → exec .split s = .next t → t.status = okStatus →
    (∃ front, s.entropy = front ++ t.entropy
      ∧ (front.filter canonical).length = s.len.toNat * (s.kreg.toNat - 1)
      ∧ ∃ r, front.getLast? = some r ∧ canonical r = true)
      ∧ t.kc = 0 ∧ t.coef = List.replicate s.cfg.sMax 0

/-- 42_split.md R174: Y[i][p] depends on SECRET[p], k and the k - 1 draws of position p alone. -/
def Obligations.SplitLanesAreIndependent : Prop :=
  ∀ (s s' : State) (b b' : Nat → Byte) (ds ds' left left' : List FieldWord) (t t' : State) (i p : Nat),
    splitReady s b ds left → splitReady s' b' ds' left' →
    exec .split s = .next t → exec .split s' = .next t' →
    s.kreg = s'.kreg → p < s.len.toNat → p < s'.len.toNat → i < s.nreg.toNat → i < s'.nreg.toNat →
    b p = b' p →
    (∀ d < s.kreg.toNat - 1, ds.getD (p * (s.kreg.toNat - 1) + d) 0
      = ds'.getD (p * (s.kreg.toNat - 1) + d) 0) →
    t.mem.y.read (yKey i p) = t'.mem.y.read (yKey i p)

/-- 41_coefficient_poly.md R157: PEVAL at x in 1..n, after CGEN with constant term b and the same draws, gives
the share value that SPLIT writes for that byte at share index x. That the draws wait in entropy is the model's
choice (log 3). -/
def Obligations.PevalMatchesSplit : Prop :=
  ∀ (s : State) (b : Nat → Byte) (ds left : List FieldWord) (t g : State) (rc rx rd : Reg) (p x : Nat),
    splitReady s b ds left → exec .split s = .next t → p < s.len.toNat → 1 ≤ x → x ≤ s.nreg.toNat →
    g.cfg = s.cfg → g.kreg = s.kreg → g.readF rc = (b p).setWidth 9 → g.readF rx = BitVec.ofNat 9 x →
    g.entropy = (ds.drop (p * (s.kreg.toNat - 1))).take (s.kreg.toNat - 1) →
    ∃ u v, exec (.cgen rc) g = .next u ∧ exec (.peval rd rx) u = .next v
      ∧ some (v.readF rd) = t.mem.y.read (yKey (x - 1) p)

/-! ## LBASIS and RECON -/

/-- 43_lagrange_basis.md R185 with R186 to R188: the weights, the four errors in order, and the model fault of
the first unwritten index. In which order raises and model faults come when only some of the indices are written
is an inference of the model (log 10). -/
def Obligations.LbasisRule : Prop :=
  decode (wordOf 0 0 0 0 0x18) = .ok .lbasis
    ∧ illegalCompletes 0x18
    ∧ ∀ (s : State) (x : Nat → FieldWord),
      let m := s.scnt.toNat
      (1 ≤ m → m ≤ s.cfg.sMax → holdsX s m x → goodIndices m x →
        ∃ mem' : Memory, completes .lbasis s { s with mem := mem' }
          ∧ (∀ i < m, mem'.w.read i = some (BitVec.ofNat 9 (basisValue m x i)))
          ∧ ∀ e, e.mapped s.cfg = true → (∀ i < m, e ≠ .w i) → mem'.read e = s.mem.read e)
      ∧ (m = 0 → raises .lbasis s .emptyShareSet 0)
      ∧ (s.cfg.sMax < m → raises .lbasis s .capacity 1)
      ∧ (∀ i < m, m ≤ s.cfg.sMax → holdsX s (i + 1) x → (∀ j < i, inRange (x j)) → ¬ inRange (x i) →
        raises .lbasis s .indexRange (BitVec.ofNat 32 i))
      ∧ (∀ i j, m ≤ s.cfg.sMax → holdsX s m x → (∀ a < m, inRange (x a)) → firstEqualPair m x i j →
        raises .lbasis s .duplicateShareIndex (BitVec.ofNat 16 j ++ BitVec.ofNat 16 i))
      ∧ ∀ i < m, m ≤ s.cfg.sMax → holdsX s i x → (∀ j < i, inRange (x j)) → s.mem.x.read i = none →
        exec .lbasis s = .fault (.unwritten (.x i))

/-- 44_reconstruct.md R200 with R201 to R203 and 43_lagrange_basis.md R186 to R188: the weights, the recovered
bytes, LEN, the seven errors in order, and the model fault of the first unwritten
element. In which order raises and model faults come when only some of the elements are written is an inference
of the model (log 10). -/
def Obligations.ReconRule : Prop :=
  decode (wordOf 0 0 0 0 0x21) = .ok .recon
    ∧ illegalCompletes 0x21
    ∧ ∀ (s : State) (x : Nat → FieldWord) (y : Nat → Nat → FieldWord) (l : BitVec 16),
      let m := s.scnt.toNat
      (1 ≤ m → m ≤ s.cfg.sMax → holdsLength s m l → l.toNat ≤ s.cfg.lMax → holdsX s m x →
        goodIndices m x → holdsY s m l.toNat y → (∀ i < m, ∀ p < l.toNat, (y i p).toNat ≤ 256) →
        ∃ mem' : Memory, completes .recon s { s with mem := mem', len := l }
          ∧ (∀ i < m, mem'.w.read i = some (BitVec.ofNat 9 (basisValue m x i)))
          ∧ (∀ p < l.toNat, mem'.secret.read p = some (BitVec.ofNat 8
            ((∑ i ∈ Finset.range m, (y i p).toNat * basisValue m x i) % 257 % 256)))
          ∧ ∀ e, e.mapped s.cfg = true → ¬ reconWrites m l.toNat e → mem'.read e = s.mem.read e)
      ∧ (m = 0 → raises .recon s .emptyShareSet 0)
      ∧ (s.cfg.sMax < m → raises .recon s .capacity 1)
      ∧ (∀ i l', 1 ≤ i → i < m → m ≤ s.cfg.sMax → holdsLength s i l → s.mem.slen.read i = some l' →
        l' ≠ l → raises .recon s .inconsistentShares (BitVec.ofNat 32 i))
      ∧ (1 ≤ m → m ≤ s.cfg.sMax → holdsLength s m l → s.cfg.lMax < l.toNat → raises .recon s .capacity 2)
      ∧ (∀ i < m, m ≤ s.cfg.sMax → holdsLength s m l → l.toNat ≤ s.cfg.lMax → holdsX s (i + 1) x →
        (∀ j < i, inRange (x j)) → ¬ inRange (x i) → raises .recon s .indexRange (BitVec.ofNat 32 i))
      ∧ (∀ i j, m ≤ s.cfg.sMax → holdsLength s m l → l.toNat ≤ s.cfg.lMax → holdsX s m x →
        (∀ a < m, inRange (x a)) → firstEqualPair m x i j →
        raises .recon s .duplicateShareIndex (BitVec.ofNat 16 j ++ BitVec.ofNat 16 i))
      ∧ (∀ i < m, m ≤ s.cfg.sMax → holdsLength s i l → s.mem.slen.read i = none →
        exec .recon s = .fault (.unwritten (.slen i)))
      ∧ (∀ i < m, m ≤ s.cfg.sMax → holdsLength s m l → l.toNat ≤ s.cfg.lMax → holdsX s i x →
        (∀ j < i, inRange (x j)) → s.mem.x.read i = none → exec .recon s = .fault (.unwritten (.x i)))
      ∧ (∀ i < m, ∀ p < l.toNat, m ≤ s.cfg.sMax → holdsLength s m l → l.toNat ≤ s.cfg.lMax →
        holdsX s m x → goodIndices m x → holdsY s i l.toNat y →
        (∀ j < i, ∀ q < l.toNat, (y j q).toNat ≤ 256) →
        (∀ q < p, s.mem.y.read (yKey i q) = some (y i q)) → (∀ q < p, (y i q).toNat ≤ 256) →
        s.mem.y.read (yKey i p) = none → exec .recon s = .fault (.unwritten (.y i p)))
      ∧ ∀ i < m, ∀ p < l.toNat, m ≤ s.cfg.sMax → holdsLength s m l → l.toNat ≤ s.cfg.lMax →
        holdsX s m x → goodIndices m x → holdsY s i l.toNat y →
        (∀ j < i, ∀ q < l.toNat, (y j q).toNat ≤ 256) →
        (∀ q ≤ p, s.mem.y.read (yKey i q) = some (y i q)) → (∀ q < p, (y i q).toNat ≤ 256) →
        256 < (y i p).toNat →
        raises .recon s .operandRange (BitVec.ofNat 16 p ++ BitVec.ofNat 16 i)

/-- The frames of LBASIS (43_lagrange_basis.md R185) and RECON (44_reconstruct.md R204), whatever the outcome. -/
def Obligations.ReconstructionFrames : Prop :=
  (∀ s t : State, exec .lbasis s = .next t →
    t.f = s.f ∧ t.len = s.len ∧ sameSurround s t ∧ t.coef = s.coef ∧ t.kc = s.kc ∧ t.entropy = s.entropy
      ∧ completionFields t ∧ (t.status.code ≠ 0 → t.mem = s.mem)
      ∧ ∀ e, e.mapped s.cfg = true → (∀ i < s.scnt.toNat, e ≠ .w i) → t.mem.read e = s.mem.read e)
    ∧ ∀ s t : State, exec .recon s = .next t →
      t.f = s.f ∧ sameSurround s t ∧ t.coef = s.coef ∧ t.kc = s.kc ∧ t.entropy = s.entropy
        ∧ completionFields t ∧ (t.status.code ≠ 0 → t.mem = s.mem ∧ t.len = s.len)
        ∧ (t.status.code = 0 → s.mem.slen.read 0 = some t.len
          ∧ ∀ e, reconWrites s.scnt.toNat t.len.toNat e → t.mem.read e ≠ none)
        ∧ ∀ e, e.mapped s.cfg = true → ¬ reconWrites s.scnt.toNat t.len.toNat e →
          t.mem.read e = s.mem.read e

/-- 43_lagrange_basis.md R189: the weights of distinct indices in [1,256] sum to 1 mod 257, and for two indices
they are [b * inv(b - a), a * inv(a - b)]. -/
def Obligations.WeightsSumToOne : Prop :=
  (∀ (m : Nat) (x : Nat → FieldWord), 1 ≤ m → goodIndices m x →
    (weights ((List.range m).map x)).sum % 257 = 1)
    ∧ ∀ a b : FieldWord, inRange a → inRange b → a ≠ b →
      weights [a, b] = [mulP b.toNat (invP (subP b.toNat a.toNat)), mulP a.toNat (invP (subP a.toNat b.toNat))]

/-- 43_lagrange_basis.md R190: the slots' order changes no index's weight. -/
def Obligations.WeightsFollowTheirIndices : Prop :=
  ∀ (xs ys : List FieldWord) (i j : Nat), xs.Perm ys → xs.Nodup → i < xs.length → j < ys.length →
    xs[i]? = ys[j]? → basis xs i = basis ys j

/-- 43_lagrange_basis.md R191: LBASIS and RECON never complete with DIVISION_BY_ZERO; only FINV does. -/
def Obligations.OnlyFinvDividesByZero : Prop :=
  ∀ (i : Instr) (s t : State), exec i s = .next t → s.status.code ≠ 2 → t.status.code = 2 →
    ∃ rd rs1, i = .finv rd rs1

/-- 44_reconstruct.md R207: a RECON of shares of length 0 is accepted: OK, LEN = 0, W written, no SECRET element
written and no Y read. -/
def Obligations.ZeroLengthReconstruction : Prop :=
  ∀ (s : State) (x : Nat → FieldWord), 1 ≤ s.scnt.toNat → s.scnt.toNat ≤ s.cfg.sMax →
    holdsLength s s.scnt.toNat 0 → holdsX s s.scnt.toNat x → goodIndices s.scnt.toNat x →
    ∃ t, exec .recon s = .next t ∧ t.status = okStatus ∧ t.len = 0
      ∧ t.mem.secret = s.mem.secret
      ∧ (∀ i < s.scnt.toNat, t.mem.w.read i ≠ none)
      ∧ ∀ y', ∃ t', exec .recon { s with mem := { s.mem with y := y' } } = .next t'
        ∧ t'.status = t.status ∧ t'.mem.w = t.mem.w ∧ t'.mem.y = y'

/-- 44_reconstruct.md R208: SECRET[p] depends on the indices and on the values of position p alone. -/
def Obligations.ReconLanesAreIndependent : Prop :=
  ∀ (s s' t t' : State) (p : Nat), exec .recon s = .next t → exec .recon s' = .next t' →
    t.status.code = 0 → t'.status.code = 0 → p < t.len.toNat → p < t'.len.toNat →
    s.scnt = s'.scnt → (∀ i < s.scnt.toNat, s.mem.x.read i = s'.mem.x.read i) →
    (∀ i < s.scnt.toNat, s.mem.y.read (yKey i p) = s'.mem.y.read (yKey i p)) →
    t.mem.secret.read p = t'.mem.secret.read p

/-- 44_reconstruct.md R205: any k or more shares of one SPLIT, in any order, reconstruct the secret. The slots
0..m-1 of u hold the shares of the slots σ 0, ..., σ (m-1) that the SPLIT wrote. -/
def Obligations.SharesReconstructTheSecret : Prop :=
  ∀ (s t u : State) (σ : Nat → Nat), s.status.busy = true → exec .split s = .next t →
    t.status = okStatus → u.cfg = s.cfg → s.kreg.toNat ≤ u.scnt.toNat →
    (∀ i < u.scnt.toNat, σ i < s.nreg.toNat) →
    (∀ i < u.scnt.toNat, ∀ j < u.scnt.toNat, σ i = σ j → i = j) →
    (∀ i < u.scnt.toNat, u.mem.x.read i = t.mem.x.read (σ i)
      ∧ u.mem.slen.read i = t.mem.slen.read (σ i)
      ∧ ∀ p < s.len.toNat, u.mem.y.read (yKey i p) = t.mem.y.read (yKey (σ i) p)) →
    ∃ v, exec .recon u = .next v ∧ v.status = okStatus ∧ v.len = s.len
      ∧ ∀ p < s.len.toNat, v.mem.secret.read p = s.mem.secret.read p

/-! ## Rules of the whole machine -/

/-- 60_exceptions.md R220, R226: the completion codes that each command can report, as numbers, with the rest of the
completion. A state that does not change is that of a sampling command that waits (log 11). -/
def Obligations.CompletionCodes : Prop :=
  ∀ (i : Instr) (s t : State), exec i s = .next t → t ≠ s →
    completionFields t ∧ t.status.code ∈ (match i with
      | .fadd _ _ _ | .fsub _ _ _ | .fmul _ _ _ | .fpow _ _ _ => [0, 7]
      | .finv _ _ => [0, 2, 7]
      | .fldi _ _ | .pclr => [0]
      | .cgen _ => [0, 1, 7, 9]
      | .peval _ _ => [0, 1, 7]
      | .split => [0, 1, 9]
      | .lbasis => [0, 4, 5, 8, 9]
      | .recon => [0, 3, 4, 5, 7, 8, 9] : List (BitVec 4))

/-- The invariant holds after reset, for every legal choice of the parameters (10_state.md R43). -/
def Obligations.ResetMeetsInvariant : Prop := (∀ p, (State.powerOn p).Inv) ∧ State.reset.Inv

/-- Every step keeps the invariant: arrays in canonical form and within the block, W and COEF field elements,
COEF zero from KC on, STATUS and ERRINFO consistent and no reserved code (10_state.md R26, R35 to R41,
60_exceptions.md R220). -/
def Obligations.StepKeepsInvariant : Prop := ∀ s t : State, s.Inv → step s = .next t → t.Inv
end

