-- ==== Sys2Proof/Laws/Memory.lean ====
section
/-! SUPPORT. Reading after writing, and that every memory operation keeps the canonical form. -/

namespace Sys2Proof.Machine

variable {w : Nat}

/-! ## One cell -/

@[simp] theorem Cells.read_write_same (c : Cells w) (i : Nat) (v : BitVec w) :
    (c.write i v).read i = some v := by
  induction c with
  | nil => simp [Cells.write, Cells.read]
  | cons e rest ih =>
    obtain ⟨k, u⟩ := e
    simp only [Cells.write]
    split
    · simp [Cells.read]
    · split
      · simp [Cells.read]
      · simp [Cells.read, *]

theorem Cells.read_write_other (c : Cells w) {i j : Nat} (v : BitVec w) (h : j ≠ i) :
    (c.write i v).read j = c.read j := by
  induction c with
  | nil => simp [Cells.write, Cells.read, h]
  | cons e rest ih =>
    obtain ⟨k, u⟩ := e
    simp only [Cells.write]
    split
    · simp [Cells.read, h]
    · split
      · next hik => subst hik; simp [Cells.read, h]
      · simp only [Cells.read, ih]

theorem Cells.read_write (c : Cells w) (i j : Nat) (v : BitVec w) :
    (c.write i v).read j = if j = i then some v else c.read j := by
  split
  · next h => subst h; simp
  · next h => exact c.read_write_other v h

theorem Cells.risingFrom_mono {lo lo' : Nat} (c : Cells w) (h : lo ≤ lo')
    (hc : c.risingFrom lo' = true) : c.risingFrom lo = true := by
  cases c with
  | nil => rfl
  | cons e rest =>
    simp only [Cells.risingFrom, Bool.and_eq_true, decide_eq_true_eq] at hc ⊢
    exact ⟨h.trans hc.1, hc.2⟩

theorem Cells.write_risingFrom {lo : Nat} (c : Cells w) (i : Nat) (v : BitVec w) (hi : lo ≤ i)
    (hc : c.risingFrom lo = true) : (c.write i v).risingFrom lo = true := by
  induction c generalizing lo with
  | nil => simp [Cells.write, Cells.risingFrom, hi]
  | cons e rest ih =>
    obtain ⟨k, u⟩ := e
    simp only [Cells.risingFrom, Bool.and_eq_true, decide_eq_true_eq] at hc
    simp only [Cells.write]
    split
    · simp only [Cells.risingFrom, Bool.and_eq_true, decide_eq_true_eq]
      exact ⟨hi, by omega, hc.2⟩
    · split
      · next hik => subst hik; simp [Cells.risingFrom, hi, hc.2]
      · simp only [Cells.risingFrom, Bool.and_eq_true, decide_eq_true_eq]
        exact ⟨hc.1, ih (by omega) hc.2⟩

theorem Cells.write_wf (c : Cells w) (i : Nat) (v : BitVec w) (hc : c.wf = true) :
    (c.write i v).wf = true :=
  c.write_risingFrom i v (Nat.zero_le i) hc

/-- What holds of every entry and of the new one holds of every entry after a write. -/
theorem Cells.all_write (c : Cells w) (i : Nat) (v : BitVec w) (p : Nat × BitVec w → Bool)
    (hv : p (i, v) = true) (hc : c.all p = true) : (c.write i v).all p = true := by
  induction c with
  | nil => simp [Cells.write, hv]
  | cons e rest ih =>
    obtain ⟨k, u⟩ := e
    simp only [List.all_cons, Bool.and_eq_true] at hc
    simp only [Cells.write]
    split
    · simp [hv, hc.1, hc.2]
    · split
      · simp [hv, hc.2]
      · simp [hc.1, ih hc.2]

/-- An entry that is read is listed. -/
theorem Cells.all_read (c : Cells w) (p : Nat × BitVec w → Bool) {i : Nat} {v : BitVec w}
    (hc : c.all p = true) (h : c.read i = some v) : p (i, v) = true := by
  induction c with
  | nil => simp [Cells.read] at h
  | cons e rest ih =>
    obtain ⟨k, u⟩ := e
    simp only [List.all_cons, Bool.and_eq_true] at hc
    simp only [Cells.read] at h
    split at h
    · next hik => cases h; subst hik; exact hc.1
    · exact ih hc.2 h

/-! ## Runs of cells -/

@[simp] theorem Cells.writeRun_nil (c : Cells w) (i : Nat) : c.writeRun i [] = c := rfl

@[simp] theorem Cells.writeRun_cons (c : Cells w) (i : Nat) (v : BitVec w) (vs : List (BitVec w)) :
    c.writeRun i (v :: vs) = (c.write i v).writeRun (i + 1) vs := rfl

theorem Cells.read_writeRun_outside (c : Cells w) (i j : Nat) (vs : List (BitVec w))
    (h : j < i ∨ i + vs.length ≤ j) : (c.writeRun i vs).read j = c.read j := by
  induction vs generalizing c i with
  | nil => rfl
  | cons v vs ih =>
    simp only [List.length_cons] at h
    rw [Cells.writeRun_cons, ih _ _ (by omega), Cells.read_write_other _ _ (by omega)]

theorem Cells.read_writeRun_inside (c : Cells w) (i : Nat) (vs : List (BitVec w)) {d : Nat}
    (h : d < vs.length) : (c.writeRun i vs).read (i + d) = some vs[d] := by
  induction vs generalizing c i d with
  | nil => simp at h
  | cons v vs ih =>
    rw [Cells.writeRun_cons]
    cases d with
    | zero =>
      rw [Cells.read_writeRun_outside _ _ _ _ (by omega)]
      simp
    | succ d =>
      have e : i + (d + 1) = (i + 1) + d := by omega
      rw [e, ih _ _ (by simpa using h)]
      simp

theorem Cells.writeRun_wf (c : Cells w) (i : Nat) (vs : List (BitVec w)) (hc : c.wf = true) :
    (c.writeRun i vs).wf = true := by
  induction vs generalizing c i with
  | nil => exact hc
  | cons v vs ih => exact ih _ _ (c.write_wf i v hc)

theorem Cells.all_writeRun (c : Cells w) (i : Nat) (vs : List (BitVec w)) (p : Nat × BitVec w → Bool)
    (hv : ∀ d (h : d < vs.length), p (i + d, vs[d]) = true) (hc : c.all p = true) :
    (c.writeRun i vs).all p = true := by
  induction vs generalizing c i with
  | nil => exact hc
  | cons v vs ih =>
    refine ih _ _ (fun d h => ?_) (c.all_write i v p (hv 0 (by simp)) hc)
    have := hv (d + 1) (by simpa using h)
    have e : i + 1 + d = i + (d + 1) := by omega
    rw [e]
    simpa using this

/-! ## Elements -/

/-- Elements of Y that the block has share no key (spec/20_memory.md R66, R67). -/
theorem yKey_inj {s p s' p' : Nat} (hp : p < 65536) (hp' : p' < 65536) :
    yKey s p = yKey s' p' ↔ s = s' ∧ p = p' := by
  unfold yKey
  omega

theorem Elem.mapped_y {cfg : Params} {s p : Nat} (h : (Elem.y s p).mapped cfg = true) :
    s < cfg.sMax ∧ p < 65536 := by
  simp only [Elem.mapped, Bool.and_eq_true, decide_eq_true_eq] at h
  have := cfg.lMax_legal
  omega

theorem Memory.store_wf (m : Memory) (e : Elem) (v : Word) (h : m.wf = true) :
    (m.store e v).wf = true := by
  simp only [Memory.wf, Bool.and_eq_true] at h ⊢
  obtain ⟨⟨⟨⟨hx, hl⟩, hw⟩, hs⟩, hy⟩ := h
  cases e <;> simp only [Memory.store, Cells.write_wf, *, and_self]

/-- A host write to one element leaves every other element of the block alone (spec/20_memory.md R67, R69). -/
theorem Memory.read_store_other (m : Memory) (cfg : Params) {e e' : Elem} (v : Word)
    (he : e.mapped cfg = true) (he' : e'.mapped cfg = true) (h : e' ≠ e) :
    (m.store e v).read e' = m.read e' := by
  cases e <;> cases e' <;> simp only [Memory.store, Memory.read] <;>
    first
      | rfl
      | (rw [Cells.read_write_other]; rintro rfl; exact h rfl)
      | skip
  rename_i s p s' p'
  rw [Cells.read_write_other]
  rw [Ne, yKey_inj (Elem.mapped_y he').2 (Elem.mapped_y he).2]
  rintro ⟨rfl, rfl⟩
  exact h rfl

theorem Memory.unwritten_wf : Memory.unwritten.wf = true := rfl

end Sys2Proof.Machine
end

