-- ==== Sys2Proof/Laws/State.lean ====
section
/-! SUPPORT. One lemma per field per update of the state, so that no proof unfolds a record update. -/

namespace Sys2Proof.Machine

@[simp] theorem State.writeF_f (s : State) (r : Reg) (v : FieldWord) : (s.writeF r v).f = s.f.set r.toNat v r.isLt := rfl
@[simp] theorem State.writeF_status (s : State) (r : Reg) (v : FieldWord) : (s.writeF r v).status = s.status := rfl
@[simp] theorem State.writeF_cmdreg (s : State) (r : Reg) (v : FieldWord) : (s.writeF r v).cmdreg = s.cmdreg := rfl
@[simp] theorem State.writeF_errinfo (s : State) (r : Reg) (v : FieldWord) : (s.writeF r v).errinfo = s.errinfo := rfl
@[simp] theorem State.writeF_nreg (s : State) (r : Reg) (v : FieldWord) : (s.writeF r v).nreg = s.nreg := rfl
@[simp] theorem State.writeF_kreg (s : State) (r : Reg) (v : FieldWord) : (s.writeF r v).kreg = s.kreg := rfl
@[simp] theorem State.writeF_len (s : State) (r : Reg) (v : FieldWord) : (s.writeF r v).len = s.len := rfl
@[simp] theorem State.writeF_scnt (s : State) (r : Reg) (v : FieldWord) : (s.writeF r v).scnt = s.scnt := rfl
@[simp] theorem State.writeF_mem (s : State) (r : Reg) (v : FieldWord) : (s.writeF r v).mem = s.mem := rfl
@[simp] theorem State.writeF_coef (s : State) (r : Reg) (v : FieldWord) : (s.writeF r v).coef = s.coef := rfl
@[simp] theorem State.writeF_kc (s : State) (r : Reg) (v : FieldWord) : (s.writeF r v).kc = s.kc := rfl
@[simp] theorem State.writeF_cfg (s : State) (r : Reg) (v : FieldWord) : (s.writeF r v).cfg = s.cfg := rfl
@[simp] theorem State.writeF_turns (s : State) (r : Reg) (v : FieldWord) : (s.writeF r v).turns = s.turns := rfl
@[simp] theorem State.writeF_program (s : State) (r : Reg) (v : FieldWord) : (s.writeF r v).program = s.program := rfl
@[simp] theorem State.writeF_entropy (s : State) (r : Reg) (v : FieldWord) : (s.writeF r v).entropy = s.entropy := rfl
@[simp] theorem State.writeF_response (s : State) (r : Reg) (v : FieldWord) : (s.writeF r v).response = s.response := rfl

@[simp] theorem State.setPoly_f (s : State) (cs : List FieldWord) (k : FieldWord) : (s.setPoly cs k).f = s.f := rfl
@[simp] theorem State.setPoly_status (s : State) (cs : List FieldWord) (k : FieldWord) : (s.setPoly cs k).status = s.status := rfl
@[simp] theorem State.setPoly_cmdreg (s : State) (cs : List FieldWord) (k : FieldWord) : (s.setPoly cs k).cmdreg = s.cmdreg := rfl
@[simp] theorem State.setPoly_errinfo (s : State) (cs : List FieldWord) (k : FieldWord) : (s.setPoly cs k).errinfo = s.errinfo := rfl
@[simp] theorem State.setPoly_nreg (s : State) (cs : List FieldWord) (k : FieldWord) : (s.setPoly cs k).nreg = s.nreg := rfl
@[simp] theorem State.setPoly_kreg (s : State) (cs : List FieldWord) (k : FieldWord) : (s.setPoly cs k).kreg = s.kreg := rfl
@[simp] theorem State.setPoly_len (s : State) (cs : List FieldWord) (k : FieldWord) : (s.setPoly cs k).len = s.len := rfl
@[simp] theorem State.setPoly_scnt (s : State) (cs : List FieldWord) (k : FieldWord) : (s.setPoly cs k).scnt = s.scnt := rfl
@[simp] theorem State.setPoly_mem (s : State) (cs : List FieldWord) (k : FieldWord) : (s.setPoly cs k).mem = s.mem := rfl
@[simp] theorem State.setPoly_coef (s : State) (cs : List FieldWord) (k : FieldWord) : (s.setPoly cs k).coef = cs ++ List.replicate (s.cfg.sMax - cs.length) 0 := rfl
@[simp] theorem State.setPoly_kc (s : State) (cs : List FieldWord) (k : FieldWord) : (s.setPoly cs k).kc = k := rfl
@[simp] theorem State.setPoly_cfg (s : State) (cs : List FieldWord) (k : FieldWord) : (s.setPoly cs k).cfg = s.cfg := rfl
@[simp] theorem State.setPoly_turns (s : State) (cs : List FieldWord) (k : FieldWord) : (s.setPoly cs k).turns = s.turns := rfl
@[simp] theorem State.setPoly_program (s : State) (cs : List FieldWord) (k : FieldWord) : (s.setPoly cs k).program = s.program := rfl
@[simp] theorem State.setPoly_entropy (s : State) (cs : List FieldWord) (k : FieldWord) : (s.setPoly cs k).entropy = s.entropy := rfl
@[simp] theorem State.setPoly_response (s : State) (cs : List FieldWord) (k : FieldWord) : (s.setPoly cs k).response = s.response := rfl

@[simp] theorem State.clearPoly_f (s : State) : s.clearPoly.f = s.f := rfl
@[simp] theorem State.clearPoly_status (s : State) : s.clearPoly.status = s.status := rfl
@[simp] theorem State.clearPoly_cmdreg (s : State) : s.clearPoly.cmdreg = s.cmdreg := rfl
@[simp] theorem State.clearPoly_errinfo (s : State) : s.clearPoly.errinfo = s.errinfo := rfl
@[simp] theorem State.clearPoly_nreg (s : State) : s.clearPoly.nreg = s.nreg := rfl
@[simp] theorem State.clearPoly_kreg (s : State) : s.clearPoly.kreg = s.kreg := rfl
@[simp] theorem State.clearPoly_len (s : State) : s.clearPoly.len = s.len := rfl
@[simp] theorem State.clearPoly_scnt (s : State) : s.clearPoly.scnt = s.scnt := rfl
@[simp] theorem State.clearPoly_mem (s : State) : s.clearPoly.mem = s.mem := rfl
@[simp] theorem State.clearPoly_coef (s : State) : s.clearPoly.coef = List.replicate s.cfg.sMax 0 := rfl
@[simp] theorem State.clearPoly_kc (s : State) : s.clearPoly.kc = 0 := rfl
@[simp] theorem State.clearPoly_cfg (s : State) : s.clearPoly.cfg = s.cfg := rfl
@[simp] theorem State.clearPoly_turns (s : State) : s.clearPoly.turns = s.turns := rfl
@[simp] theorem State.clearPoly_program (s : State) : s.clearPoly.program = s.program := rfl
@[simp] theorem State.clearPoly_entropy (s : State) : s.clearPoly.entropy = s.entropy := rfl
@[simp] theorem State.clearPoly_response (s : State) : s.clearPoly.response = s.response := rfl

@[simp] theorem State.setMem_f (s : State) (m : Memory) : (s.setMem m).f = s.f := rfl
@[simp] theorem State.setMem_status (s : State) (m : Memory) : (s.setMem m).status = s.status := rfl
@[simp] theorem State.setMem_cmdreg (s : State) (m : Memory) : (s.setMem m).cmdreg = s.cmdreg := rfl
@[simp] theorem State.setMem_errinfo (s : State) (m : Memory) : (s.setMem m).errinfo = s.errinfo := rfl
@[simp] theorem State.setMem_nreg (s : State) (m : Memory) : (s.setMem m).nreg = s.nreg := rfl
@[simp] theorem State.setMem_kreg (s : State) (m : Memory) : (s.setMem m).kreg = s.kreg := rfl
@[simp] theorem State.setMem_len (s : State) (m : Memory) : (s.setMem m).len = s.len := rfl
@[simp] theorem State.setMem_scnt (s : State) (m : Memory) : (s.setMem m).scnt = s.scnt := rfl
@[simp] theorem State.setMem_mem (s : State) (m : Memory) : (s.setMem m).mem = m := rfl
@[simp] theorem State.setMem_coef (s : State) (m : Memory) : (s.setMem m).coef = s.coef := rfl
@[simp] theorem State.setMem_kc (s : State) (m : Memory) : (s.setMem m).kc = s.kc := rfl
@[simp] theorem State.setMem_cfg (s : State) (m : Memory) : (s.setMem m).cfg = s.cfg := rfl
@[simp] theorem State.setMem_turns (s : State) (m : Memory) : (s.setMem m).turns = s.turns := rfl
@[simp] theorem State.setMem_program (s : State) (m : Memory) : (s.setMem m).program = s.program := rfl
@[simp] theorem State.setMem_entropy (s : State) (m : Memory) : (s.setMem m).entropy = s.entropy := rfl
@[simp] theorem State.setMem_response (s : State) (m : Memory) : (s.setMem m).response = s.response := rfl

@[simp] theorem State.setLen_f (s : State) (v : BitVec 16) : (s.setLen v).f = s.f := rfl
@[simp] theorem State.setLen_status (s : State) (v : BitVec 16) : (s.setLen v).status = s.status := rfl
@[simp] theorem State.setLen_cmdreg (s : State) (v : BitVec 16) : (s.setLen v).cmdreg = s.cmdreg := rfl
@[simp] theorem State.setLen_errinfo (s : State) (v : BitVec 16) : (s.setLen v).errinfo = s.errinfo := rfl
@[simp] theorem State.setLen_nreg (s : State) (v : BitVec 16) : (s.setLen v).nreg = s.nreg := rfl
@[simp] theorem State.setLen_kreg (s : State) (v : BitVec 16) : (s.setLen v).kreg = s.kreg := rfl
@[simp] theorem State.setLen_len (s : State) (v : BitVec 16) : (s.setLen v).len = v := rfl
@[simp] theorem State.setLen_scnt (s : State) (v : BitVec 16) : (s.setLen v).scnt = s.scnt := rfl
@[simp] theorem State.setLen_mem (s : State) (v : BitVec 16) : (s.setLen v).mem = s.mem := rfl
@[simp] theorem State.setLen_coef (s : State) (v : BitVec 16) : (s.setLen v).coef = s.coef := rfl
@[simp] theorem State.setLen_kc (s : State) (v : BitVec 16) : (s.setLen v).kc = s.kc := rfl
@[simp] theorem State.setLen_cfg (s : State) (v : BitVec 16) : (s.setLen v).cfg = s.cfg := rfl
@[simp] theorem State.setLen_turns (s : State) (v : BitVec 16) : (s.setLen v).turns = s.turns := rfl
@[simp] theorem State.setLen_program (s : State) (v : BitVec 16) : (s.setLen v).program = s.program := rfl
@[simp] theorem State.setLen_entropy (s : State) (v : BitVec 16) : (s.setLen v).entropy = s.entropy := rfl
@[simp] theorem State.setLen_response (s : State) (v : BitVec 16) : (s.setLen v).response = s.response := rfl

@[simp] theorem State.setEntropy_f (s : State) (left : List FieldWord) : (s.setEntropy left).f = s.f := rfl
@[simp] theorem State.setEntropy_status (s : State) (left : List FieldWord) : (s.setEntropy left).status = s.status := rfl
@[simp] theorem State.setEntropy_cmdreg (s : State) (left : List FieldWord) : (s.setEntropy left).cmdreg = s.cmdreg := rfl
@[simp] theorem State.setEntropy_errinfo (s : State) (left : List FieldWord) : (s.setEntropy left).errinfo = s.errinfo := rfl
@[simp] theorem State.setEntropy_nreg (s : State) (left : List FieldWord) : (s.setEntropy left).nreg = s.nreg := rfl
@[simp] theorem State.setEntropy_kreg (s : State) (left : List FieldWord) : (s.setEntropy left).kreg = s.kreg := rfl
@[simp] theorem State.setEntropy_len (s : State) (left : List FieldWord) : (s.setEntropy left).len = s.len := rfl
@[simp] theorem State.setEntropy_scnt (s : State) (left : List FieldWord) : (s.setEntropy left).scnt = s.scnt := rfl
@[simp] theorem State.setEntropy_mem (s : State) (left : List FieldWord) : (s.setEntropy left).mem = s.mem := rfl
@[simp] theorem State.setEntropy_coef (s : State) (left : List FieldWord) : (s.setEntropy left).coef = s.coef := rfl
@[simp] theorem State.setEntropy_kc (s : State) (left : List FieldWord) : (s.setEntropy left).kc = s.kc := rfl
@[simp] theorem State.setEntropy_cfg (s : State) (left : List FieldWord) : (s.setEntropy left).cfg = s.cfg := rfl
@[simp] theorem State.setEntropy_turns (s : State) (left : List FieldWord) : (s.setEntropy left).turns = s.turns := rfl
@[simp] theorem State.setEntropy_program (s : State) (left : List FieldWord) : (s.setEntropy left).program = s.program := rfl
@[simp] theorem State.setEntropy_entropy (s : State) (left : List FieldWord) : (s.setEntropy left).entropy = left := rfl
@[simp] theorem State.setEntropy_response (s : State) (left : List FieldWord) : (s.setEntropy left).response = s.response := rfl

@[simp] theorem State.accept_f (s : State) (v : Word) : (s.accept v).f = s.f := rfl
@[simp] theorem State.accept_status (s : State) (v : Word) : (s.accept v).status = Status.accepted := rfl
@[simp] theorem State.accept_cmdreg (s : State) (v : Word) : (s.accept v).cmdreg = v := rfl
@[simp] theorem State.accept_errinfo (s : State) (v : Word) : (s.accept v).errinfo = 0 := rfl
@[simp] theorem State.accept_nreg (s : State) (v : Word) : (s.accept v).nreg = s.nreg := rfl
@[simp] theorem State.accept_kreg (s : State) (v : Word) : (s.accept v).kreg = s.kreg := rfl
@[simp] theorem State.accept_len (s : State) (v : Word) : (s.accept v).len = s.len := rfl
@[simp] theorem State.accept_scnt (s : State) (v : Word) : (s.accept v).scnt = s.scnt := rfl
@[simp] theorem State.accept_mem (s : State) (v : Word) : (s.accept v).mem = s.mem := rfl
@[simp] theorem State.accept_coef (s : State) (v : Word) : (s.accept v).coef = s.coef := rfl
@[simp] theorem State.accept_kc (s : State) (v : Word) : (s.accept v).kc = s.kc := rfl
@[simp] theorem State.accept_cfg (s : State) (v : Word) : (s.accept v).cfg = s.cfg := rfl
@[simp] theorem State.accept_turns (s : State) (v : Word) : (s.accept v).turns = s.turns := rfl
@[simp] theorem State.accept_program (s : State) (v : Word) : (s.accept v).program = s.program := rfl
@[simp] theorem State.accept_entropy (s : State) (v : Word) : (s.accept v).entropy = s.entropy := rfl
@[simp] theorem State.accept_response (s : State) (v : Word) : (s.accept v).response = s.response := rfl

@[simp] theorem State.complete_f (s : State) (c : Code) (info : Word) : (s.complete c info).f = s.f := rfl
@[simp] theorem State.complete_status (s : State) (c : Code) (info : Word) : (s.complete c info).status = Status.completed c := rfl
@[simp] theorem State.complete_cmdreg (s : State) (c : Code) (info : Word) : (s.complete c info).cmdreg = s.cmdreg := rfl
@[simp] theorem State.complete_errinfo (s : State) (c : Code) (info : Word) : (s.complete c info).errinfo = if c = .ok then 0 else info := rfl
@[simp] theorem State.complete_nreg (s : State) (c : Code) (info : Word) : (s.complete c info).nreg = s.nreg := rfl
@[simp] theorem State.complete_kreg (s : State) (c : Code) (info : Word) : (s.complete c info).kreg = s.kreg := rfl
@[simp] theorem State.complete_len (s : State) (c : Code) (info : Word) : (s.complete c info).len = s.len := rfl
@[simp] theorem State.complete_scnt (s : State) (c : Code) (info : Word) : (s.complete c info).scnt = s.scnt := rfl
@[simp] theorem State.complete_mem (s : State) (c : Code) (info : Word) : (s.complete c info).mem = s.mem := rfl
@[simp] theorem State.complete_coef (s : State) (c : Code) (info : Word) : (s.complete c info).coef = s.coef := rfl
@[simp] theorem State.complete_kc (s : State) (c : Code) (info : Word) : (s.complete c info).kc = s.kc := rfl
@[simp] theorem State.complete_cfg (s : State) (c : Code) (info : Word) : (s.complete c info).cfg = s.cfg := rfl
@[simp] theorem State.complete_turns (s : State) (c : Code) (info : Word) : (s.complete c info).turns = s.turns := rfl
@[simp] theorem State.complete_program (s : State) (c : Code) (info : Word) : (s.complete c info).program = s.program := rfl
@[simp] theorem State.complete_entropy (s : State) (c : Code) (info : Word) : (s.complete c info).entropy = s.entropy := rfl
@[simp] theorem State.complete_response (s : State) (c : Code) (info : Word) : (s.complete c info).response = s.response := rfl

@[simp] theorem State.deliver_f (s : State) (raw : FieldWord) : (s.deliver raw).f = s.f := rfl
@[simp] theorem State.deliver_status (s : State) (raw : FieldWord) : (s.deliver raw).status = s.status := rfl
@[simp] theorem State.deliver_cmdreg (s : State) (raw : FieldWord) : (s.deliver raw).cmdreg = s.cmdreg := rfl
@[simp] theorem State.deliver_errinfo (s : State) (raw : FieldWord) : (s.deliver raw).errinfo = s.errinfo := rfl
@[simp] theorem State.deliver_nreg (s : State) (raw : FieldWord) : (s.deliver raw).nreg = s.nreg := rfl
@[simp] theorem State.deliver_kreg (s : State) (raw : FieldWord) : (s.deliver raw).kreg = s.kreg := rfl
@[simp] theorem State.deliver_len (s : State) (raw : FieldWord) : (s.deliver raw).len = s.len := rfl
@[simp] theorem State.deliver_scnt (s : State) (raw : FieldWord) : (s.deliver raw).scnt = s.scnt := rfl
@[simp] theorem State.deliver_mem (s : State) (raw : FieldWord) : (s.deliver raw).mem = s.mem := rfl
@[simp] theorem State.deliver_coef (s : State) (raw : FieldWord) : (s.deliver raw).coef = s.coef := rfl
@[simp] theorem State.deliver_kc (s : State) (raw : FieldWord) : (s.deliver raw).kc = s.kc := rfl
@[simp] theorem State.deliver_cfg (s : State) (raw : FieldWord) : (s.deliver raw).cfg = s.cfg := rfl
@[simp] theorem State.deliver_turns (s : State) (raw : FieldWord) : (s.deliver raw).turns = s.turns := rfl
@[simp] theorem State.deliver_program (s : State) (raw : FieldWord) : (s.deliver raw).program = s.program := rfl
@[simp] theorem State.deliver_entropy (s : State) (raw : FieldWord) : (s.deliver raw).entropy = s.entropy ++ [raw] := rfl
@[simp] theorem State.deliver_response (s : State) (raw : FieldWord) : (s.deliver raw).response = s.response := rfl

@[simp] theorem State.placeCommand_f (s : State) (v : Word) : (s.placeCommand v).f = s.f := rfl
@[simp] theorem State.placeCommand_status (s : State) (v : Word) : (s.placeCommand v).status = Status.accepted := rfl
@[simp] theorem State.placeCommand_cmdreg (s : State) (v : Word) : (s.placeCommand v).cmdreg = v := rfl
@[simp] theorem State.placeCommand_errinfo (s : State) (v : Word) : (s.placeCommand v).errinfo = 0 := rfl
@[simp] theorem State.placeCommand_nreg (s : State) (v : Word) : (s.placeCommand v).nreg = s.nreg := rfl
@[simp] theorem State.placeCommand_kreg (s : State) (v : Word) : (s.placeCommand v).kreg = s.kreg := rfl
@[simp] theorem State.placeCommand_len (s : State) (v : Word) : (s.placeCommand v).len = s.len := rfl
@[simp] theorem State.placeCommand_scnt (s : State) (v : Word) : (s.placeCommand v).scnt = s.scnt := rfl
@[simp] theorem State.placeCommand_mem (s : State) (v : Word) : (s.placeCommand v).mem = s.mem := rfl
@[simp] theorem State.placeCommand_coef (s : State) (v : Word) : (s.placeCommand v).coef = s.coef := rfl
@[simp] theorem State.placeCommand_kc (s : State) (v : Word) : (s.placeCommand v).kc = s.kc := rfl
@[simp] theorem State.placeCommand_cfg (s : State) (v : Word) : (s.placeCommand v).cfg = s.cfg := rfl
@[simp] theorem State.placeCommand_turns (s : State) (v : Word) : (s.placeCommand v).turns = .unit :: s.turns := rfl
@[simp] theorem State.placeCommand_program (s : State) (v : Word) : (s.placeCommand v).program = s.program := rfl
@[simp] theorem State.placeCommand_entropy (s : State) (v : Word) : (s.placeCommand v).entropy = s.entropy := rfl
@[simp] theorem State.placeCommand_response (s : State) (v : Word) : (s.placeCommand v).response = s.response := rfl

@[simp] theorem State.applyReset_f (s : State) : s.applyReset.f = Vector.replicate 16 0 := rfl
@[simp] theorem State.applyReset_status (s : State) : s.applyReset.status = Status.cleared := rfl
@[simp] theorem State.applyReset_cmdreg (s : State) : s.applyReset.cmdreg = 0 := rfl
@[simp] theorem State.applyReset_errinfo (s : State) : s.applyReset.errinfo = 0 := rfl
@[simp] theorem State.applyReset_nreg (s : State) : s.applyReset.nreg = 0 := rfl
@[simp] theorem State.applyReset_kreg (s : State) : s.applyReset.kreg = 0 := rfl
@[simp] theorem State.applyReset_len (s : State) : s.applyReset.len = 0 := rfl
@[simp] theorem State.applyReset_scnt (s : State) : s.applyReset.scnt = 0 := rfl
@[simp] theorem State.applyReset_mem (s : State) : s.applyReset.mem = Memory.unwritten := rfl
@[simp] theorem State.applyReset_coef (s : State) : s.applyReset.coef = List.replicate s.cfg.sMax 0 := rfl
@[simp] theorem State.applyReset_kc (s : State) : s.applyReset.kc = 0 := rfl
@[simp] theorem State.applyReset_cfg (s : State) : s.applyReset.cfg = s.cfg := rfl
@[simp] theorem State.applyReset_turns (s : State) : s.applyReset.turns = s.turns := rfl
@[simp] theorem State.applyReset_program (s : State) : s.applyReset.program = s.program := rfl
@[simp] theorem State.applyReset_entropy (s : State) : s.applyReset.entropy = s.entropy := rfl
@[simp] theorem State.applyReset_response (s : State) : s.applyReset.response = s.response := rfl

end Sys2Proof.Machine
end

