-- ==== Sys2Proof/Laws/Commands.lean ====
section
/-! SUPPORT. What the shared operations of the commands can do, said once for each: how a rule ends, the checks,
the operands, the draws, and the range of the field operations. -/

namespace Sys2Proof.Machine

/-! ## How a rule ends -/

@[simp] theorem check_bind_ok {α β : Type} (a : α) (f : α → Check β) :
    (Except.ok a >>= f : Check β) = f a := rfl

@[simp] theorem check_bind_error {α β : Type} (e : Stop) (f : α → Check β) :
    (Except.error e >>= f : Check β) = .error e := rfl

/-- A rule that gets through got through its first part and then through the rest. -/
theorem check_bind_eq_ok {α β : Type} {x : Check α} {f : α → Check β} {b : β} :
    x >>= f = .ok b ↔ ∃ a, x = .ok a ∧ f a = .ok b := by
  cases x <;> simp

/-- A rule that ends early ended in its first part or in the rest. -/
theorem check_bind_eq_error {α β : Type} {x : Check α} {f : α → Check β} {e : Stop} :
    x >>= f = .error e ↔ x = .error e ∨ ∃ a, x = .ok a ∧ f a = .error e := by
  cases x <;> simp

@[simp] theorem finish_ok (s t : State) : finish s (.ok t) = .next (t.complete .ok 0) := rfl

@[simp] theorem finish_raise (s : State) (c : Code) (info : Word) :
    finish s (.error (.raise c info)) = .next (s.complete c info) := rfl

@[simp] theorem finish_fault (s : State) (r : Fault) : finish s (.error (.fault r)) = .fault r := rfl

@[simp] theorem finish_wait (s : State) : finish s (.error .wait) = .next s := rfl

/-- A command that takes a next state completed with OK, or raised, or waits (spec/60_exceptions.md R224). -/
theorem finish_next {s t : State} {body : Check State} (h : finish s body = .next t) :
    (∃ u, body = .ok u ∧ t = u.complete .ok 0)
      ∨ (∃ c info, body = .error (.raise c info) ∧ t = s.complete c info)
      ∨ (body = .error .wait ∧ t = s) := by
  match body, h with
  | .ok u, h => cases h; exact .inl ⟨u, rfl, rfl⟩
  | .error (.raise c info), h => cases h; exact .inr (.inl ⟨c, info, rfl, rfl⟩)
  | .error .wait, h => cases h; exact .inr (.inr ⟨rfl, rfl⟩)

/-- A command that faults met the fault in its rule. -/
theorem finish_eq_fault {s : State} {body : Check State} {r : Fault} :
    finish s body = .fault r ↔ body = .error (.fault r) := by
  match body with
  | .ok u => simp
  | .error (.raise c info) => simp
  | .error (.fault r') => simp
  | .error .wait => simp

/-- No command is refused. -/
theorem finish_not_refused (s : State) (body : Check State) (r : Refusal) :
    finish s body ≠ .refused r := by
  match body with
  | .ok u => simp
  | .error (.raise c info) => simp
  | .error (.fault r') => simp
  | .error .wait => simp

/-! ## Checks -/

theorem raiseIf_pos {p : Prop} [Decidable p] (h : p) (c : Code) (info : Word) :
    raiseIf p c info = .error (.raise c info) := if_pos h

theorem raiseIf_neg {p : Prop} [Decidable p] (h : ¬p) (c : Code) (info : Word) :
    raiseIf p c info = .ok () := if_neg h

@[simp] theorem raiseIf_eq_ok {p : Prop} [Decidable p] {c : Code} {info : Word} {u : Unit} :
    raiseIf p c info = .ok u ↔ ¬p := by
  unfold raiseIf
  split <;> simp [*]

@[simp] theorem raiseIf_eq_error {p : Prop} [Decidable p] {c : Code} {info : Word} {e : Stop} :
    raiseIf p c info = .error e ↔ p ∧ e = .raise c info := by
  unfold raiseIf
  split <;> simp [*, eq_comm]

@[simp] theorem written_some {α : Type} (e : Elem) (v : α) : written e (some v) = .ok v := rfl

@[simp] theorem written_none {α : Type} (e : Elem) :
    written e (none : Option α) = .error (.fault (.unwritten e)) := rfl

@[simp] theorem written_eq_ok {α : Type} {e : Elem} {o : Option α} {v : α} :
    written e o = .ok v ↔ o = some v := by
  cases o <;> simp

@[simp] theorem written_eq_error {α : Type} {e : Elem} {o : Option α} {st : Stop} :
    written e o = .error st ↔ o = none ∧ st = .fault (.unwritten e) := by
  cases o <;> simp [eq_comm]

/-! ## Reading several elements -/

theorem gather_of_ok {α : Type} (g : Nat → Check α) (v : Nat → α) (is : List Nat)
    (h : ∀ i ∈ is, g i = .ok (v i)) : gather g is = .ok (is.map v) := by
  induction is with
  | nil => rfl
  | cons i rest ih =>
    simp [gather, h i (by simp), ih fun j hj => h j (by simp [hj])]

theorem gather_eq_ok {α : Type} {g : Nat → Check α} {is : List Nat} {as : List α}
    (h : gather g is = .ok as) :
    as.length = is.length ∧ ∀ d (hd : d < is.length) (hd' : d < as.length), g is[d] = .ok as[d] := by
  induction is generalizing as with
  | nil => cases h; simp
  | cons i rest ih =>
    simp only [gather] at h
    split at h
    · cases h
    · next a ha =>
      split at h
      · cases h
      · next bs hbs =>
        cases h
        obtain ⟨hl, hr⟩ := ih hbs
        refine ⟨by simp [hl], fun d hd hd' => ?_⟩
        cases d with
        | zero => exact ha
        | succ d => exact hr d (by simpa using hd) (by simpa using hd')

/-- A run of reads that ends early ended at some index, every earlier one having got through. -/
theorem gather_eq_error {α : Type} {g : Nat → Check α} {is : List Nat} {e : Stop}
    (h : gather g is = .error e) : ∃ i ∈ is, g i = .error e := by
  induction is with
  | nil => cases h
  | cons i rest ih =>
    simp only [gather] at h
    split at h
    · next e' he => cases h; exact ⟨i, by simp, he⟩
    · split at h
      · next e' he =>
        cases h
        obtain ⟨j, hj, hg⟩ := ih he
        exact ⟨j, by simp [hj], hg⟩
      · cases h

/-- Reads that all get through give a list of values. -/
theorem gather_exists {α : Type} {g : Nat → Check α} {is : List Nat}
    (h : ∀ i ∈ is, ∃ v, g i = .ok v) : ∃ as, gather g is = .ok as := by
  induction is with
  | nil => exact ⟨[], rfl⟩
  | cons i rest ih =>
    obtain ⟨v, hv⟩ := h i (by simp)
    obtain ⟨as, has⟩ := ih fun j hj => h j (by simp [hj])
    exact ⟨v :: as, by simp [gather, hv, has]⟩

/-- The first read that ends the command decides how it ends (spec/00_scope.md R15). -/
theorem gather_first_error {α : Type} {g : Nat → Check α} {before after : List Nat} {i : Nat}
    {e : Stop} (h : ∀ j ∈ before, ∃ v, g j = .ok v) (hi : g i = .error e) :
    gather g (before ++ i :: after) = .error e := by
  induction before with
  | nil => simp [gather, hi]
  | cons j rest ih =>
    obtain ⟨v, hv⟩ := h j (by simp)
    simp [gather, hv, ih fun k hk => h k (by simp [hk])]

theorem range_split {m i : Nat} (h : i < m) :
    List.range m = List.range i ++ i :: List.range' (i + 1) (m - (i + 1)) := by
  rw [List.range_eq_range', List.range_eq_range', ← List.range'_succ]
  have hs := List.range'_append_1 (s := 0) (m := i) (n := m - (i + 1) + 1)
  rw [Nat.zero_add] at hs
  rw [hs]
  congr 1
  omega

theorem gather_range_error {α : Type} {g : Nat → Check α} {m i : Nat} {e : Stop} (hi : i < m)
    (h : ∀ j < i, ∃ v, g j = .ok v) (he : g i = .error e) :
    gather g (List.range m) = .error e := by
  rw [range_split hi]
  exact gather_first_error (fun j hj => h j (by simpa using hj)) he

/-! ## Operands -/

theorem canonical_iff (v : FieldWord) : canonical v = true ↔ v.toNat ≤ 256 := by simp [canonical]

theorem canonical_false_iff (v : FieldWord) : canonical v = false ↔ 256 < v.toNat := by
  simp [canonical]

/-- A field operand is the register's value, or raises (spec/10_state.md R23). -/
theorem fieldOperand_ok {s : State} {r : Reg} (h : canonical (s.readF r) = true) :
    fieldOperand s r = .ok (s.readF r) := by
  simp [fieldOperand, raiseIf, h]

theorem fieldOperand_raise {s : State} {r : Reg} (h : canonical (s.readF r) = false) :
    fieldOperand s r = .error (.raise .operandRange (regInfo r)) := by
  simp [fieldOperand, raiseIf, h]

theorem fieldOperand_eq_ok {s : State} {r : Reg} {v : FieldWord} :
    fieldOperand s r = .ok v ↔ canonical (s.readF r) = true ∧ v = s.readF r := by
  cases h : canonical (s.readF r)
  · simp [fieldOperand_raise h]
  · simp [fieldOperand_ok h, eq_comm]

theorem fieldOperand_eq_error {s : State} {r : Reg} {e : Stop} :
    fieldOperand s r = .error e ↔
      canonical (s.readF r) = false ∧ e = .raise .operandRange (regInfo r) := by
  cases h : canonical (s.readF r)
  · simp [fieldOperand_raise h, eq_comm]
  · simp [fieldOperand_ok h]

@[simp] theorem State.readF_writeF_same (s : State) (r : Reg) (v : FieldWord) :
    (s.writeF r v).readF r = v := by
  simp [State.readF]

theorem State.readF_writeF_other (s : State) {r r' : Reg} (v : FieldWord) (h : r' ≠ r) :
    (s.writeF r v).readF r' = s.readF r' := by
  have h' : r.toNat ≠ r'.toNat := fun e => h (BitVec.eq_of_toNat_eq e.symm)
  simp [State.readF, h']

/-! ## Draws -/

/-- What a sequence of draws takes: the accepted words of a front part of the raw words, as many as were asked
for, in order (spec/41_coefficient_poly.md R151, R152). -/
theorem takeDraws_some {n : Nat} {raw ds left : List FieldWord}
    (h : takeDraws n raw = some (ds, left)) :
    ds.length = n ∧ (∀ d ∈ ds, canonical d = true)
      ∧ ∃ front, raw = front ++ left ∧ ds = front.filter canonical := by
  induction raw generalizing n ds with
  | nil =>
    cases n with
    | zero => cases h; exact ⟨rfl, by simp, [], rfl, rfl⟩
    | succ n => simp [takeDraws] at h
  | cons r rest ih =>
    cases n with
    | zero => cases h; exact ⟨rfl, by simp, [], rfl, rfl⟩
    | succ n =>
      simp only [takeDraws] at h
      split at h
      · next hr =>
        split at h
        · next ds' left' hds =>
          cases h
          obtain ⟨hl, hc, front, hf, hd⟩ := ih hds
          refine ⟨by simp [hl], by simpa [hr] using hc, r :: front, by simp [hf], by simp [hr, hd]⟩
        · cases h
      · next hr =>
        obtain ⟨hl, hc, front, hf, hd⟩ := ih h
        exact ⟨hl, hc, r :: front, by simp [hf], by simp [hr, hd]⟩

/-- The last raw word that a sequence of draws takes is the one its last draw accepted. -/
theorem takeDraws_ends_accepted {n : Nat} {raw ds left : List FieldWord}
    (h : takeDraws n raw = some (ds, left)) :
    ∃ front, raw = front ++ left ∧ ds = front.filter canonical
      ∧ (front = [] ∨ ∃ r, front.getLast? = some r ∧ canonical r = true) := by
  induction raw generalizing n ds with
  | nil =>
    cases n with
    | zero => cases h; exact ⟨[], rfl, rfl, .inl rfl⟩
    | succ n => simp [takeDraws] at h
  | cons r rest ih =>
    cases n with
    | zero => cases h; exact ⟨[], rfl, rfl, .inl rfl⟩
    | succ n =>
      simp only [takeDraws] at h
      split at h
      · next hr =>
        split at h
        · next ds' left' hds =>
          cases h
          obtain ⟨front, hf, hd, hl⟩ := ih hds
          refine ⟨r :: front, by simp [hf], by simp [hr, hd], .inr ?_⟩
          rcases hl with rfl | ⟨q, hq, hc⟩
          · exact ⟨r, rfl, hr⟩
          · exact ⟨q, by rw [List.getLast?_cons, hq]; rfl, hc⟩
        · cases h
      · next hr =>
        have hn := (takeDraws_some h).1
        obtain ⟨front, hf, hd, hl⟩ := ih h
        refine ⟨r :: front, by simp [hf], by simp [hr, hd], .inr ?_⟩
        rcases hl with rfl | ⟨q, hq, hc⟩
        · simp [hd] at hn
        · exact ⟨q, by rw [List.getLast?_cons, hq]; rfl, hc⟩

/-- The draws can be made exactly when enough acceptable words have been answered. -/
theorem takeDraws_isSome (n : Nat) (raw : List FieldWord) :
    (takeDraws n raw).isSome = true ↔ n ≤ (raw.filter canonical).length := by
  induction raw generalizing n with
  | nil => cases n <;> simp [takeDraws]
  | cons r rest ih =>
    cases n with
    | zero => simp [takeDraws]
    | succ n =>
      simp only [takeDraws]
      split
      · next hr =>
        have := ih n
        cases ht : takeDraws n rest <;> simp_all
      · next hr =>
        rw [ih (n + 1)]
        simp [hr]

theorem sample_eq_ok {s : State} {n : Nat} {r : List FieldWord × List FieldWord} :
    sample s n = .ok r ↔ takeDraws n s.entropy = some r := by
  unfold sample
  split <;> simp [*]

theorem sample_eq_error {s : State} {n : Nat} {e : Stop} :
    sample s n = .error e ↔ takeDraws n s.entropy = none ∧ e = .wait := by
  unfold sample
  split <;> simp [*, eq_comm]

/-! ## Field operations -/

theorem addP_lt (a b : Nat) : addP a b < 257 := Nat.mod_lt _ (by decide)

theorem mulP_lt (a b : Nat) : mulP a b < 257 := Nat.mod_lt _ (by decide)

theorem powP_lt (a e : Nat) : powP a e < 257 := Nat.mod_lt _ (by decide)

theorem invP_lt (a : Nat) : invP a < 257 := powP_lt _ _

theorem subP_lt (a b : Nat) : subP a b < 257 := by
  unfold subP prime
  omega

theorem subP_of_le {a b : Nat} (hb : b ≤ 257) : subP a b = (a + (257 - b)) % 257 := by
  unfold subP prime
  omega

theorem polyVal_lt (cs : List FieldWord) (x : Nat) : polyVal cs x < 257 := Nat.mod_lt _ (by decide)

theorem interpolate_lt (ws : List Nat) (ys : List FieldWord) : interpolate ws ys < 257 :=
  Nat.mod_lt _ (by decide)

theorem basis_lt (xs : List FieldWord) (i : Nat) : basis xs i < 257 := by
  unfold basis
  generalize (List.range xs.length).filter _ = js
  cases js with
  | nil => simp
  | cons j js => exact mulP_lt _ _

/-- A field result is stored without loss and is canonical. -/
theorem toNat_ofNat_field {v : Nat} (h : v < 257) : (BitVec.ofNat 9 v).toNat = v :=
  Nat.mod_eq_of_lt (by omega)

theorem canonical_ofNat {v : Nat} (h : v < 257) : canonical (BitVec.ofNat 9 v) = true := by
  rw [canonical_iff, toNat_ofNat_field h]
  omega

end Sys2Proof.Machine
end

