-- ==== Sys2Proof/Laws/Exec.lean ====
section
/-! SUPPORT. What the rule of each command answers when it gets through, how each can end early, and what no
command touches: cited by the proofs instead of unfolding the meanings. -/

namespace Sys2Proof.Machine

/-! ## Rules that get through -/

theorem binaryFieldRule_eq_ok {op : Nat → Nat → Nat} {rd rs1 rs2 : Reg} {s u : State} :
    binaryFieldRule op rd rs1 rs2 s = .ok u ↔
      canonical (s.readF rs1) = true ∧ canonical (s.readF rs2) = true
        ∧ u = s.writeF rd (BitVec.ofNat 9 (op (s.readF rs1).toNat (s.readF rs2).toNat)) := by
  simp only [binaryFieldRule, check_bind_eq_ok, fieldOperand_eq_ok]
  constructor
  · rintro ⟨a, ⟨ha, rfl⟩, b, ⟨hb, rfl⟩, h⟩
    exact ⟨ha, hb, by cases h; rfl⟩
  · rintro ⟨ha, hb, rfl⟩
    exact ⟨_, ⟨ha, rfl⟩, _, ⟨hb, rfl⟩, rfl⟩

theorem finvRule_eq_ok {rd rs1 : Reg} {s u : State} :
    finvRule rd rs1 s = .ok u ↔
      canonical (s.readF rs1) = true ∧ s.readF rs1 ≠ 0
        ∧ u = s.writeF rd (BitVec.ofNat 9 (invP (s.readF rs1).toNat)) := by
  simp only [finvRule, check_bind_eq_ok, fieldOperand_eq_ok, raiseIf_eq_ok]
  constructor
  · rintro ⟨a, ⟨ha, rfl⟩, -, hz, h⟩
    exact ⟨ha, hz, by cases h; rfl⟩
  · rintro ⟨ha, hz, rfl⟩
    exact ⟨_, ⟨ha, rfl⟩, (), hz, rfl⟩

theorem cgenRule_eq_ok {rs1 : Reg} {s u : State} :
    cgenRule rs1 s = .ok u ↔
      2 ≤ s.kreg.toNat ∧ s.kreg.toNat ≤ s.cfg.sMax ∧ canonical (s.readF rs1) = true
        ∧ ∃ ds left, takeDraws (s.kreg.toNat - 1) s.entropy = some (ds, left)
          ∧ u = (s.setEntropy left).setPoly (s.readF rs1 :: ds) s.kreg := by
  simp only [cgenRule, check_bind_eq_ok, fieldOperand_eq_ok, raiseIf_eq_ok, sample_eq_ok]
  constructor
  · rintro ⟨-, h1, -, h2, c, ⟨hc, rfl⟩, ⟨ds, left⟩, hd, h⟩
    exact ⟨by omega, by omega, hc, ds, left, hd, by cases h; rfl⟩
  · rintro ⟨h1, h2, hc, ds, left, hd, rfl⟩
    exact ⟨(), by omega, (), by omega, _, ⟨hc, rfl⟩, (ds, left), hd, rfl⟩

theorem pevalRule_eq_ok {rd rs1 : Reg} {s u : State} :
    pevalRule rd rs1 s = .ok u ↔
      canonical (s.readF rs1) = true ∧ s.readF rs1 ≠ 0
        ∧ u = s.writeF rd
          (BitVec.ofNat 9 (polyVal (s.coef.take s.kc.toNat) (s.readF rs1).toNat)) := by
  simp only [pevalRule, check_bind_eq_ok, fieldOperand_eq_ok, raiseIf_eq_ok]
  constructor
  · rintro ⟨a, ⟨ha, rfl⟩, -, hz, h⟩
    exact ⟨ha, hz, by cases h; rfl⟩
  · rintro ⟨ha, hz, rfl⟩
    exact ⟨_, ⟨ha, rfl⟩, (), hz, rfl⟩

theorem checkSplit_eq_ok {cfg : Params} {l n k : Nat} {v : Unit} :
    checkSplit cfg l n k = .ok v ↔
      l ≠ 0 ∧ 2 ≤ n ∧ 2 ≤ k ∧ k ≤ n ∧ n ≤ cfg.sMax ∧ l ≤ cfg.lMax := by
  simp only [checkSplit, check_bind_eq_ok, raiseIf_eq_ok]
  constructor
  · rintro ⟨-, h1, -, h2, -, h3, -, h4, -, h5, h6⟩
    omega
  · rintro ⟨h1, h2, h3, h4, h5, h6⟩
    exact ⟨(), h1, (), by omega, (), by omega, (), by omega, (), by omega, by omega⟩

theorem splitRule_eq_ok {s u : State} :
    splitRule s = .ok u ↔
      (s.len.toNat ≠ 0 ∧ 2 ≤ s.nreg.toNat ∧ 2 ≤ s.kreg.toNat ∧ s.kreg.toNat ≤ s.nreg.toNat
        ∧ s.nreg.toNat ≤ s.cfg.sMax ∧ s.len.toNat ≤ s.cfg.lMax)
        ∧ ∃ b ds left, gather (readSecret s) (List.range s.len.toNat) = .ok b
          ∧ takeDraws (s.len.toNat * (s.kreg.toNat - 1)) s.entropy = some (ds, left)
          ∧ u = ((s.setEntropy left).setMem
            (writeShares s.mem s.nreg.toNat s.len (splitPolys (s.kreg.toNat - 1) b ds))).clearPoly := by
  simp only [splitRule, check_bind_eq_ok, checkSplit_eq_ok, sample_eq_ok]
  constructor
  · rintro ⟨-, hc, b, hb, ⟨ds, left⟩, hd, h⟩
    exact ⟨hc, b, ds, left, hb, hd, by cases h; rfl⟩
  · rintro ⟨hc, b, ds, left, hb, hd, rfl⟩
    exact ⟨(), hc, b, hb, (ds, left), hd, rfl⟩

theorem checkCount_eq_ok {cfg : Params} {m : Nat} {v : Unit} :
    checkCount cfg m = .ok v ↔ 1 ≤ m ∧ m ≤ cfg.sMax := by
  simp only [checkCount, check_bind_eq_ok, raiseIf_eq_ok]
  constructor
  · rintro ⟨-, h1, h2⟩
    omega
  · rintro ⟨h1, h2⟩
    exact ⟨(), by omega, by omega⟩

theorem lbasisRule_eq_ok {s u : State} :
    lbasisRule s = .ok u ↔
      (1 ≤ s.scnt.toNat ∧ s.scnt.toNat ≤ s.cfg.sMax)
        ∧ ∃ xs, checkX s s.scnt.toNat = .ok xs ∧ u = s.setMem (writeWeights s.mem (weights xs)) := by
  simp only [lbasisRule, check_bind_eq_ok, checkCount_eq_ok]
  constructor
  · rintro ⟨-, hc, xs, hx, h⟩
    exact ⟨hc, xs, hx, by cases h; rfl⟩
  · rintro ⟨hc, xs, hx, rfl⟩
    exact ⟨(), hc, xs, hx, rfl⟩

theorem reconRule_eq_ok {s u : State} :
    reconRule s = .ok u ↔
      (1 ≤ s.scnt.toNat ∧ s.scnt.toNat ≤ s.cfg.sMax)
        ∧ ∃ l xs rows, checkLen s s.scnt.toNat = .ok l ∧ checkX s s.scnt.toNat = .ok xs
          ∧ checkY s s.scnt.toNat l.toNat = .ok rows
          ∧ u = (s.setMem (writeSecret (writeWeights s.mem (weights xs))
            (recovered (weights xs) rows l.toNat))).setLen l := by
  simp only [reconRule, check_bind_eq_ok, checkCount_eq_ok]
  constructor
  · rintro ⟨-, hc, l, hl, xs, hx, rows, hy, h⟩
    exact ⟨hc, l, xs, rows, hl, hx, hy, by cases h; rfl⟩
  · rintro ⟨hc, l, xs, rows, hl, hx, hy, rfl⟩
    exact ⟨(), hc, l, hl, xs, hx, rows, hy, rfl⟩

/-! ## Checked elements -/

theorem checkedX_eq_ok {s : State} {i : Nat} {x : FieldWord} :
    checkedX s i = .ok x ↔ s.mem.x.read i = some x ∧ x ≠ 0 ∧ canonical x = true := by
  simp only [checkedX, readX, check_bind_eq_ok, written_eq_ok, raiseIf_eq_ok]
  constructor
  · rintro ⟨y, hy, -, hc, h⟩
    cases h
    simp only [not_or, Bool.not_eq_false] at hc
    exact ⟨hy, hc.1, hc.2⟩
  · rintro ⟨hy, h0, hc⟩
    exact ⟨x, hy, (), not_or.mpr ⟨h0, by simp [hc]⟩, rfl⟩

theorem checkedSlen_eq_ok {s : State} {l n : BitVec 16} {i : Nat} :
    checkedSlen s l i = .ok n ↔ s.mem.slen.read i = some l ∧ n = l := by
  simp only [checkedSlen, readSlen, check_bind_eq_ok, written_eq_ok, raiseIf_eq_ok]
  constructor
  · rintro ⟨y, hy, -, hc, h⟩
    cases h
    simp only [not_not] at hc
    subst hc
    exact ⟨hy, rfl⟩
  · rintro ⟨hy, rfl⟩
    exact ⟨n, hy, (), by simp, rfl⟩

theorem checkedY_eq_ok {s : State} {i p : Nat} {y : FieldWord} :
    checkedY s i p = .ok y ↔ s.mem.y.read (yKey i p) = some y ∧ canonical y = true := by
  simp only [checkedY, readY, check_bind_eq_ok, written_eq_ok, raiseIf_eq_ok]
  constructor
  · rintro ⟨z, hz, -, hc, h⟩
    cases h
    exact ⟨hz, by simpa using hc⟩
  · rintro ⟨hz, hc⟩
    exact ⟨y, hz, (), by simp [hc], rfl⟩

/-- The values that a run of reads over 0..m-1 gathers. -/
theorem gather_range_eq_ok {α : Type} {g : Nat → Check α} {m : Nat} {as : List α}
    (h : gather g (List.range m) = .ok as) :
    as.length = m ∧ ∀ d (hd : d < as.length), g d = .ok as[d] := by
  obtain ⟨hl, hr⟩ := gather_eq_ok h
  simp only [List.length_range] at hl
  refine ⟨hl, fun d hd => ?_⟩
  have := hr d (by simpa using hl ▸ hd) hd
  rwa [List.getElem_range] at this

theorem checkX_eq_ok {s : State} {m : Nat} {xs : List FieldWord} (h : checkX s m = .ok xs) :
    xs.length = m
      ∧ (∀ i (hi : i < xs.length),
        s.mem.x.read i = some xs[i] ∧ xs[i] ≠ 0 ∧ canonical xs[i] = true)
      ∧ checkDistinct xs = .ok () := by
  simp only [checkX, check_bind_eq_ok] at h
  obtain ⟨ys, hy, _, hd, h⟩ := h
  cases h
  obtain ⟨hl, hr⟩ := gather_range_eq_ok hy
  exact ⟨hl, fun i hi => checkedX_eq_ok.mp (hr i hi), hd⟩

theorem checkLen_eq_ok {s : State} {m : Nat} {l : BitVec 16} (h : checkLen s m = .ok l) :
    s.mem.slen.read 0 = some l ∧ (∀ i, 1 ≤ i → i < m → s.mem.slen.read i = some l)
      ∧ l.toNat ≤ s.cfg.lMax := by
  simp only [checkLen, readSlen, check_bind_eq_ok, written_eq_ok, raiseIf_eq_ok] at h
  obtain ⟨l', h0, ns, hg, -, hc, h⟩ := h
  cases h
  refine ⟨h0, fun i h1 hm => ?_, by omega⟩
  obtain ⟨hl, hr⟩ := gather_eq_ok hg
  have hi : i - 1 < (List.range' 1 (m - 1)).length := by simp; omega
  have := hr (i - 1) hi (hl ▸ hi)
  rw [List.getElem_range'] at this
  have e : 1 + 1 * (i - 1) = i := by omega
  rw [e] at this
  exact (checkedSlen_eq_ok.mp this).1

theorem checkY_eq_ok {s : State} {m l : Nat} {rows : List (List FieldWord)}
    (h : checkY s m l = .ok rows) :
    rows.length = m
      ∧ ∀ i (hi : i < rows.length), rows[i].length = l
        ∧ ∀ p (hp : p < rows[i].length),
          s.mem.y.read (yKey i p) = some rows[i][p] ∧ canonical rows[i][p] = true := by
  obtain ⟨hl, hr⟩ := gather_range_eq_ok h
  refine ⟨hl, fun i hi => ?_⟩
  obtain ⟨hl', hr'⟩ := gather_range_eq_ok (hr i hi)
  exact ⟨hl', fun p hp => checkedY_eq_ok.mp (hr' p hp)⟩

/-! ## What no command touches -/

/-- The rule of a command, from s. -/
def ruleOf (i : Instr) (s : State) : Check State :=
  match i with
  | .fadd rd rs1 rs2 => binaryFieldRule addP rd rs1 rs2 s
  | .fsub rd rs1 rs2 => binaryFieldRule subP rd rs1 rs2 s
  | .fmul rd rs1 rs2 => binaryFieldRule mulP rd rs1 rs2 s
  | .fpow rd rs1 rs2 => binaryFieldRule powP rd rs1 rs2 s
  | .finv rd rs1 => finvRule rd rs1 s
  | .fldi rd imm => .ok (s.writeF rd imm)
  | .cgen rs1 => cgenRule rs1 s
  | .peval rd rs1 => pevalRule rd rs1 s
  | .pclr => .ok s.clearPoly
  | .lbasis => lbasisRule s
  | .split => splitRule s
  | .recon => reconRule s

/-- Every command is its rule, finished (spec/10_state.md R24). -/
theorem exec_eq_finish (i : Instr) (s : State) : exec i s = finish s (ruleOf i s) := by
  cases i <;> rfl

/-- A rule that gets through leaves STATUS, ERRINFO, CMDREG, the host's control registers but LEN, the
constants and the other agents' moves alone. -/
theorem ruleOf_ok_surround {i : Instr} {s u : State} (h : ruleOf i s = .ok u) :
    u.status = s.status ∧ u.errinfo = s.errinfo ∧ u.cmdreg = s.cmdreg ∧ u.nreg = s.nreg
      ∧ u.kreg = s.kreg ∧ u.scnt = s.scnt ∧ u.cfg = s.cfg ∧ u.turns = s.turns
      ∧ u.program = s.program ∧ u.response = s.response := by
  cases i <;> simp only [ruleOf] at h
  case fadd => obtain ⟨-, -, rfl⟩ := binaryFieldRule_eq_ok.mp h; simp
  case fsub => obtain ⟨-, -, rfl⟩ := binaryFieldRule_eq_ok.mp h; simp
  case fmul => obtain ⟨-, -, rfl⟩ := binaryFieldRule_eq_ok.mp h; simp
  case fpow => obtain ⟨-, -, rfl⟩ := binaryFieldRule_eq_ok.mp h; simp
  case finv => obtain ⟨-, -, rfl⟩ := finvRule_eq_ok.mp h; simp
  case fldi => cases h; simp
  case cgen => obtain ⟨-, -, -, ds, left, -, rfl⟩ := cgenRule_eq_ok.mp h; simp
  case peval => obtain ⟨-, -, rfl⟩ := pevalRule_eq_ok.mp h; simp
  case pclr => cases h; simp
  case lbasis => obtain ⟨-, xs, -, rfl⟩ := lbasisRule_eq_ok.mp h; simp
  case split => obtain ⟨-, b, ds, left, -, -, rfl⟩ := splitRule_eq_ok.mp h; simp
  case recon => obtain ⟨-, l, xs, rows, -, -, -, rfl⟩ := reconRule_eq_ok.mp h; simp

/-- Only the sampling commands wait (spec/60_exceptions.md R229). -/
theorem ruleOf_wait {i : Instr} {s : State} (h : ruleOf i s = .error .wait) :
    (∃ rs1, i = .cgen rs1) ∨ i = .split := by
  have hX : ∀ m, checkX s m ≠ .error .wait := by
    intro m hx
    simp only [checkX, check_bind_eq_error, checkDistinct] at hx
    rcases hx with hx | ⟨xs, -, hx | ⟨-, -, hx⟩⟩
    · obtain ⟨j, -, hj⟩ := gather_eq_error hx
      simp [checkedX, readX, check_bind_eq_error] at hj
    · split at hx <;> cases hx
    · cases hx
  have hC : ∀ m, checkCount s.cfg m ≠ .error .wait := by
    intro m hx
    simp [checkCount, check_bind_eq_error] at hx
  cases i <;> simp only [ruleOf] at h
  case cgen rs1 => exact .inl ⟨rs1, rfl⟩
  case split => exact .inr rfl
  case lbasis =>
    simp only [lbasisRule, check_bind_eq_error] at h
    rcases h with h | ⟨-, -, h | ⟨xs, -, h⟩⟩
    · exact absurd h (hC _)
    · exact absurd h (hX _)
    · cases h
  case recon =>
    simp only [reconRule, check_bind_eq_error] at h
    rcases h with h | ⟨-, -, h | ⟨l, -, h | ⟨xs, -, h | ⟨rows, -, h⟩⟩⟩⟩
    · exact absurd h (hC _)
    · simp only [checkLen, readSlen, check_bind_eq_error] at h
      rcases h with h | ⟨l, -, h | ⟨ns, -, h | ⟨-, -, h⟩⟩⟩
      · simp at h
      · obtain ⟨j, -, hj⟩ := gather_eq_error h
        simp [checkedSlen, readSlen, check_bind_eq_error] at hj
      · simp at h
      · cases h
    · exact absurd h (hX _)
    · obtain ⟨j, -, hj⟩ := gather_eq_error h
      obtain ⟨p, -, hp⟩ := gather_eq_error hj
      simp [checkedY, readY, check_bind_eq_error] at hp
    · cases h
  all_goals
    simp [binaryFieldRule, finvRule, pevalRule, check_bind_eq_error, fieldOperand_eq_error] at h

/-- A command that waits lacks draws: k - 1 of CGEN, L * (k - 1) of SPLIT (spec/41_coefficient_poly.md R153). -/
theorem ruleOf_wait_draws {i : Instr} {s : State} (h : ruleOf i s = .error .wait) :
    (∃ rs1, i = .cgen rs1 ∧ takeDraws (s.kreg.toNat - 1) s.entropy = none)
      ∨ (i = .split ∧ takeDraws (s.len.toNat * (s.kreg.toNat - 1)) s.entropy = none) := by
  rcases ruleOf_wait h with ⟨rs1, rfl⟩ | rfl
  · refine .inl ⟨rs1, rfl, ?_⟩
    simp [ruleOf, cgenRule, check_bind_eq_error, fieldOperand_eq_error, sample_eq_error] at h
    exact h.2.2.2
  · refine .inr ⟨rfl, ?_⟩
    simp only [ruleOf, splitRule, check_bind_eq_error, sample_eq_error] at h
    rcases h with h | ⟨-, -, h | ⟨b, -, ⟨h, -⟩ | ⟨d, -, h⟩⟩⟩
    · simp [checkSplit, check_bind_eq_error] at h
    · obtain ⟨j, -, hj⟩ := gather_eq_error h
      simp [readSecret] at hj
    · exact h
    · cases h

/-- The only fault of a command is a read of an element that nothing has written (spec/10_state.md R41). -/
theorem ruleOf_fault {i : Instr} {s : State} {r : Fault} (h : ruleOf i s = .error (.fault r)) :
    ∃ e, r = .unwritten e ∧ s.mem.read e = none := by
  have hX : ∀ m, checkX s m = .error (.fault r) → ∃ e, r = .unwritten e ∧ s.mem.read e = none := by
    intro m hx
    simp only [checkX, check_bind_eq_error, checkDistinct] at hx
    rcases hx with hx | ⟨xs, -, hx | ⟨-, -, hx⟩⟩
    · obtain ⟨j, -, hj⟩ := gather_eq_error hx
      simp only [checkedX, readX, check_bind_eq_error, written_eq_error, Stop.fault.injEq] at hj
      rcases hj with ⟨hn, hr⟩ | ⟨x, -, hj | ⟨-, -, hj⟩⟩
      · exact ⟨.x j, hr, by simp [Memory.read, hn]⟩
      · simp at hj
      · cases hj
    · split at hx <;> cases hx
    · cases hx
  have hC : ∀ m, checkCount s.cfg m ≠ .error (.fault r) := by
    intro m hx
    simp [checkCount, check_bind_eq_error] at hx
  cases i <;> simp only [ruleOf] at h
  case lbasis =>
    simp only [lbasisRule, check_bind_eq_error] at h
    rcases h with h | ⟨-, -, h | ⟨xs, -, h⟩⟩
    · exact absurd h (hC _)
    · exact hX _ h
    · cases h
  case split =>
    simp only [splitRule, check_bind_eq_error] at h
    rcases h with h | ⟨-, -, h | ⟨b, -, h | ⟨d, -, h⟩⟩⟩
    · simp [checkSplit, check_bind_eq_error] at h
    · obtain ⟨j, -, hj⟩ := gather_eq_error h
      simp only [readSecret, written_eq_error, Stop.fault.injEq] at hj
      exact ⟨.secret j, hj.2, by simp [Memory.read, hj.1]⟩
    · simp [sample_eq_error] at h
    · cases h
  case recon =>
    simp only [reconRule, check_bind_eq_error] at h
    rcases h with h | ⟨-, -, h | ⟨l, -, h | ⟨xs, -, h | ⟨rows, -, h⟩⟩⟩⟩
    · exact absurd h (hC _)
    · simp only [checkLen, readSlen, check_bind_eq_error, written_eq_error, Stop.fault.injEq] at h
      rcases h with ⟨hn, hr⟩ | ⟨l, -, h | ⟨ns, -, h | ⟨-, -, h⟩⟩⟩
      · exact ⟨.slen 0, hr, by simp [Memory.read, hn]⟩
      · obtain ⟨j, -, hj⟩ := gather_eq_error h
        simp only [checkedSlen, readSlen, check_bind_eq_error, written_eq_error,
          Stop.fault.injEq] at hj
        rcases hj with ⟨hn, hr⟩ | ⟨n, -, hj | ⟨-, -, hj⟩⟩
        · exact ⟨.slen j, hr, by simp [Memory.read, hn]⟩
        · simp at hj
        · cases hj
      · simp at h
      · cases h
    · exact hX _ h
    · obtain ⟨j, -, hj⟩ := gather_eq_error h
      obtain ⟨p, -, hp⟩ := gather_eq_error hj
      simp only [checkedY, readY, check_bind_eq_error, written_eq_error, Stop.fault.injEq] at hp
      rcases hp with ⟨hn, hr⟩ | ⟨y, -, hp | ⟨-, -, hp⟩⟩
      · exact ⟨.y j p, hr, by simp [Memory.read, hn]⟩
      · simp at hp
      · cases hp
    · cases h
  all_goals
    simp [binaryFieldRule, finvRule, pevalRule, cgenRule, check_bind_eq_error, fieldOperand_eq_error,
      sample_eq_error] at h

/-- Only the commands that read arrays can fault (spec/10_state.md R41). -/
theorem ruleOf_fault_reads_arrays {i : Instr} {s : State} {r : Fault}
    (h : ruleOf i s = .error (.fault r)) : i = .split ∨ i = .lbasis ∨ i = .recon := by
  cases i <;> simp only [ruleOf] at h
  case split => exact .inl rfl
  case lbasis => exact .inr (.inl rfl)
  case recon => exact .inr (.inr rfl)
  all_goals
    simp [binaryFieldRule, finvRule, pevalRule, cgenRule, check_bind_eq_error, fieldOperand_eq_error,
      sample_eq_error] at h

/-- A raise never has the code OK. -/
theorem ruleOf_raise_ne_ok {i : Instr} {s : State} {c : Code} {info : Word}
    (h : ruleOf i s = .error (.raise c info)) : c ≠ .ok := by
  rintro rfl
  have hX : ∀ m, checkX s m ≠ .error (.raise .ok info) := by
    intro m hx
    simp only [checkX, check_bind_eq_error, checkDistinct] at hx
    rcases hx with hx | ⟨xs, -, hx | ⟨-, -, hx⟩⟩
    · obtain ⟨j, -, hj⟩ := gather_eq_error hx
      simp [checkedX, readX, check_bind_eq_error] at hj
    · split at hx <;> cases hx
    · cases hx
  have hC : ∀ m, checkCount s.cfg m ≠ .error (.raise .ok info) := by
    intro m hx
    simp [checkCount, check_bind_eq_error] at hx
  have hS : ∀ n, sample s n ≠ .error (.raise .ok info) := by
    intro n hx
    simp [sample_eq_error] at hx
  cases i <;> simp only [ruleOf] at h
  case lbasis =>
    simp only [lbasisRule, check_bind_eq_error] at h
    rcases h with h | ⟨-, -, h | ⟨xs, -, h⟩⟩
    · exact absurd h (hC _)
    · exact absurd h (hX _)
    · cases h
  case split =>
    simp only [splitRule, check_bind_eq_error] at h
    rcases h with h | ⟨-, -, h | ⟨b, -, h | ⟨d, -, h⟩⟩⟩
    · simp [checkSplit, check_bind_eq_error] at h
    · obtain ⟨j, -, hj⟩ := gather_eq_error h
      simp [readSecret] at hj
    · exact absurd h (hS _)
    · cases h
  case recon =>
    simp only [reconRule, check_bind_eq_error] at h
    rcases h with h | ⟨-, -, h | ⟨l, -, h | ⟨xs, -, h | ⟨rows, -, h⟩⟩⟩⟩
    · exact absurd h (hC _)
    · simp only [checkLen, readSlen, check_bind_eq_error] at h
      rcases h with h | ⟨l, -, h | ⟨ns, -, h | ⟨-, -, h⟩⟩⟩
      · simp at h
      · obtain ⟨j, -, hj⟩ := gather_eq_error h
        simp [checkedSlen, readSlen, check_bind_eq_error] at hj
      · simp at h
      · cases h
    · exact absurd h (hX _)
    · obtain ⟨j, -, hj⟩ := gather_eq_error h
      obtain ⟨p, -, hp⟩ := gather_eq_error hj
      simp [checkedY, readY, check_bind_eq_error] at hp
    · cases h
  all_goals
    simp [binaryFieldRule, finvRule, pevalRule, cgenRule, check_bind_eq_error, fieldOperand_eq_error,
      sample_eq_error] at h

/-- A step of the unit ends in one of three ways: it completes with OK after the rule's writes, it completes
with another code and nothing written, or it waits for entropy and changes nothing. -/
theorem exec_next {i : Instr} {s t : State} (h : exec i s = .next t) :
    (∃ u, ruleOf i s = .ok u ∧ t = u.complete .ok 0)
      ∨ (∃ c info, ruleOf i s = .error (.raise c info) ∧ t = s.complete c info)
      ∨ (ruleOf i s = .error .wait ∧ t = s) :=
  finish_next (exec_eq_finish i s ▸ h)

end Sys2Proof.Machine
end

