-- ==== Sys2Proof/Laws/Arrays.lean ====
section
/-! SUPPORT. What the commands' array writes leave at every index, that they keep the canonical form and write only
elements of the block, and the checks of the share indices. -/

namespace Sys2Proof.Machine

/-! ## Runs from index 0, and rows of Y -/

theorem Cells.read_writeRun_zero {w : Nat} (c : Cells w) (vs : List (BitVec w)) (j : Nat) :
    (c.writeRun 0 vs).read j = if h : j < vs.length then some vs[j] else c.read j := by
  split
  · next h => simpa using c.read_writeRun_inside 0 vs h
  · next h => exact c.read_writeRun_outside _ _ _ (by omega)

/-- The arrays Y after rows of the same length were written to slots 0..n-1. -/
theorem Cells.read_writeRows (c : Cells 9) (n l : Nat) (rows : Nat → List FieldWord)
    (hl : ∀ s, (rows s).length = l) (hl' : l ≤ 65536) {s p : Nat} (hp : p < 65536) :
    ((List.range n).foldl (fun y i => y.writeRun (yKey i 0) (rows i)) c).read (yKey s p)
      = if s < n ∧ p < l then (rows s)[p]? else c.read (yKey s p) := by
  induction n with
  | zero => simp
  | succ n ih =>
    rw [List.range_succ, List.foldl_append]
    simp only [List.foldl_cons, List.foldl_nil]
    by_cases hs : s = n
    · subst hs
      by_cases hpl : p < l
      · have hk : yKey s p = yKey s 0 + p := by unfold yKey; omega
        rw [if_pos ⟨by omega, hpl⟩, hk, Cells.read_writeRun_inside _ _ _ (by rw [hl]; exact hpl),
          List.getElem?_eq_getElem]
      · rw [if_neg (by omega), Cells.read_writeRun_outside, ih, if_neg (by omega)]
        rw [hl]
        unfold yKey
        omega
    · rw [Cells.read_writeRun_outside, ih]
      · simp only [show s < n + 1 ↔ s < n by omega]
      · rw [hl]
        unfold yKey
        omega

theorem Cells.writeRows_wf (c : Cells 9) (is : List Nat) (rows : Nat → List FieldWord)
    (h : c.wf = true) :
    (is.foldl (fun y i => y.writeRun (yKey i 0) (rows i)) c).wf = true := by
  induction is generalizing c with
  | nil => exact h
  | cons i is ih => exact ih _ (c.writeRun_wf _ _ h)

/-! ## SPLIT -/

@[simp] theorem shareValues_length (polys : List (List FieldWord)) (s : Nat) :
    (shareValues polys s).length = polys.length := by
  simp [shareValues]

@[simp] theorem splitPolys_length (d : Nat) (bs : List Byte) (ds : List FieldWord) :
    (splitPolys d bs ds).length = bs.length := by
  induction bs generalizing ds with
  | nil => rfl
  | cons b bs ih => simp [splitPolys, ih]

/-- The polynomial of position p: its byte, then the draws from p * d on (spec/41_coefficient_poly.md R152). -/
theorem splitPolys_getElem (d : Nat) (bs : List Byte) (ds : List FieldWord) {p : Nat}
    (h : p < bs.length) :
    (splitPolys d bs ds)[p]'(by simpa using h) = bs[p].setWidth 9 :: (ds.drop (p * d)).take d := by
  induction bs generalizing ds p with
  | nil => simp at h
  | cons b bs ih =>
    cases p with
    | zero => simp [splitPolys]
    | succ p =>
      simp only [splitPolys, List.getElem_cons_succ]
      rw [ih _ (by simpa using h)]
      simp [Nat.add_mul, Nat.add_comm]

theorem writeShares_x (m : Memory) (n : Nat) (len : BitVec 16) (polys : List (List FieldWord))
    (s : Nat) :
    (writeShares m n len polys).x.read s
      = if s < n then some (BitVec.ofNat 9 (s + 1)) else m.x.read s := by
  simp [writeShares, Cells.read_writeRun_zero]

theorem writeShares_slen (m : Memory) (n : Nat) (len : BitVec 16) (polys : List (List FieldWord))
    (s : Nat) :
    (writeShares m n len polys).slen.read s = if s < n then some len else m.slen.read s := by
  simp [writeShares, Cells.read_writeRun_zero]

theorem writeShares_y (m : Memory) (n : Nat) (len : BitVec 16) (polys : List (List FieldWord))
    (hl : polys.length ≤ 65536) {s p : Nat} (hp : p < 65536) :
    (writeShares m n len polys).y.read (yKey s p)
      = if s < n ∧ p < polys.length then (shareValues polys s)[p]? else m.y.read (yKey s p) :=
  Cells.read_writeRows _ _ _ _ (fun i => shareValues_length polys i) hl hp

@[simp] theorem writeShares_w (m : Memory) (n : Nat) (len : BitVec 16)
    (polys : List (List FieldWord)) : (writeShares m n len polys).w = m.w := rfl

@[simp] theorem writeShares_secret (m : Memory) (n : Nat) (len : BitVec 16)
    (polys : List (List FieldWord)) : (writeShares m n len polys).secret = m.secret := rfl

theorem writeShares_wf (m : Memory) (n : Nat) (len : BitVec 16) (polys : List (List FieldWord))
    (h : m.wf = true) : (writeShares m n len polys).wf = true := by
  simp only [Memory.wf, Bool.and_eq_true] at h ⊢
  simp only [writeShares, Cells.writeRun_wf, Cells.writeRows_wf, h, and_self]

/-! ## LBASIS and RECON -/

@[simp] theorem weights_length (xs : List FieldWord) : (weights xs).length = xs.length := by
  simp [weights]

@[simp] theorem recovered_length (ws : List Nat) (rows : List (List FieldWord)) (l : Nat) :
    (recovered ws rows l).length = l := by
  simp [recovered]

theorem writeWeights_w (m : Memory) (ws : List Nat) (i : Nat) :
    (writeWeights m ws).w.read i
      = if h : i < ws.length then some (BitVec.ofNat 9 ws[i]) else m.w.read i := by
  simp [writeWeights, Cells.read_writeRun_zero]

theorem writeWeights_other (m : Memory) (ws : List Nat) {e : Elem} (h : ∀ i < ws.length, e ≠ .w i) :
    (writeWeights m ws).read e = m.read e := by
  cases e with
  | w i =>
    have hi : ¬ i < ws.length := fun hi => h i hi rfl
    simp [Memory.read, writeWeights_w, hi]
  | _ => rfl

theorem writeWeights_wf (m : Memory) (ws : List Nat) (h : m.wf = true) :
    (writeWeights m ws).wf = true := by
  simp only [Memory.wf, Bool.and_eq_true] at h ⊢
  simp only [writeWeights, Cells.writeRun_wf, h, and_self]

theorem writeSecret_secret (m : Memory) (out : List Byte) (p : Nat) :
    (writeSecret m out).secret.read p
      = if h : p < out.length then some out[p] else m.secret.read p :=
  Cells.read_writeRun_zero _ _ _

theorem writeSecret_other (m : Memory) (out : List Byte) {e : Elem}
    (h : ∀ p < out.length, e ≠ .secret p) : (writeSecret m out).read e = m.read e := by
  cases e with
  | secret p =>
    have hp : ¬ p < out.length := fun hp => h p hp rfl
    simp [Memory.read, writeSecret_secret, hp]
  | _ => rfl

theorem writeSecret_wf (m : Memory) (out : List Byte) (h : m.wf = true) :
    (writeSecret m out).wf = true := by
  simp only [Memory.wf, Bool.and_eq_true] at h ⊢
  simp only [writeSecret, Cells.writeRun_wf, h, and_self]

/-! ## The share indices -/

/-- A slot in ERRINFO.LO is the word of its number (spec/60_exceptions.md R223). -/
theorem slotInfo_eq {i : Nat} (h : i < 65536) : slotInfo i = BitVec.ofNat 32 i := by
  apply BitVec.eq_of_toNat_eq
  show ((0 : BitVec 16) ++ BitVec.ofNat 16 i).toNat = _
  have hz : (0 : BitVec 16).toNat = 0 := rfl
  rw [BitVec.toNat_append, hz, Nat.zero_shiftLeft, Nat.zero_or]
  simp only [BitVec.toNat_ofNat]
  omega

theorem findIdx?_eq_none_iff_not_mem (x : FieldWord) (xs : List FieldWord) :
    xs.findIdx? (fun z => z = x) = none ↔ x ∉ xs := by
  simp only [List.findIdx?_eq_none_iff, decide_eq_false_iff_not]
  exact ⟨fun h hx => h x hx rfl, fun h z hz e => h (e ▸ hz)⟩

/-- The duplicate check finds nothing exactly when the indices are distinct. -/
theorem firstDuplicate_eq_none (i : Nat) (xs : List FieldWord) :
    firstDuplicate i xs = none ↔ xs.Nodup := by
  induction xs generalizing i with
  | nil => simp [firstDuplicate]
  | cons x xs ih =>
    simp only [firstDuplicate, List.nodup_cons, ← findIdx?_eq_none_iff_not_mem]
    split
    · next d hd => simp [hd]
    · next hd => simp [hd, ih]

/-- The duplicate check finds the pair with the smallest i, then the smallest j
(spec/43_lagrange_basis.md R187). -/
theorem firstDuplicate_eq_some (k : Nat) (xs : List FieldWord) {i j : Nat} (hij : i < j)
    (hj : j < xs.length) (he : xs[i] = xs[j])
    (first : ∀ i' j' (h : i' < j') (h' : j' < xs.length), xs[i'] = xs[j'] →
      i < i' ∨ (i = i' ∧ j ≤ j')) :
    firstDuplicate k xs = some (k + i, k + j) := by
  induction xs generalizing k i j with
  | nil => simp at hj
  | cons x xs ih =>
    obtain ⟨j, rfl⟩ : ∃ d, j = d + 1 := ⟨j - 1, by omega⟩
    simp only [List.length_cons, Nat.add_lt_add_iff_right] at hj
    simp only [firstDuplicate]
    cases i with
    | zero =>
      have hf : xs.findIdx? (fun z => z = x) = some j := by
        rw [List.findIdx?_eq_some_iff_getElem]
        refine ⟨hj, by simpa using he.symm, fun d hd => ?_⟩
        simp only [decide_eq_true_eq]
        intro hx
        have := first 0 (d + 1) (by omega) (by simp; omega) (by simpa using hx.symm)
        omega
      rw [hf]
      simp only [Option.some.injEq, Prod.mk.injEq]
      omega
    | succ i =>
      have hf : xs.findIdx? (fun z => z = x) = none := by
        rw [findIdx?_eq_none_iff_not_mem]
        intro hx
        obtain ⟨d, hd, hxd⟩ := List.getElem_of_mem hx
        have := first 0 (d + 1) (by omega) (by simpa using hd) (by simpa using hxd.symm)
        omega
      rw [hf]
      simp only
      rw [ih (k + 1) (i := i) (j := j) (by omega) hj (by simpa using he)]
      · congr 2 <;> omega
      · intro i' j' h h' h2
        have := first (i' + 1) (j' + 1) (by omega) (by simpa using h') (by simpa using h2)
        omega

end Sys2Proof.Machine
end

