-- ==== Sys2Proof/Laws/Bus.lean ====
section
/-! SUPPORT. The address map and its inverse, and everything that a host access can do, said once for each. -/

namespace Sys2Proof.Machine

/-! ## The address map -/

theorem Loc.offset_bounds {cfg : Params} {l : Loc} (h : l.mapped cfg = true) :
    l.offset % 4 = 0 ∧ l.offset < 0x05000000 := by
  have hs := cfg.sMax_legal
  have hl := cfg.lMax_legal
  cases l with
  | f r =>
    have := r.isLt
    simp only [Loc.offset]
    omega
  | elem e =>
    cases e <;> simp only [Loc.mapped, Elem.mapped, Bool.and_eq_true, decide_eq_true_eq] at h <;>
      simp only [Loc.offset] <;> omega
  | _ => decide

/-- The map finds every place of the block at its offset (spec/20_memory.md R66). -/
theorem locate_offset {cfg : Params} {l : Loc} (h : l.mapped cfg = true) :
    locate cfg l.offset = some l := by
  have hs := cfg.sMax_legal
  have hl := cfg.lMax_legal
  have found : ∀ e e', e.mapped cfg = true → e' = e → mappedElem cfg e' = some (.elem e) := by
    rintro e _ he rfl
    simp [mappedElem, he]
  cases l with
  | f r =>
    have := r.isLt
    generalize ho : Loc.offset _ = off
    simp only [Loc.offset] at ho
    unfold locate
    rw [if_neg (by omega), if_pos (by omega)]
    congr 2
    apply BitVec.eq_of_toNat_eq
    simp only [BitVec.toNat_ofNat]
    omega
  | elem e =>
    have he : e.mapped cfg = true := h
    cases e <;> simp only [Loc.mapped, Elem.mapped, Bool.and_eq_true, decide_eq_true_eq] at h <;>
      generalize ho : Loc.offset _ = off <;> simp only [Loc.offset] at ho <;> unfold locate
    case x s =>
      iterate 3 rw [if_neg (by omega)]
      rw [if_pos (by omega)]
      exact found _ _ he (congrArg Elem.x (by omega))
    case slen s =>
      iterate 4 rw [if_neg (by omega)]
      rw [if_pos (by omega)]
      exact found _ _ he (congrArg Elem.slen (by omega))
    case w s =>
      iterate 5 rw [if_neg (by omega)]
      rw [if_pos (by omega)]
      exact found _ _ he (congrArg Elem.w (by omega))
    case secret p =>
      iterate 7 rw [if_neg (by omega)]
      rw [if_pos (by omega)]
      exact found _ _ he (congrArg Elem.secret (by omega))
    case y s p =>
      iterate 8 rw [if_neg (by omega)]
      rw [if_pos (by omega)]
      exact found _ _ he (congrArg₂ Elem.y (by omega) (by omega))
  | _ => rfl

/-- What the map finds at a word-aligned offset is a place of the block that stands there
(spec/20_memory.md R66, R67). -/
theorem locate_eq_some {cfg : Params} {off : Nat} {l : Loc} (h4 : off % 4 = 0)
    (h : locate cfg off = some l) : l.mapped cfg = true ∧ l.offset = off := by
  have elem : ∀ e, mappedElem cfg e = some l → (Loc.elem e).offset = off →
      l.mapped cfg = true ∧ l.offset = off := by
    intro e he ho
    unfold mappedElem at he
    split at he
    · next hm => cases he; exact ⟨hm, ho⟩
    · cases he
  unfold locate at h
  split at h
  · unfold locateControl at h
    split at h <;> cases h <;> exact ⟨rfl, rfl⟩
  split at h
  · cases h
    refine ⟨rfl, ?_⟩
    simp only [Loc.offset, BitVec.toNat_ofNat]
    omega
  split at h
  · cases h
  iterate 3
    split at h
    · exact elem _ h (by simp only [Loc.offset]; omega)
  split at h
  · cases h
  iterate 2
    split at h
    · exact elem _ h (by simp only [Loc.offset]; omega)
  cases h

/-- A place's offset from BLOCK_BASE is its offset in the map (spec/20_memory.md R65). -/
theorem offsetOf_address {cfg : Params} {l : Loc} (h : l.mapped cfg = true) :
    offsetOf cfg (l.address cfg) = l.offset := by
  have hb := Loc.offset_bounds h
  have hp := cfg.base_legal
  simp only [offsetOf, Loc.address, BitVec.toNat_sub, BitVec.toNat_add, BitVec.toNat_ofNat]
  omega

theorem Loc.address_aligned {cfg : Params} {l : Loc} (h : l.mapped cfg = true) :
    (l.address cfg).toNat % 4 = 0 := by
  have hb := Loc.offset_bounds h
  have hp := cfg.base_legal
  simp only [Loc.address, BitVec.toNat_add, BitVec.toNat_ofNat]
  omega

/-- No two places of a block share an address (spec/20_memory.md R61, R67). -/
theorem Loc.address_inj {cfg : Params} {l l' : Loc} (h : l.mapped cfg = true)
    (h' : l'.mapped cfg = true) (e : l.address cfg = l'.address cfg) : l = l' := by
  have ho := congrArg (offsetOf cfg) e
  rw [offsetOf_address h, offsetOf_address h'] at ho
  have hl := locate_offset h
  rw [ho, locate_offset h'] at hl
  exact (Option.some.inj hl).symm

/-! ## What an access reaches -/

theorem reach_address {s : State} {l : Loc} (h : l.mapped s.cfg = true) :
    reach s (l.address s.cfg) .word 0xF = .ok l := by
  unfold reach
  rw [if_neg (by simp), if_neg (by simp [Loc.address_aligned h]), offsetOf_address h,
    locate_offset h]

/-- An access that reaches a place is a whole word at that place's address. -/
theorem reach_eq_ok {s : State} {addr : Word} {width : AccessWidth} {enables : BitVec 4} {l : Loc}
    (h : reach s addr width enables = .ok l) :
    width = .word ∧ enables = 0xF ∧ l.mapped s.cfg = true ∧ addr = l.address s.cfg := by
  unfold reach at h
  split at h
  · cases h
  next hw =>
  split at h
  · cases h
  next ha =>
  split at h
  · cases h
  next l' hl =>
  cases h
  have hb := s.cfg.base_legal
  have h4 : offsetOf s.cfg addr % 4 = 0 := by
    simp only [offsetOf, BitVec.toNat_sub]
    omega
  obtain ⟨hm, ho⟩ := locate_eq_some h4 hl
  simp only [not_or, not_not] at hw
  refine ⟨hw.1, hw.2, hm, ?_⟩
  rw [Loc.address, ho, offsetOf, BitVec.ofNat_toNat, BitVec.setWidth_eq, BitVec.add_comm,
    BitVec.sub_add_cancel]

/-! ## What an access does -/

theorem hostRead_of_mapped {s : State} {l : Loc} {v : Word} (h : l.mapped s.cfg = true)
    (hb : s.status.busy = true → l.readableWhileBusy = true) (hv : readLoc s l = .ok v) :
    hostRead s (l.address s.cfg) .word = .next { s with response := .readData v } := by
  unfold hostRead
  rw [reach_address h]
  simp only [bind, Except.bind]
  rw [if_neg (by simpa using hb), hv]
  rfl

theorem hostWrite_of_mapped {s : State} {l : Loc} (h : l.mapped s.cfg = true)
    (hb : s.status.busy = false) (hr : l.readOnly = false) (v : Word) :
    hostWrite s (l.address s.cfg) .word 0xF v
      = .next { writeLoc s l v with response := .writeDone } := by
  unfold hostWrite
  rw [reach_address h]
  simp only [bind, Except.bind]
  rw [if_neg (by simp [hb]), if_neg (by simp [hr])]
  rfl

/-- A read that is answered is a word read of a place of the block, allowed while BUSY = 1 if BUSY = 1, and
changes the response alone (spec/20_memory.md R62 to R71). -/
theorem hostRead_next {s t : State} {addr : Word} {width : AccessWidth}
    (h : hostRead s addr width = .next t) :
    ∃ l v, width = .word ∧ l.mapped s.cfg = true ∧ addr = l.address s.cfg
      ∧ (s.status.busy = true → l.readableWhileBusy = true)
      ∧ readLoc s l = .ok v ∧ t = { s with response := .readData v } := by
  unfold hostRead at h
  cases hr : reach s addr width 0xF with
  | error e => rw [hr] at h; simp [answer, bind, Except.bind] at h
  | ok l =>
    obtain ⟨hw, -, hm, ha⟩ := reach_eq_ok hr
    rw [hr] at h
    simp only [bind, Except.bind] at h
    split at h
    · cases h
    next hb =>
    cases hv : readLoc s l with
    | error e => rw [hv] at h; cases h
    | ok v =>
      rw [hv] at h
      cases h
      exact ⟨l, v, hw, hm, ha, by simpa using hb, hv, rfl⟩

/-- A write that is answered is a full word write, while BUSY = 0, to a writable place of the block
(spec/20_memory.md R62 to R71). -/
theorem hostWrite_next {s t : State} {addr v : Word} {width : AccessWidth} {enables : BitVec 4}
    (h : hostWrite s addr width enables v = .next t) :
    ∃ l, width = .word ∧ enables = 0xF ∧ l.mapped s.cfg = true ∧ addr = l.address s.cfg
      ∧ s.status.busy = false ∧ l.readOnly = false
      ∧ t = { writeLoc s l v with response := .writeDone } := by
  unfold hostWrite at h
  cases hr : reach s addr width enables with
  | error e => rw [hr] at h; simp [answer, bind, Except.bind] at h
  | ok l =>
    obtain ⟨hw, he, hm, ha⟩ := reach_eq_ok hr
    rw [hr] at h
    simp only [bind, Except.bind] at h
    split at h
    · cases h
    next hb =>
    split at h
    · cases h
    next hro =>
      cases h
      exact ⟨l, hw, he, hm, ha, by simpa using hb, by simpa using hro, rfl⟩

/-- An access is answered or faults; it is never refused. -/
theorem answer_fault_or_next (body : Except Fault State) :
    (∃ r, answer body = .fault r) ∨ ∃ t, answer body = .next t := by
  cases body with
  | error r => exact .inl ⟨r, rfl⟩
  | ok t => exact .inr ⟨t, rfl⟩

/-- A place that cannot be reached is a bus error, no unwritten element (spec/60_exceptions.md R228). -/
theorem reach_fault_is_bus_error {s : State} {addr : Word} {width : AccessWidth} {enables : BitVec 4}
    {r : Fault} (h : reach s addr width enables = .error r) (e : Elem) : r ≠ .unwritten e := by
  rintro rfl
  unfold reach at h
  repeat' split at h
  all_goals cases h

/-- A host write that faults is a bus error, no unwritten element (spec/60_exceptions.md R228). -/
theorem hostWrite_fault_is_bus_error {s : State} {addr v : Word} {width : AccessWidth}
    {enables : BitVec 4} {r : Fault} (h : hostWrite s addr width enables v = .fault r) (e : Elem) :
    r ≠ .unwritten e := by
  unfold hostWrite at h
  cases hr : reach s addr width enables with
  | error r' =>
    rw [hr] at h
    cases h
    exact reach_fault_is_bus_error hr e
  | ok l =>
    rintro rfl
    simp only [hr, bind, Except.bind] at h
    by_cases hb : s.status.busy = true
    · rw [if_pos hb] at h
      cases h
    · by_cases ho : l.readOnly = true
      · rw [if_neg hb, if_pos ho] at h
        cases h
      · rw [if_neg hb, if_neg ho] at h
        cases h

/-- A host read whose fault is an unwritten element reached that element, which the block has, while BUSY = 0
(spec/10_state.md R41). -/
theorem hostRead_fault_unwritten {s : State} {addr : Word} {width : AccessWidth} {e : Elem}
    (h : hostRead s addr width = .fault (.unwritten e)) :
    width = .word ∧ addr = (Loc.elem e).address s.cfg ∧ e.mapped s.cfg = true
      ∧ s.status.busy = false ∧ s.mem.read e = none := by
  unfold hostRead at h
  cases hr : reach s addr width 0xF with
  | error r' =>
    rw [hr] at h
    cases h
    exact absurd rfl (reach_fault_is_bus_error hr e)
  | ok l =>
    obtain ⟨hw, -, hm, ha⟩ := reach_eq_ok hr
    simp only [hr, bind, Except.bind] at h
    by_cases hb : s.status.busy = true ∧ l.readableWhileBusy = false
    · rw [if_pos hb] at h
      cases h
    · rw [if_neg hb] at h
      cases hv : readLoc s l with
      | ok v =>
        rw [hv] at h
        cases h
      | error r =>
        rw [hv] at h
        cases h
        cases l <;> simp only [readLoc, reduceCtorEq] at hv
        split at hv <;> cases hv
        exact ⟨hw, ha, hm, by simpa [Loc.readableWhileBusy] using hb, by assumption⟩

theorem hostRead_fault_of_not_next {s : State} {addr : Word} {width : AccessWidth}
    (h : ∀ t, hostRead s addr width ≠ .next t) : ∃ r, hostRead s addr width = .fault r :=
  (answer_fault_or_next _).resolve_right fun ⟨t, ht⟩ => h t ht

theorem hostWrite_fault_of_not_next {s : State} {addr v : Word} {width : AccessWidth}
    {enables : BitVec 4} (h : ∀ t, hostWrite s addr width enables v ≠ .next t) :
    ∃ r, hostWrite s addr width enables v = .fault r :=
  (answer_fault_or_next _).resolve_right fun ⟨t, ht⟩ => h t ht

/-- A host turn has nothing to do, or reads, or polls, or writes (spec/20_memory.md R72, spec/30_encoding.md
R105). -/
theorem hostTurn_next {s t : State} (h : hostTurn s = .next t) :
    (s.program = [] ∧ t = s)
      ∨ (∃ v p, t = { s with program := p, response := .readData v })
      ∨ (∃ l v rest, s.program = .write (l.address s.cfg) .word 0xF v :: rest
        ∧ s.status.busy = false ∧ l.readOnly = false ∧ l.mapped s.cfg = true
        ∧ t = { writeLoc { s with program := rest } l v with response := .writeDone }) := by
  unfold hostTurn at h
  split at h
  · next hp => cases h; exact .inl ⟨hp, rfl⟩
  · next rest hp =>
    obtain ⟨l, v, -, -, -, -, -, rfl⟩ := hostRead_next h
    exact .inr (.inl ⟨v, rest, rfl⟩)
  · next v rest hp =>
    obtain ⟨l, rfl, rfl, hm, rfl, hb, hr, rfl⟩ := hostWrite_next h
    exact .inr (.inr ⟨l, v, rest, hp, hb, hr, hm, rfl⟩)
  · next rest hp =>
    unfold hostPoll at h
    split at h
    · next t' ht =>
      obtain ⟨l, v, -, -, -, -, -, rfl⟩ := hostRead_next ht
      cases h
      split
      · exact .inr (.inl ⟨v, s.program, rfl⟩)
      · exact .inr (.inl ⟨v, rest, rfl⟩)
    · cases h
    · cases h

end Sys2Proof.Machine
end

