-- ==== Sys2Proof/Laws/Encoding.lean ====
section
/-! SUPPORT. The fields of an assembled word, and a word from its fields. -/

namespace Sys2Proof

/-- Every field of an assembled word is what was put there, and res is 0. -/
theorem fields_assembleWord (imm : FieldWord) (rs2 rs1 rd : Reg) (op : BitVec 6) :
    opField (assembleWord imm rs2 rs1 rd op) = op
      ∧ rdField (assembleWord imm rs2 rs1 rd op) = rd
      ∧ rs1Field (assembleWord imm rs2 rs1 rd op) = rs1
      ∧ rs2Field (assembleWord imm rs2 rs1 rd op) = rs2
      ∧ immField (assembleWord imm rs2 rs1 rd op) = imm
      ∧ resField (assembleWord imm rs2 rs1 rd op) = 0 := by
  refine ⟨?_, ?_, ?_, ?_, ?_, ?_⟩ <;>
  · apply BitVec.eq_of_getLsbD_eq
    intro i hi
    simp only [opField, rdField, rs1Field, rs2Field, immField, resField, assembleWord,
      BitVec.getLsbD_extractLsb', BitVec.getLsbD_append]
    interval_cases i <;> simp

/-- A word whose res is 0 is assembled from its fields. -/
theorem assembleWord_fields (w : Word) (h : resField w = 0) :
    assembleWord (immField w) (rs2Field w) (rs1Field w) (rdField w) (opField w) = w := by
  have high : ∀ j < 5, w.getLsbD (27 + j) = false := by
    intro j hj
    have := congrArg (fun v => v.getLsbD j) h
    simpa [resField, hj] using this
  have h0 := high 0
  have h1 := high 1
  have h2 := high 2
  have h3 := high 3
  have h4 := high 4
  apply BitVec.eq_of_getLsbD_eq
  intro i hi
  simp only [opField, rdField, rs1Field, rs2Field, immField, assembleWord,
    BitVec.getLsbD_extractLsb', BitVec.getLsbD_append]
  interval_cases i <;> simp_all

/-- Bits [31:6], which a format FZ word has to leave 0, are the other fields together. -/
theorem upper_eq_zero (w : Word) :
    w.extractLsb' 6 26 = 0 ↔
      rdField w = 0 ∧ rs1Field w = 0 ∧ rs2Field w = 0 ∧ immField w = 0 ∧ resField w = 0 := by
  constructor
  · intro h
    have part : ∀ a n, a + n ≤ 26 → w.extractLsb' (6 + a) n = 0 := by
      intro a n han
      apply BitVec.eq_of_getLsbD_eq
      intro i hi
      have hb := congrArg (fun v => v.getLsbD (a + i)) h
      have e : 6 + (a + i) = 6 + a + i := by omega
      simp only [BitVec.getLsbD_extractLsb', show a + i < 26 by omega, e] at hb
      simpa [hi] using hb
    exact ⟨part 0 4 (by omega), part 4 4 (by omega), part 8 4 (by omega), part 12 9 (by omega),
      part 21 5 (by omega)⟩
  · rintro ⟨h1, h2, h3, h4, h5⟩
    rw [← assembleWord_fields w h5, h1, h2, h3, h4]
    apply BitVec.eq_of_getLsbD_eq
    intro i hi
    simp only [assembleWord, BitVec.getLsbD_extractLsb', BitVec.getLsbD_append]
    interval_cases i <;> simp

/-- An opcode is known by its number. -/
theorem opField_eq_of_toNat {w : Word} {n : Nat} (h : (opField w).toNat = n) :
    opField w = BitVec.ofNat 6 n := by
  rw [← h]
  simp

end Sys2Proof
end

