-- ==== Sys2Proof/Laws/PerInstr.lean ====
section
/-! SUPPORT. Statements about every command as syntax, one lemma per constructor. -/

namespace Sys2Proof.Laws.EncodedFields

/-- The fields that the format of a command uses, in the order rd, rs1, rs2, imm, and 0 for the others
(spec/30_encoding.md R92). -/
def fields : Instr → Reg × Reg × Reg × FieldWord
  | .fadd rd rs1 rs2 => (rd, rs1, rs2, 0)
  | .fsub rd rs1 rs2 => (rd, rs1, rs2, 0)
  | .fmul rd rs1 rs2 => (rd, rs1, rs2, 0)
  | .fpow rd rs1 rs2 => (rd, rs1, rs2, 0)
  | .finv rd rs1 => (rd, rs1, 0, 0)
  | .fldi rd imm => (rd, 0, 0, imm)
  | .cgen rs1 => (0, rs1, 0, 0)
  | .peval rd rs1 => (rd, rs1, 0, 0)
  | .pclr => (0, 0, 0, 0)
  | .lbasis => (0, 0, 0, 0)
  | .split => (0, 0, 0, 0)
  | .recon => (0, 0, 0, 0)

/-- The word of a command has its opcode, its operands in their fields, and 0 in every other field and in res
(spec/30_encoding.md R91, R92). -/
def Statement (i : Instr) : Prop :=
  opField (encode i) = i.opcode ∧ resField (encode i) = 0
    ∧ (rdField (encode i), rs1Field (encode i), rs2Field (encode i), immField (encode i)) = fields i

theorem of_assembled {i : Instr} {imm : FieldWord} {rs2 rs1 rd : Reg}
    (he : encode i = assembleWord imm rs2 rs1 rd i.opcode) (hf : fields i = (rd, rs1, rs2, imm)) :
    Statement i := by
  obtain ⟨h1, h2, h3, h4, h5, h6⟩ := fields_assembleWord imm rs2 rs1 rd i.opcode
  rw [Statement, he, hf, h1, h2, h3, h4, h5, h6]
  exact ⟨rfl, rfl, rfl⟩

theorem fadd (rd rs1 rs2 : Reg) : Statement (.fadd rd rs1 rs2) := of_assembled rfl rfl
theorem fsub (rd rs1 rs2 : Reg) : Statement (.fsub rd rs1 rs2) := of_assembled rfl rfl
theorem fmul (rd rs1 rs2 : Reg) : Statement (.fmul rd rs1 rs2) := of_assembled rfl rfl
theorem fpow (rd rs1 rs2 : Reg) : Statement (.fpow rd rs1 rs2) := of_assembled rfl rfl
theorem finv (rd rs1 : Reg) : Statement (.finv rd rs1) := of_assembled rfl rfl
theorem fldi (rd : Reg) (imm : FieldWord) : Statement (.fldi rd imm) := of_assembled rfl rfl
theorem cgen (rs1 : Reg) : Statement (.cgen rs1) := of_assembled rfl rfl
theorem peval (rd rs1 : Reg) : Statement (.peval rd rs1) := of_assembled rfl rfl
theorem pclr : Statement .pclr := of_assembled rfl rfl
theorem lbasis : Statement .lbasis := of_assembled rfl rfl
theorem split : Statement .split := of_assembled rfl rfl
theorem recon : Statement .recon := of_assembled rfl rfl

end Sys2Proof.Laws.EncodedFields
end

