-- ==== Sys2Proof/Laws/Step.lean ====
section
/-! SUPPORT. Everything that one step of the machine can do. -/

namespace Sys2Proof.Machine

/-- The ways of a step that gives a next state: which agent moved, and what it did
(spec/00_scope.md R8, spec/20_memory.md R72). The list `rest` holds the turns that remain. -/
inductive StepKind (s t : State) : Prop where
  | host (rest : List Turn)
      (turns : (s.turns = [] ∧ rest = [] ∧ s.status.busy = false) ∨ s.turns = .host :: rest)
      (does : hostTurn { s with turns := rest } = .next t)
  | unit (rest : List Turn) (turns : (s.turns = [] ∧ rest = []) ∨ s.turns = .unit :: rest)
      (busy : s.status.busy = true) (does : unitStep { s with turns := rest } = .next t)
  | idleUnit (rest : List Turn) (turns : s.turns = .unit :: rest) (busy : s.status.busy = false)
      (does : t = { s with turns := rest })
  | entropy (raw : FieldWord) (rest : List Turn) (turns : s.turns = .entropy raw :: rest)
      (does : t = State.deliver { s with turns := rest } raw)
  | reset (rest : List Turn) (turns : s.turns = .reset :: rest)
      (does : t = State.applyReset { s with turns := rest })

theorem step_next {s t : State} (h : step s = .next t) : StepKind s t := by
  unfold step advance at h
  split at h
  · next ht =>
    have hs : { s with turns := [] } = s := by cases s; simp_all
    unfold defaultTurn at h
    split at h
    · next hb => exact .unit [] (.inl ⟨ht, rfl⟩) hb (hs ▸ h)
    · next hb => exact .host [] (.inl ⟨ht, rfl, by simpa using hb⟩) (hs ▸ h)
  · next turn rest ht =>
    cases turn with
    | host => exact .host rest (.inr ht) h
    | unit =>
      simp only [runTurn, unitTurn] at h
      split at h
      · next hb => exact .unit rest (.inr ht) hb h
      · next hb => cases h; exact .idleUnit rest ht (by simpa using hb) rfl
    | entropy raw => cases h; exact .entropy raw rest ht rfl
    | reset => cases h; exact .reset rest ht rfl

/-- A unit step completes with OK after the rule's writes, or completes with another code and nothing written,
or waits for entropy (spec/60_exceptions.md R224, spec/30_encoding.md R98, spec/41_coefficient_poly.md R151). -/
theorem unitStep_next {s t : State} (h : unitStep s = .next t) :
    (∃ i u, decode s.cmdreg = .ok i ∧ ruleOf i s = .ok u ∧ t = u.complete .ok 0)
      ∨ (∃ c info, c ≠ .ok ∧ t = s.complete c info)
      ∨ (t = s ∧ ((∃ rs1, decode s.cmdreg = .ok (.cgen rs1)) ∨ decode s.cmdreg = .ok .split)) := by
  unfold unitStep at h
  split at h
  · next i hd =>
    rcases exec_next h with ⟨u, hu, rfl⟩ | ⟨c, info, hr, rfl⟩ | ⟨hw, rfl⟩
    · exact .inl ⟨i, u, hd, hu, rfl⟩
    · exact .inr (.inl ⟨c, info, ruleOf_raise_ne_ok hr, rfl⟩)
    · rcases ruleOf_wait hw with ⟨rs1, rfl⟩ | rfl
      · exact .inr (.inr ⟨rfl, .inl ⟨rs1, hd⟩⟩)
      · exact .inr (.inr ⟨rfl, .inr hd⟩)
  · cases h
    exact .inr (.inl ⟨.illegalCommand, 0, by decide, rfl⟩)

end Sys2Proof.Machine
end

