-- ==== Sys2Proof/Tests/Slice0.lean ====
section
/-! SUPPORT. Small tests whose expected values are those of spec/95_test_vectors.md, with S_MAX = 20 and L_MAX = 16,
and for every statement with hypotheses a state that meets them. -/

namespace Sys2Proof.Tests

open Sys2Proof.Machine Sys2Proof.Claims

/-! ## Builders -/

/-- The configuration of spec/95_test_vectors.md, at a base address other than 0. -/
def cfg : Params := { sMax := 20, lMax := 16, base := 0x40000000 }

/-- A block right after reset. -/
def idle : State := State.powerOn cfg

/-- Field registers set by the host. -/
def withF (s : State) (rs : List (Reg × FieldWord)) : State :=
  rs.foldl (fun t e => t.writeF e.1 e.2) s

/-- Share slots filled by the host: indices, lengths, values, and SCNT. -/
def withShares (xs : List FieldWord) (lens : List (BitVec 16)) (ys : List (List FieldWord))
    (m : FieldWord) : State :=
  { idle with
    scnt := m
    mem := { Memory.unwritten with
      x := Cells.writeRun [] 0 xs
      slen := Cells.writeRun [] 0 lens
      y := (List.range ys.length).foldl (fun c s => c.writeRun (yKey s 0) (ys.getD s [])) [] } }

/-- A secret, the split parameters, and the raw words of the entropy source. -/
def withSecret (bytes : List Byte) (l : BitVec 16) (n k : FieldWord) (raw : List FieldWord) : State :=
  { idle with
    len := l
    nreg := n
    kreg := k
    entropy := raw
    mem := { Memory.unwritten with secret := Cells.writeRun [] 0 bytes } }

/-- A polynomial in the hidden store. -/
def withPoly (cs : List FieldWord) (s : State) : State := s.setPoly cs (BitVec.ofNat 9 cs.length)

/-- A command word accepted and pending. -/
def pending (w : Word) (s : State) : State := s.accept w

/-- The next state, if there is one. -/
def nextOf (o : Host.Outcome State Fault Refusal) : Option State :=
  match o with
  | .next t => some t
  | .fault _ => none
  | .refused _ => none

/-- The fault, if there is one. -/
def faultOf (o : Host.Outcome State Fault Refusal) : Option Fault :=
  match o with
  | .next _ => none
  | .fault r => some r
  | .refused _ => none

/-- The state a command turns s into, if it gives one. -/
def after (i : Instr) (s : State) : Option State := nextOf (exec i s)

/-- The state a step turns s into, if it gives one. -/
def stepped (s : State) : Option State := nextOf (step s)

/-- STATUS as a word, and ERRINFO. -/
def ending (s : State) : Word × Word := (s.status.toWord, s.errinfo)

/-! ## Well-formedness and words (30_encoding.md R94, R104; 95_test_vectors.md V-DEC, V-LDI) -/

theorem test_wellFormed_refuses_immediate : (Instr.fldi 0 257).wellFormed = false := by decide

theorem test_wellFormed_accepts_256 : (Instr.fldi 0 256).wellFormed = true := by decide

theorem test_decode_field_words :
    decode 0x00015A01 = .ok (.fadd 8 6 5) ∧ decode 0x00015182 = .ok (.fsub 6 4 5)
      ∧ decode 0x000084C3 = .ok (.fmul 3 1 2) ∧ decode 0x000151C4 = .ok (.fpow 7 4 5)
      ∧ decode 0x00000485 = .ok (.finv 2 1) ∧ decode 0x000C0046 = .ok (.fldi 1 3) := by decide

theorem test_decode_other_words :
    decode 0x00000410 = .ok (.cgen 1) ∧ decode 0x00000C91 = .ok (.peval 2 3)
      ∧ decode 0x00000012 = .ok .pclr ∧ decode 0x00000018 = .ok .lbasis
      ∧ decode 0x00000020 = .ok .split ∧ decode 0x00000021 = .ok .recon := by decide

/-- The words written out field by field: res, imm, rs2, rs1, rd, op (R91). -/
theorem test_decode_bits :
    decode 0b00000_000000000_0101_0110_1000_000001 = .ok (.fadd 8 6 5)
      ∧ decode 0b00000_100000000_0000_0000_0000_000110 = .ok (.fldi 0 256)
      ∧ decode 0b00000_000000000_0000_1111_1111_000101 = .ok (.finv 15 15)
      ∧ decode 0b00000_000000000_0000_0001_0000_010000 = .ok (.cgen 1)
      ∧ decode 0b00000_000000000_0000_0011_0010_010001 = .ok (.peval 2 3)
      ∧ decode 0b00000_000000000_0000_0000_0000_011000 = .ok .lbasis
      ∧ decode 0b00000_000000000_0000_0000_0000_100000 = .ok .split
      ∧ decode 0b00000_000000000_0000_0000_0000_100001 = .ok .recon := by decide

theorem test_decode_rejects_by_name :
    decode 0x00000000 = .error .reservedOpcode ∧ decode 0x00000007 = .error .reservedOpcode
      ∧ decode 0x0000003F = .error .reservedOpcode ∧ decode 0x00000060 = .error .unusedField
      ∧ decode 0x08000021 = .error .reservedField ∧ decode 0x00004485 = .error .unusedField
      ∧ decode 0x000484C3 = .error .unusedField ∧ decode 0x00000450 = .error .unusedField
      ∧ decode 0xFFFFFFFF = .error .reservedField ∧ decode 0x04040006 = .error .immediateRange
      ∧ decodeBytes [0, 0, 0] = .error .notOneWord := by decide

theorem test_encode_words :
    encode (.fmul 3 1 2) = 0x000084C3 ∧ encode (.fldi 1 3) = 0x000C0046
      ∧ encode (.cgen 1) = 0x00000410 ∧ encode .recon = 0x00000021 := by decide

theorem test_decodeTableWord : decodeTableWord 32 0x00015A01 = some (.fadd 8 6 5) := by decide

/-- The assembler's lines (R101 to R103, R106). -/
theorem test_assemble :
    assembleLine "  fadd F8 , f6,f5 ; x".toList = .ok [.fadd 8 6 5]
      ∧ assembleLine "FLDI f1, 0xC8".toList = .ok [.fldi 1 200]
      ∧ assembleLine "FDIV f1, f2, f3, f3".toList = .ok [.finv 3 3, .fmul 1 2 3]
      ∧ assembleLine "; nothing".toList = .ok [] := by decide

theorem test_assemble_rejects :
    assembleLine "FLDI f1, 257".toList = .error .badOperands
      ∧ assembleLine "FADD f1, f2, f16".toList = .error .badOperands
      ∧ assembleLine "FDIV f1, f2, f3, f2".toList = .error .badOperands
      ∧ parseAddress cfg "Y[1][0]".toList = some 0x01040000
      ∧ parseAddress cfg "Y[20][0]".toList = none := by decide

/-! ## Field arithmetic (V-ADD to V-LDI, program P1) -/

theorem test_fadd : (after (.fadd 3 1 2) (withF idle [(1, 200), (2, 100)])).map
    (fun t => (t.readF 3, ending t)) = some (43, 0x00000002, 0) := by decide

theorem test_fadd_operandRange : (after (.fadd 3 1 2) (withF idle [(1, 256), (2, 511), (3, 9)])).map
    (fun t => (t.readF 3, ending t)) = some (9, 0x00000706, 2) := by decide

theorem test_fsub_negative : (after (.fsub 6 4 5) (withF idle [(4, 5), (5, 7)])).map
    (fun t => t.readF 6) = some 255 := by decide

theorem test_fsub_zero_minus_256 : (after (.fsub 4 4 5) (withF idle [(5, 256)])).map
    (fun t => t.readF 4) = some 1 := by decide

theorem test_fmul : (after (.fmul 3 1 2) (withF idle [(1, 200), (2, 100)])).map
    (fun t => t.readF 3) = some 211 := by decide

theorem test_fmul_largest : (after (.fmul 1 1 1) (withF idle [(1, 256)])).map
    (fun t => t.readF 1) = some 1 := by decide

theorem test_fpow : (after (.fpow 7 4 5) (withF idle [(4, 5), (5, 7)])).map
    (fun t => t.readF 7) = some 254 := by decide

theorem test_fpow_zero_zero : (after (.fpow 7 4 5) idle).map (fun t => t.readF 7) = some 1 := by decide

theorem test_finv_same_register : (after (.finv 1 1) (withF idle [(1, 2)])).map
    (fun t => t.readF 1) = some 129 := by decide

theorem test_finv_zero : (after (.finv 9 10) idle).map (fun t => (t.readF 9, ending t))
    = some (0, 0x00000206, 0x0000000A) := by decide

theorem test_fldi : (after (.fldi 0 256) idle).map (fun t => t.readF 0) = some 256 := by decide

/-! ## The polynomial unit (V-POLY, program P6) -/

theorem test_cgen : (after (.cgen 1) { withF idle [(1, 72)] with kreg := 3, entropy := [300, 7, 11, 5] }).map
    (fun t => (t.coef.take 4, t.kc, t.entropy, ending t)) = some ([72, 7, 11, 0], 3, [5], 0x00000002, 0) := by
  decide

theorem test_cgen_checks_k_first : (after (.cgen 1) (withF idle [(1, 300)])).map ending
    = some (0x00000106, 3) := by decide

theorem test_peval : (after (.peval 2 3) (withPoly [72, 7, 11] (withF idle [(3, 256)]))).map
    (fun t => t.readF 2) = some 76 := by decide

theorem test_peval_at_zero : (after (.peval 5 4) (withPoly [65, 100] idle)).map
    (fun t => (t.readF 5, ending t)) = some (0, 0x00000106, 5) := by decide

theorem test_pclr : (after .pclr (withPoly [65, 100] idle)).map (fun t => (t.coef, t.kc))
    = some (List.replicate 20 0, 0) := by decide

/-! ## SPLIT (V-SPLIT, program P4) -/

theorem test_split : (after .split (withSecret [0x41, 0x42] 2 3 2 [100, 511, 200])).map
    (fun t => (t.mem.x, t.mem.slen, t.mem.y)) = some ([(0, 1), (1, 2), (2, 3)], [(0, 2), (1, 2), (2, 2)],
      [(0, 165), (1, 9), (65536, 8), (65537, 209), (131072, 108), (131073, 152)]) := by
  decide

theorem test_split_checks_n_before_l : (after .split (withSecret [] 17 21 2 [])).map ending
    = some (0x00000906, 1) := by decide

/-! ## LBASIS and RECON (V-LB, V-REC, program P3) -/

theorem test_lbasis : (after .lbasis (withShares [1, 2, 4] [] [] 3)).map (fun t => t.mem.w)
    = some [(0, 174), (1, 255), (2, 86)] := by decide

theorem test_lbasis_first_pair : (after .lbasis (withShares [3, 2, 2, 3] [] [] 4)).map ending
    = some (0x00000406, 0x00030000) := by decide

theorem test_recon : (after .recon (withShares [1, 2] [2, 2] [[165, 9], [8, 209]] 2)).map
    (fun t => (t.mem.w, t.mem.secret, t.len))
    = some ([(0, 2), (1, 256)], [(0, 0x41), (1, 0x42)], 2) := by decide

theorem test_recon_operandRange : (after .recon (withShares [1, 2] [2, 2] [[5, 511], [6, 7]] 2)).map
    (fun t => (ending t, t.mem.secret, t.len)) = some ((0x00000706, 0x00010000), [], 0) := by decide

/-! ## The host bus, acceptance, reset and the step (V-BUS, V-RST, V-DEC) -/

theorem test_hostWrite_low_bits :
    ((nextOf (hostWrite idle 0x40000044 .word 0xF 0x1FF)).map fun t => t.readF 1) = some 511
      ∧ ((nextOf (hostWrite idle 0x40000044 .word 0xF 0x201)).map fun t => t.readF 1) = some 1 := by decide

theorem test_bus_errors :
    faultOf (hostWrite idle 0x4000000C .word 0xF 0) = some .busReadOnly
      ∧ faultOf (hostWrite idle 0x40001800 .word 0xF 0) = some .busReadOnly
      ∧ faultOf (hostRead idle 0x40000042 .word) = some .busMisaligned
      ∧ faultOf (hostRead idle 0x40000028 .word) = some .busUnmapped
      ∧ faultOf (hostRead idle 0x40001050 .word) = some .busUnmapped
      ∧ faultOf (hostRead idle 0x3FFFFFFC .word) = some .busUnmapped := by decide

theorem test_bus_faults :
    faultOf (hostRead idle 0x40001000 .word) = some (.unwritten (.x 0))
      ∧ faultOf (hostRead idle 0x40000000 .half) = some .busSubWord
      ∧ faultOf (hostRead (pending 0x20 idle) 0x40000040 .word) = some .busWhileBusy := by decide

theorem test_read_status_while_busy :
    ((nextOf (hostRead (pending 0x20 idle) 0x4000000C .word)).map fun t => t.response)
      = some (.readData 1) := by decide

/-- A reset while SPLIT is pending (V-RST). -/
theorem test_reset_aborts :
    stepped { pending 0x20 (withSecret [0x41] 1 3 2 [100]) with turns := [.reset] }
      = some { idle with entropy := [100] } := by decide

/-- V-RST: SPLIT right after reset. -/
theorem test_split_after_reset :
    (stepped (pending 0x20 idle)).map ending = some (0x00000106, 1) := by decide

/-- V-DEC: an illegal word completes and is read back at CMD. -/
theorem test_illegal_word :
    (stepped (pending 0x0404_0006 idle)).map (fun t => (ending t, t.cmdreg))
      = some ((0x00000606, 0), 0x04040006) := by decide

/-- The host's own program FLDI f1, 3 and POLL, from the state after reset (program P1). -/
theorem test_host_program_first_command :
    (((stepped { idle with program := execOps cfg 0x000C0046 }).bind stepped).bind stepped).map
      (fun t => (t.readF 1, t.program, t.response))
      = some (3, [], .readData 0x00000002) := by decide

/-- A placed word is decoded and run by the next step. -/
theorem test_withFetchWord :
    (stepped (idle.withFetchWord 32 0x000C0046)).map (fun t => (t.readF 1, t.status))
      = some (3, Status.completed .ok) := by decide

/-! ## States that meet the hypotheses of the statements

Each theorem names the statement whose hypotheses it meets, clause by clause, at values where a range ends. -/

/-- A next state with a property, from an evaluation. -/
theorem exists_next {o : Host.Outcome State Fault Refusal} (p : State → Bool)
    (h : (nextOf o).any p = true) : ∃ t, o = .next t ∧ p t = true := by
  cases o with
  | next t => exact ⟨t, rfl, h⟩
  | fault r => cases h
  | refused r => cases h

/-! ### Encoding -/

theorem witness_DecodeOfEncode : (Instr.fldi 15 256).wellFormed = true := by decide

theorem witness_EncodeOfDecode : decode 0x000084C3 = .ok (.fmul 3 1 2) := by decide

/-- Words with each opcode of the table that are no command. -/
def badWords : List (BitVec 6 × Word) :=
  [(0x01, 0x00040001), (0x02, 0x00040002), (0x03, 0x000484C3), (0x04, 0x00040004), (0x05, 0x00004485),
    (0x06, 0x04040006), (0x10, 0x00000450), (0x11, 0x00004011), (0x12, 0x00000052), (0x18, 0x00000058),
    (0x20, 0x00000060), (0x21, 0x08000021), (0x00, 0x00000000), (0x3F, 0x0000003F)]

theorem badWords_rejected (e : BitVec 6 × Word) (h : e ∈ badWords) :
    opField e.2 = e.1 ∧ (decode e.2).toOption = none := by
  unfold badWords at h
  fin_cases h <;> decide

/-- IllegalWordCompletes, and the clause `illegalCompletes` of every command's rule. -/
theorem witness_illegalCompletes : ∀ e ∈ badWords, (pending e.2 idle).status.busy = true
    ∧ opField (pending e.2 idle).cmdreg = e.1 ∧ ∀ i, decode (pending e.2 idle).cmdreg ≠ .ok i := by
  intro e he
  obtain ⟨ho, hd⟩ := badWords_rejected e he
  refine ⟨rfl, ho, fun i hi => ?_⟩
  have hc : decode e.2 = .ok i := hi
  rw [hc] at hd
  cases hd

theorem witness_IllegalWordCompletes_accept : idle.status.busy = false := by decide

/-- PseudoInstructionsExpand: FDIV at both ends of the range of its operands, FDIV by zero, FNEG. -/
theorem witness_PseudoInstructionsExpand :
    ((3 : Reg) ≠ 1 ∧ ((withF idle [(1, 256), (2, 1)]).readF 1).toNat ≤ 256
        ∧ inRange ((withF idle [(1, 256), (2, 1)]).readF 2))
      ∧ ((2 : Reg) ≠ 1 ∧ ((withF idle [(1, 0), (2, 256)]).readF 1).toNat ≤ 256
        ∧ inRange ((withF idle [(1, 0), (2, 256)]).readF 2))
      ∧ idle.readF 2 = 0
      ∧ ((withF idle [(1, 256)]).readF 0 = 0 ∧ ((withF idle [(1, 256)]).readF 1).toNat ≤ 256) := by
  unfold inRange
  decide

/-! ### Steps, reset and the life of a command -/

theorem witness_StepRunsDecodedCommand :
    ((pending 0x20 idle).status.busy = true ∧ decode (pending 0x20 idle).cmdreg = .ok .split
        ∧ (pending 0x20 idle).turns = [])
      ∧ (idle.withFetchWord 32 0x20).status.busy = true
      ∧ decode (idle.withFetchWord 32 0x20).cmdreg = .ok .split
      ∧ (idle.withFetchWord 32 0x20).turns = [.unit] := by decide

/-- TurnsOfTheOtherAgents: each operation of the host, listed or as the default turn, the turn of the entropy
source, and a unit turn with nothing to do. -/
theorem witness_TurnsOfTheOtherAgents :
    (∀ p ∈ [[rd cfg .len], [wr cfg .len 5], [.poll], []],
        ({ idle with turns := [.host], program := p } : State).turns = .host :: []
          ∧ ({ idle with program := p } : State).turns = []
          ∧ ({ idle with program := p } : State).status.busy = false)
      ∧ (({ pending 0x20 idle with turns := [.host, .unit], program := [.poll] } : State).turns
            = .host :: [.unit]
          ∧ (pending 0x20 idle).status.busy = true)
      ∧ ({ idle with turns := [.entropy 511] } : State).turns = .entropy 511 :: []
      ∧ ({ idle with turns := [.unit] } : State).turns = .unit :: [] := by decide

theorem witness_ResetTurnResetsEverything :
    ({ pending 0x20 idle with turns := [.reset, .host] } : State).turns = .reset :: [.host] := by decide

theorem witness_CmdWriteAccepts : idle.status.busy = false ∧ (pending 0 idle).status.busy = true := by
  decide

/-- StatusTransitions: a reset, an acceptance, and completions with OK and with an error. -/
theorem witness_StatusTransitions :
    (∃ t, step { pending 0x20 idle with turns := [.reset] } = .next t
        ∧ decide (t.status ≠ (pending 0x20 idle).status) = true)
      ∧ (∃ t, step { idle with program := execOps cfg 0x20 } = .next t
        ∧ decide (t.status ≠ idle.status) = true)
      ∧ (∃ t, step (pending 0x12 idle) = .next t
        ∧ decide (t.status ≠ (pending 0x12 idle).status) = true)
      ∧ ∃ t, step (pending 0 idle) = .next t ∧ decide (t.status ≠ (pending 0 idle).status) = true :=
  ⟨exists_next _ (by decide), exists_next _ (by decide), exists_next _ (by decide),
    exists_next _ (by decide)⟩

theorem witness_StatusWordLayout :
    (3 ≤ 3 ∧ 3 < 8 ∨ 12 ≤ 3) ∧ (3 ≤ 7 ∧ 7 < 8 ∨ 12 ≤ 7) ∧ (3 ≤ 12 ∧ 12 < 8 ∨ 12 ≤ 12) := by decide

theorem witness_IdleBlockHolds :
    (∃ t, step { idle with program := [rd cfg .status] } = .next t ∧ decide (t.program = []) = true)
      ∧ idle.status.busy = false
      ∧ (∀ rest, ({ idle with program := [rd cfg .status] } : State).turns ≠ .reset :: rest)
      ∧ ∀ a w en v rest, ({ idle with program := [rd cfg .status] } : State).program
        ≠ .write a w en v :: rest := by
  refine ⟨exists_next _ (by decide), by decide, fun rest h => ?_, fun a w en v rest h => ?_⟩
  · cases h
  · cases h

/-- PendingCommandCompletes: its three cases all occur, the second one for CGEN and for SPLIT. -/
theorem witness_PendingCommandCompletes :
    ((pending 0x12 idle).status.busy = true ∧ (pending 0x12 idle).turns = [])
      ∧ stepped (pending 0x20 (withSecret [7] 1 2 2 [])) = some (pending 0x20 (withSecret [7] 1 2 2 []))
      ∧ stepped (pending 0x410 { idle with kreg := 2, entropy := [257] })
        = some (pending 0x410 { idle with kreg := 2, entropy := [257] })
      ∧ faultOf (step (pending 0x20 (withSecret [] 1 2 2 []))) = some (.unwritten (.secret 0)) := by
  decide

/-! ### The host bus -/

theorem witness_AddressMapRoundTrip :
    (Loc.elem (.y 19 15)).mapped cfg = true ∧ (Loc.elem (.secret 15)).mapped cfg = true
      ∧ (Loc.f 15).mapped cfg = true ∧ (Loc.elem (.w 19)).mapped cfg = true
      ∧ 0x014C003C % 4 = 0 ∧ locate cfg 0x014C003C = some (.elem (.y 19 15)) := by decide

/-- BusErrors: an offset between the registers, and the first ones beyond the arrays, are no place of the block. -/
theorem witness_BusErrors :
    AccessWidth.half ≠ .word ∧ (0x7 : BitVec 4) ≠ 0xF
      ∧ (0x40000042 : Word).extractLsb' 0 2 ≠ 0
      ∧ (∀ a ∈ [(0x40000028 : Word), 0x40001050, 0x40010040, 0x414C0040, 0x45000000, 0x3FFFFFFC],
        ∀ l : Loc, l.mapped cfg = true → a ≠ cfg.base + BitVec.ofNat 32 l.offset)
      ∧ 19 < cfg.sMax := by
  refine ⟨by decide, by decide, by decide, fun a ha l hl e => ?_, by decide⟩
  have ho : offsetOf cfg a = l.offset := by
    rw [e]
    exact offsetOf_address hl
  have hf := locate_offset hl
  rw [← ho] at hf
  have unmapped : locate cfg (offsetOf cfg a) = none := by
    fin_cases ha <;> decide
  rw [unmapped] at hf
  cases hf

theorem witness_BusyAccesses : (pending 0x20 idle).status.busy = true
    ∧ ∀ d ∈ [(0x0 : Word), 0x4, 0x8, 0xC], (0x40000010 : Word) ≠ cfg.base + d := by
  refine ⟨by decide, fun d hd => ?_⟩
  fin_cases hd <;> decide

/-- A state in which the first and the last element of every array is written. -/
def cornersWritten : State :=
  { idle with
    mem := { x := [(0, 1), (19, 256)], slen := [(0, 0), (19, 65535)], w := [(0, 1), (19, 256)]
             secret := [(0, 0), (15, 255)], y := [(0, 0), (1245199, 256)] } }

theorem witness_HostReadValues : cornersWritten.status.busy = false
    ∧ cornersWritten.mem.x.read 19 = some 256 ∧ cornersWritten.mem.slen.read 19 = some 65535
    ∧ cornersWritten.mem.w.read 19 = some 256 ∧ cornersWritten.mem.secret.read 15 = some 255
    ∧ cornersWritten.mem.y.read (yKey 19 15) = some 256
    ∧ 19 < cornersWritten.cfg.sMax ∧ 15 < cornersWritten.cfg.lMax := by decide

theorem witness_HostWriteKeepsLowBits : idle.status.busy = false
    ∧ (Elem.y 19 15).mapped cfg = true ∧ (Elem.secret 15).mapped cfg = true
    ∧ (Elem.x 19).mapped cfg = true ∧ (Elem.slen 0).mapped cfg = true
    ∧ ∀ i, Elem.y 19 15 ≠ .w i :=
  ⟨by decide, by decide, by decide, by decide, by decide, fun i h => by cases h⟩

theorem witness_HostReadHasNoSideEffect :
    ∃ t, hostRead idle 0x4000000C .word = .next t ∧ decide (t.response = .readData 0) = true :=
  exists_next _ (by decide)

theorem witness_ConstantRegisters :
    ∃ t, step { pending 0x20 idle with turns := [.reset] } = .next t ∧ decide (t.cfg = cfg) = true :=
  exists_next _ (by decide)

/-- UnwrittenReadFaults: a host read at the last weight, and a command that faults. -/
theorem witness_UnwrittenReadFaults :
    (idle.status.busy = false ∧ (Elem.w 19).mapped cfg = true ∧ idle.mem.read (.w 19) = none)
      ∧ exec .lbasis (withShares [256] [] [] 2) = .fault (.unwritten (.x 1)) := ⟨by decide, rfl⟩

theorem witness_PollRepeatsWhileBusy :
    ({ idle with program := [.poll] } : State).program = .poll :: []
      ∧ ({ pending 0x20 idle with program := [.poll] } : State).status.busy = true := by decide

/-! ### Field arithmetic -/

/-- FaddRule, FsubRule, FmulRule, FpowRule: the operands in range at both ends, and each of them out of range. -/
theorem witness_binaryRule :
    (((withF idle [(1, 256), (2, 256)]).readF 1).toNat ≤ 256
        ∧ ((withF idle [(1, 256), (2, 256)]).readF 2).toNat ≤ 256)
      ∧ 256 < ((withF idle [(1, 257)]).readF 1).toNat
      ∧ (((withF idle [(2, 257)]).readF 1).toNat ≤ 256 ∧ 256 < ((withF idle [(2, 257)]).readF 2).toNat) := by
  decide

/-- FinvRule, InverseLaw, PevalRule, PclrRule: the operand at both ends of its range, out of range, and 0. -/
theorem witness_FinvRule :
    inRange ((withF idle [(1, 1)]).readF 1) ∧ inRange ((withF idle [(1, 256)]).readF 1)
      ∧ 256 < ((withF idle [(1, 257)]).readF 1).toNat ∧ idle.readF 1 = 0
      ∧ (1 ≤ 1 ∧ 1 ≤ 256 ∧ ((withF idle [(1, 1)]).readF 1).toNat * 1 % 257 = 1) := by
  unfold inRange
  decide

theorem witness_FldiRule : (256 : FieldWord).toNat ≤ 256 ∧ 256 < (257 : FieldWord).toNat := by decide

theorem witness_PowerMethodsAgree : 256 < 2 ^ 9 := by decide

theorem witness_FieldCommandsOnlyWriteRd :
    fieldCommand (.finv 9 10) ∧ (∃ t, exec (.finv 9 10) idle = .next t ∧ decide (t.f = idle.f) = true)
      ∧ (∃ t, exec (.fadd 3 1 2) (withF idle [(1, 200), (2, 100)]) = .next t
        ∧ decide (t.status.code = 0) = true)
      ∧ ∀ r ∈ sources (.fadd 3 1 2), (withF idle [(3, 7)]).readF r = idle.readF r :=
  ⟨trivial, exists_next _ (by decide), exists_next _ (by decide), by decide⟩

/-! ### The polynomial unit -/

theorem witness_DrawsRejectLargeWords :
    takeDraws 2 [300, 7, 256, 511] = some ([7, 256], [511]) ∧ takeDraws 0 [300] = some ([], [300])
      ∧ takeDraws 2 [300, 7, 257] = none := by decide

/-- SamplingWaitsForEntropy: CGEN and SPLIT with too few words, and with exactly enough. -/
theorem witness_SamplingWaitsForEntropy :
    (let s := { withF idle [(1, 256)] with kreg := 20, entropy := [257] };
      2 ≤ s.kreg.toNat ∧ s.kreg.toNat ≤ s.cfg.sMax ∧ (s.readF 1).toNat ≤ 256
        ∧ (s.entropy.filter canonical).length < s.kreg.toNat - 1)
      ∧ (let s := { withF idle [(1, 256)] with kreg := 2, entropy := [257, 256] };
        2 ≤ s.kreg.toNat ∧ s.kreg.toNat ≤ s.cfg.sMax ∧ (s.readF 1).toNat ≤ 256
          ∧ s.kreg.toNat - 1 ≤ (s.entropy.filter canonical).length)
      ∧ (let s := withSecret [0x41, 0x42] 2 20 2 [100];
        s.len ≠ 0 ∧ 2 ≤ s.kreg.toNat ∧ s.kreg.toNat ≤ s.nreg.toNat ∧ s.nreg.toNat ≤ s.cfg.sMax
          ∧ s.len.toNat ≤ s.cfg.lMax ∧ (∀ p < s.len.toNat, s.mem.secret.read p ≠ none)
          ∧ (s.entropy.filter canonical).length < s.len.toNat * (s.kreg.toNat - 1))
      ∧ (let s := withSecret [0x41, 0x42] 2 2 2 [100, 511, 200];
        s.len ≠ 0 ∧ 2 ≤ s.kreg.toNat ∧ s.kreg.toNat ≤ s.nreg.toNat ∧ s.nreg.toNat ≤ s.cfg.sMax
          ∧ s.len.toNat ≤ s.cfg.lMax ∧ (∀ p < s.len.toNat, s.mem.secret.read p ≠ none)
          ∧ s.len.toNat * (s.kreg.toNat - 1) ≤ (s.entropy.filter canonical).length) := by decide

/-- CgenRule: success with the smallest and the largest k, k too small, k too large, the constant out of range. -/
theorem witness_CgenRule :
    (let s := { withF idle [(1, 256)] with kreg := 2, entropy := [100] };
      2 ≤ s.kreg.toNat ∧ s.kreg.toNat ≤ s.cfg.sMax ∧ (s.readF 1).toNat ≤ 256
        ∧ takeDraws (s.kreg.toNat - 1) s.entropy = some ([100], []))
      ∧ (let s := { idle with kreg := 20, entropy := List.replicate 19 256 };
        2 ≤ s.kreg.toNat ∧ s.kreg.toNat ≤ s.cfg.sMax ∧ (s.readF 1).toNat ≤ 256
          ∧ takeDraws (s.kreg.toNat - 1) s.entropy = some (List.replicate 19 256, []))
      ∧ ({ idle with kreg := 1 } : State).kreg.toNat < 2
      ∧ (let s := { idle with kreg := 21 }; 2 ≤ s.kreg.toNat ∧ s.cfg.sMax < s.kreg.toNat)
      ∧ (let s := { withF idle [(1, 257)] with kreg := 2 };
        2 ≤ s.kreg.toNat ∧ s.kreg.toNat ≤ s.cfg.sMax ∧ 256 < (s.readF 1).toNat) := by decide

theorem witness_PolynomialFormsAgree :
    ([256, 1] : List FieldWord) = 256 :: [1] ∧ (256 : FieldWord).toNat ≤ 256 := by decide

/-- PolynomialCommandFrames: CGEN that completes, raises and waits; PEVAL that completes and raises; PCLR. -/
theorem witness_PolynomialCommandFrames :
    (∃ t, exec (.cgen 1) { idle with kreg := 2, entropy := [100] } = .next t
        ∧ decide (t.status.code = 0) = true)
      ∧ (∃ t, exec (.cgen 1) idle = .next t ∧ decide (t.status.code ≠ 0) = true)
      ∧ (∃ t, exec (.cgen 1) { idle with kreg := 2 } = .next t
        ∧ decide (t = { idle with kreg := 2 }) = true)
      ∧ (∃ t, exec (.peval 2 3) (withF idle [(3, 2)]) = .next t ∧ decide (t.status.code = 0) = true)
      ∧ (∃ t, exec (.peval 2 3) idle = .next t ∧ decide (t.status.code ≠ 0) = true)
      ∧ ∃ t, exec .pclr idle = .next t ∧ decide (t.status.code = 0) = true :=
  ⟨exists_next _ (by decide), exists_next _ (by decide), exists_next _ (by decide),
    exists_next _ (by decide), exists_next _ (by decide), exists_next _ (by decide)⟩

/-! ### SPLIT -/

/-- The "AB" split of the spec (95_test_vectors.md S7), pending. -/
def abSplit : State := pending 0x20 (withSecret [0x41, 0x42] 2 3 2 [100, 200])

/-- The bytes of the "AB" split. -/
def abByte (p : Nat) : Byte := if p = 0 then 0x41 else 0x42

/-- SplitRule, SplitLanesAreIndependent, PevalMatchesSplit: a SPLIT that is ready, with k < n, with k = n = S_MAX,
and with L = L_MAX. -/
theorem witness_splitReady :
    splitReady abSplit abByte [100, 200] []
      ∧ splitReady (withSecret [255] 1 20 20 (List.replicate 19 256)) (fun _ => 255)
        (List.replicate 19 256) []
      ∧ splitReady (withSecret (List.replicate 16 255) 16 2 2 (List.replicate 16 256)) (fun _ => 255)
        (List.replicate 16 256) [] := by
  unfold splitReady
  exact ⟨by decide, by decide, by decide⟩

/-- SplitRule: the six errors. -/
theorem witness_SplitRule_errors :
    (withSecret [] 0 3 2 []).len.toNat = 0
      ∧ (let s := withSecret [] 2 1 1 []; s.len.toNat ≠ 0 ∧ s.nreg.toNat < 2)
      ∧ (let s := withSecret [] 2 3 1 []; s.len.toNat ≠ 0 ∧ 2 ≤ s.nreg.toNat ∧ s.kreg.toNat < 2)
      ∧ (let s := withSecret [] 2 3 4 [];
        s.len.toNat ≠ 0 ∧ 2 ≤ s.nreg.toNat ∧ 2 ≤ s.kreg.toNat ∧ s.nreg.toNat < s.kreg.toNat)
      ∧ (let s := withSecret [] 17 21 21 [];
        s.len.toNat ≠ 0 ∧ 2 ≤ s.kreg.toNat ∧ s.kreg.toNat ≤ s.nreg.toNat ∧ s.cfg.sMax < s.nreg.toNat)
      ∧ (let s := withSecret [] 17 20 2 [];
        s.len.toNat ≠ 0 ∧ 2 ≤ s.kreg.toNat ∧ s.kreg.toNat ≤ s.nreg.toNat ∧ s.nreg.toNat ≤ s.cfg.sMax
          ∧ s.cfg.lMax < s.len.toNat) := by decide

/-- SplitFrame: SPLIT that completes, raises and waits. -/
theorem witness_SplitFrame :
    (∃ t, exec .split abSplit = .next t ∧ decide (t.status = Status.completed .ok) = true)
      ∧ (∃ t, exec .split (pending 0x20 idle) = .next t ∧ decide (t.status.code = 1) = true)
      ∧ (∃ t, exec .split { abSplit with entropy := [100] } = .next t
        ∧ decide (t = { abSplit with entropy := [100] }) = true) :=
  ⟨exists_next _ (by decide), exists_next _ (by decide), exists_next _ (by decide)⟩

/-- SplitIndexBounds, SplitDrawsAndDiscards. -/
theorem witness_successful_split :
    abSplit.status.busy = true
      ∧ ∃ t, exec .split abSplit = .next t ∧ decide (t.status = Status.completed .ok) = true :=
  ⟨by decide, exists_next _ (by decide)⟩

/-- SplitLanesAreIndependent: two splits that agree at position 1 and differ at position 0. -/
theorem witness_SplitLanesAreIndependent :
    splitReady abSplit abByte [100, 200] []
      ∧ splitReady (pending 0x20 (withSecret [0, 0x42] 2 4 2 [7, 200])) (fun p => if p = 0 then 0 else 0x42)
        [7, 200] []
      ∧ 1 < abSplit.len.toNat ∧ 2 < abSplit.nreg.toNat
      ∧ abByte 1 = (fun p => if p = 0 then 0 else 0x42 : Nat → Byte) 1
      ∧ ∀ d < abSplit.kreg.toNat - 1, ([100, 200] : List FieldWord).getD (1 * (abSplit.kreg.toNat - 1) + d) 0
        = ([7, 200] : List FieldWord).getD (1 * (abSplit.kreg.toNat - 1) + d) 0 := by
  unfold splitReady
  decide

/-- PevalMatchesSplit: byte 1 of the "AB" split at the first and the last share index. -/
theorem witness_PevalMatchesSplit :
    (∃ t, exec .split abSplit = .next t ∧ decide (t.status = Status.completed .ok) = true)
      ∧ ∀ x ∈ [1, 3],
        let g := { withF idle [(1, 0x42), (3, BitVec.ofNat 9 x)] with kreg := 2, entropy := [200] }
        1 < abSplit.len.toNat ∧ 1 ≤ x ∧ x ≤ abSplit.nreg.toNat ∧ g.cfg = abSplit.cfg
          ∧ g.kreg = abSplit.kreg ∧ g.readF 1 = (abByte 1).setWidth 9 ∧ g.readF 3 = BitVec.ofNat 9 x
          ∧ g.entropy = (([100, 200] : List FieldWord).drop (1 * (abSplit.kreg.toNat - 1))).take
            (abSplit.kreg.toNat - 1) :=
  ⟨exists_next _ (by decide), by decide⟩

/-! ### LBASIS and RECON -/

/-- The indices of the state with shares 1 and 2 of the "AB" split. -/
def abIndex (i : Nat) : FieldWord := BitVec.ofNat 9 (i + 1)

/-- The values of shares 1 and 2 of the "AB" split. -/
def abValue (i p : Nat) : FieldWord :=
  if i = 0 then (if p = 0 then 165 else 9) else (if p = 0 then 8 else 209)

/-- Shares 1 and 2 of the "AB" split in slots 0 and 1. -/
def abShares : State := withShares [1, 2] [2, 2] [[165, 9], [8, 209]] 2

/-- LbasisRule and ReconRule: success. -/
theorem witness_reconstruction :
    1 ≤ abShares.scnt.toNat ∧ abShares.scnt.toNat ≤ abShares.cfg.sMax
      ∧ holdsLength abShares abShares.scnt.toNat 2 ∧ (2 : BitVec 16).toNat ≤ abShares.cfg.lMax
      ∧ holdsX abShares abShares.scnt.toNat abIndex ∧ goodIndices abShares.scnt.toNat abIndex
      ∧ holdsY abShares abShares.scnt.toNat (2 : BitVec 16).toNat abValue
      ∧ ∀ i < abShares.scnt.toNat, ∀ p < (2 : BitVec 16).toNat, (abValue i p).toNat ≤ 256 := by
  unfold holdsLength holdsX goodIndices holdsY inRange
  decide

/-- LbasisRule: one share at the end of its range, and all S_MAX slots. -/
theorem witness_LbasisRule_bounds :
    (let s := withShares [256] [] [] 1;
      1 ≤ s.scnt.toNat ∧ s.scnt.toNat ≤ s.cfg.sMax ∧ holdsX s s.scnt.toNat (fun _ => 256)
        ∧ goodIndices s.scnt.toNat (fun _ => 256))
      ∧ (let s := withShares ((List.range 20).map fun i => BitVec.ofNat 9 (i + 1)) [] [] 20;
        1 ≤ s.scnt.toNat ∧ s.scnt.toNat ≤ s.cfg.sMax ∧ holdsX s s.scnt.toNat abIndex
          ∧ goodIndices s.scnt.toNat abIndex) := by
  unfold holdsX goodIndices inRange
  decide

theorem firstEqualPair_three (x : Nat → FieldWord) (h01 : x 0 ≠ x 1) (h02 : x 0 = x 2) :
    firstEqualPair 3 x 0 2 := by
  refine ⟨by omega, by omega, h02, fun i' j' h h' he => ?_⟩
  by_cases hi : i' = 0
  · subst hi
    refine .inr ⟨rfl, ?_⟩
    by_contra hj
    obtain rfl : j' = 1 := by omega
    exact h01 he
  · exact .inl (by omega)

/-- LbasisRule and ReconRule: no shares, too many, an index 0 and 257 behind a good one, and a pair of equal
indices. -/
theorem witness_LbasisRule_errors :
    (withShares [] [] [] 0).scnt.toNat = 0
      ∧ (withShares [] [] [] 21).cfg.sMax < (withShares [] [] [] 21).scnt.toNat
      ∧ (∀ bad ∈ [(0 : FieldWord), 257],
        let s := withShares [1, bad] [] [] 2
        let x := fun i => if i = 0 then 1 else bad
        1 < s.scnt.toNat ∧ s.scnt.toNat ≤ s.cfg.sMax ∧ holdsX s 2 x ∧ (∀ j < 1, inRange (x j))
          ∧ ¬ inRange (x 1))
      ∧ (let s := withShares [1, 2, 1] [1, 1, 1] [] 3
        let x := fun i => if i = 1 then 2 else 1
        s.scnt.toNat = 3 ∧ s.scnt.toNat ≤ s.cfg.sMax ∧ holdsLength s 3 1
          ∧ (1 : BitVec 16).toNat ≤ s.cfg.lMax ∧ holdsX s 3 x ∧ (∀ a < 3, inRange (x a)))
      ∧ firstEqualPair 3 (fun i => if i = 1 then 2 else 1) 0 2 := by
  refine ⟨by decide, by decide, ?_, ?_, firstEqualPair_three _ (by decide) (by decide)⟩ <;>
  · unfold inRange
    simp only [holdsX, holdsLength]
    decide

/-- ReconRule: a length that differs, a length over L_MAX, and an index out of range behind good lengths. -/
theorem witness_ReconRule_errors :
    (let s := withShares [1, 2, 3] [3, 3, 2] [] 3;
      1 ≤ 2 ∧ 2 < s.scnt.toNat ∧ s.scnt.toNat ≤ s.cfg.sMax ∧ holdsLength s 2 3
        ∧ s.mem.slen.read 2 = some 2 ∧ (2 : BitVec 16) ≠ 3)
      ∧ (let s := withShares [1, 2] [17, 17] [] 2;
        1 ≤ s.scnt.toNat ∧ s.scnt.toNat ≤ s.cfg.sMax ∧ holdsLength s s.scnt.toNat 17
          ∧ s.cfg.lMax < (17 : BitVec 16).toNat)
      ∧ (let s := withShares [0, 2] [1, 1] [] 2;
        0 < s.scnt.toNat ∧ s.scnt.toNat ≤ s.cfg.sMax ∧ holdsLength s s.scnt.toNat 1
          ∧ (1 : BitVec 16).toNat ≤ s.cfg.lMax ∧ holdsX s 1 (fun _ => 0)
          ∧ (∀ j < 0, inRange ((fun _ => 0 : Nat → FieldWord) j))
          ∧ ¬ inRange ((fun _ => 0 : Nat → FieldWord) 0)) := by
  unfold inRange
  simp only [holdsX, holdsLength]
  decide

/-- The values of the next witness: 257 at position 1 of slot 1 is out of range. -/
def badValue (i p : Nat) : FieldWord :=
  if i = 0 then (if p = 0 then 256 else 0) else (if p = 0 then 5 else 257)

/-- ReconRule: a value out of range behind good ones. -/
theorem witness_ReconRule_value :
    let s := withShares [1, 2] [2, 2] [[256, 0], [5, 257]] 2
    (1 < s.scnt.toNat ∧ 1 < (2 : BitVec 16).toNat ∧ s.scnt.toNat ≤ s.cfg.sMax
        ∧ holdsLength s s.scnt.toNat 2 ∧ (2 : BitVec 16).toNat ≤ s.cfg.lMax)
      ∧ (holdsX s s.scnt.toNat abIndex ∧ goodIndices s.scnt.toNat abIndex)
      ∧ (holdsY s 1 (2 : BitVec 16).toNat badValue
        ∧ ∀ j < 1, ∀ q < (2 : BitVec 16).toNat, (badValue j q).toNat ≤ 256)
      ∧ (∀ q ≤ 1, s.mem.y.read (yKey 1 q) = some (badValue 1 q))
      ∧ (∀ q < 1, (badValue 1 q).toNat ≤ 256) ∧ 256 < (badValue 1 1).toNat := by
  simp only [holdsX, holdsLength, holdsY, goodIndices]
  unfold inRange
  exact ⟨by decide, by decide, by decide, by decide, by decide, by decide⟩

/-- SplitRule, LbasisRule, ReconRule, their model faults: SPLIT at its last byte, LBASIS and RECON at their last
slot, RECON with no length, and with no value at its last position. -/
theorem witness_unwritten_elements :
    (let s := withSecret [5] 2 2 2 [];
      s.len ≠ 0 ∧ 2 ≤ s.kreg.toNat ∧ s.kreg.toNat ≤ s.nreg.toNat ∧ s.nreg.toNat ≤ s.cfg.sMax
        ∧ s.len.toNat ≤ s.cfg.lMax ∧ 1 < s.len.toNat ∧ (∀ q < 1, s.mem.secret.read q ≠ none)
        ∧ s.mem.secret.read 1 = none)
      ∧ (let s := withShares [256] [1, 1] [] 2;
        1 < s.scnt.toNat ∧ s.scnt.toNat ≤ s.cfg.sMax ∧ holdsLength s s.scnt.toNat 1
          ∧ (1 : BitVec 16).toNat ≤ s.cfg.lMax ∧ holdsX s 1 (fun _ => 256)
          ∧ (∀ j < 1, inRange ((fun _ => 256 : Nat → FieldWord) j)) ∧ s.mem.x.read 1 = none)
      ∧ (let s := withShares [1] [16] [] 2;
        1 < s.scnt.toNat ∧ s.scnt.toNat ≤ s.cfg.sMax ∧ holdsLength s 1 16 ∧ s.mem.slen.read 1 = none)
      ∧ (let s := withShares [1, 2] [2, 2] [[256, 0], [5]] 2
        (1 < s.scnt.toNat ∧ 1 < (2 : BitVec 16).toNat ∧ s.scnt.toNat ≤ s.cfg.sMax
            ∧ holdsLength s s.scnt.toNat 2 ∧ (2 : BitVec 16).toNat ≤ s.cfg.lMax)
          ∧ (holdsX s s.scnt.toNat abIndex ∧ goodIndices s.scnt.toNat abIndex)
          ∧ (holdsY s 1 (2 : BitVec 16).toNat badValue
            ∧ ∀ j < 1, ∀ q < (2 : BitVec 16).toNat, (badValue j q).toNat ≤ 256)
          ∧ (∀ q < 1, s.mem.y.read (yKey 1 q) = some (badValue 1 q))
          ∧ (∀ q < 1, (badValue 1 q).toNat ≤ 256) ∧ s.mem.y.read (yKey 1 1) = none) := by
  simp only [holdsX, holdsLength, holdsY, goodIndices]
  unfold inRange
  exact ⟨by decide, by decide, by decide, by decide, by decide, by decide, by decide, by decide, by decide⟩

/-- ReconstructionFrames: LBASIS and RECON that complete and that raise. -/
theorem witness_ReconstructionFrames :
    (∃ t, exec .lbasis abShares = .next t ∧ decide (t.status.code = 0) = true)
      ∧ (∃ t, exec .lbasis idle = .next t ∧ decide (t.status.code ≠ 0) = true)
      ∧ (∃ t, exec .recon abShares = .next t ∧ decide (t.status.code = 0) = true)
      ∧ ∃ t, exec .recon idle = .next t ∧ decide (t.status.code ≠ 0) = true :=
  ⟨exists_next _ (by decide), exists_next _ (by decide), exists_next _ (by decide),
    exists_next _ (by decide)⟩

/-- WeightsSumToOne: one index, two indices at the ends of the range. -/
theorem witness_WeightsSumToOne :
    (1 ≤ 1 ∧ goodIndices 1 fun _ => 256)
      ∧ inRange (1 : FieldWord) ∧ inRange (256 : FieldWord) ∧ (1 : FieldWord) ≠ 256 := by
  unfold goodIndices inRange
  decide

theorem witness_WeightsFollowTheirIndices :
    ([2, 3, 4] : List FieldWord).Perm [4, 3, 2] ∧ ([2, 3, 4] : List FieldWord).Nodup
      ∧ ([2, 3, 4] : List FieldWord)[0]? = ([4, 3, 2] : List FieldWord)[2]? := by decide

theorem witness_OnlyFinvDividesByZero : idle.status.code ≠ 2
    ∧ ∃ t, exec (.finv 9 10) idle = .next t ∧ decide (t.status.code = 2) = true :=
  ⟨by decide, exists_next _ (by decide)⟩

theorem witness_ZeroLengthReconstruction :
    let s := withShares [1, 2] [0, 0] [] 2
    1 ≤ s.scnt.toNat ∧ s.scnt.toNat ≤ s.cfg.sMax ∧ holdsLength s s.scnt.toNat 0
      ∧ holdsX s s.scnt.toNat abIndex ∧ goodIndices s.scnt.toNat abIndex := by
  simp only [holdsX, holdsLength, goodIndices]
  unfold inRange
  decide

/-- ReconLanesAreIndependent: two share sets that agree at position 1 and differ at position 0. -/
theorem witness_ReconLanesAreIndependent :
    let s' := withShares [1, 2] [2, 2] [[0, 9], [0, 209]] 2
    (∃ t, exec .recon abShares = .next t ∧ decide (t.status.code = 0 ∧ 1 < t.len.toNat) = true)
      ∧ (∃ t, exec .recon s' = .next t ∧ decide (t.status.code = 0 ∧ 1 < t.len.toNat) = true)
      ∧ abShares.scnt = s'.scnt ∧ (∀ i < abShares.scnt.toNat, abShares.mem.x.read i = s'.mem.x.read i)
      ∧ ∀ i < abShares.scnt.toNat, abShares.mem.y.read (yKey i 1) = s'.mem.y.read (yKey i 1) :=
  ⟨exists_next _ (by decide), exists_next _ (by decide), by decide, by decide, by decide⟩

/-- SharesReconstructTheSecret: shares 3 and 1 of the "AB" split, in that order, in slots 0 and 1. -/
theorem witness_SharesReconstructTheSecret :
    let u := withShares [3, 1] [2, 2] [[108, 152], [165, 9]] 2
    let σ := fun i : Nat => if i = 0 then 2 else 0
    abSplit.status.busy = true
      ∧ (∃ t, exec .split abSplit = .next t
        ∧ decide (t.status = Status.completed .ok ∧ ∀ i < u.scnt.toNat,
          u.mem.x.read i = t.mem.x.read (σ i) ∧ u.mem.slen.read i = t.mem.slen.read (σ i)
            ∧ ∀ p < abSplit.len.toNat, u.mem.y.read (yKey i p) = t.mem.y.read (yKey (σ i) p)) = true)
      ∧ u.cfg = abSplit.cfg ∧ abSplit.kreg.toNat ≤ u.scnt.toNat
      ∧ (∀ i < u.scnt.toNat, σ i < abSplit.nreg.toNat)
      ∧ ∀ i < u.scnt.toNat, ∀ j < u.scnt.toNat, σ i = σ j → i = j :=
  ⟨by decide, exists_next _ (by decide), by decide, by decide, by decide, by decide⟩

/-! ### Rules of the whole machine -/

theorem witness_CompletionCodes :
    ∃ t, exec .recon abShares = .next t ∧ decide (t ≠ abShares) = true :=
  exists_next _ (by decide)

/-- StepKeepsInvariant: a state after a command, with arrays written, and its step. -/
theorem witness_StepKeepsInvariant : abSplit.Inv
    ∧ ∃ t, step abSplit = .next t ∧ decide (t.mem.y.length = 6) = true :=
  ⟨⟨by decide, by decide, by decide, by decide, by decide⟩, exists_next _ (by decide)⟩

end Sys2Proof.Tests
end

/-! # Proofs: the turns of the agents (spec/00_scope.md) -/

section
namespace Sys2Proof.Machine

/-! ## Who moves -/

theorem step_of_turns_cons {s : State} {turn : Turn} {rest : List Turn} (h : s.turns = turn :: rest) :
    step s = runTurn turn { s with turns := rest } := by
  simp only [step, advance, h]

theorem step_of_turns_nil {s : State} (h : s.turns = []) : step s = defaultTurn s := by
  simp only [step, advance, h]

theorem defaultTurn_of_idle {s : State} (hb : s.status.busy = false) : defaultTurn s = hostTurn s :=
  if_neg (by simp [hb])

theorem unitTurn_of_idle {s : State} (hb : s.status.busy = false) : unitTurn s = .next s :=
  if_neg (by simp [hb])

/-- The listed host turn and the default turn of an idle block are one move: the host's, with the turn taken off
(spec/20_memory.md R72, log 2). -/
theorem step_of_host_moves {s : State}
    (h : (∃ rest, s.turns = .host :: rest) ∨ (s.turns = [] ∧ s.status.busy = false)) :
    step s = hostTurn { s with turns := s.turns.tail } := by
  rcases h with ⟨rest, ht⟩ | ⟨ht, hb⟩
  · rw [step_of_turns_cons ht, ht]
    rfl
  · have hs : { s with turns := s.turns.tail } = s := by rw [ht, List.tail_nil, ← ht]
    rw [step_of_turns_nil ht, defaultTurn_of_idle hb, hs]

/-! ## What the host's next operation does -/

theorem hostTurn_of_program_nil {s : State} (h : s.program = []) : hostTurn s = .next s := by
  simp only [hostTurn, h]

theorem hostTurn_of_read {s : State} {addr : Word} {width : AccessWidth} {rest : List HostOp}
    (h : s.program = .read addr width :: rest) :
    hostTurn s = hostRead { s with program := rest } addr width := by
  simp only [hostTurn, h]

theorem hostTurn_of_write {s : State} {addr v : Word} {width : AccessWidth} {enables : BitVec 4}
    {rest : List HostOp} (h : s.program = .write addr width enables v :: rest) :
    hostTurn s = hostWrite { s with program := rest } addr width enables v := by
  simp only [hostTurn, h]

/-- STATUS is mapped at every base and readable while BUSY = 1, so a POLL's read is always answered
(spec/20_memory.md R71). -/
theorem hostRead_status (s : State) :
    hostRead s (Loc.status.address s.cfg) .word
      = .next { s with response := .readData s.status.toWord } :=
  hostRead_of_mapped (l := .status) rfl (fun _ => rfl) rfl

/-- A POLL answers STATUS and stays in front exactly while BUSY = 1 (spec/30_encoding.md R105). -/
theorem hostTurn_of_poll {s : State} {rest : List HostOp} (h : s.program = .poll :: rest) :
    hostTurn s = .next { s with
      program := if s.status.busy then s.program else rest
      response := .readData s.status.toWord } := by
  have hp : hostTurn s = hostPoll { s with program := rest } s.program := by simp only [hostTurn, h]
  rw [hp, hostPoll, hostRead_status { s with program := rest }]
  cases s.status.busy <;> rfl

/-! ## The turns together -/

/-- Settles O60: the host's move by the operation in front, then the entropy turn and the idle unit turn, which
runTurn gives. -/
theorem turnsOfTheOtherAgents : Obligations.TurnsOfTheOtherAgents := by
  unfold Obligations.TurnsOfTheOtherAgents
  refine ⟨fun s hmoves => ?_, fun s raw rest ht => ?_, fun s rest ht hb => ?_⟩
  · have hstep := step_of_host_moves hmoves
    refine ⟨fun a w rest hp => ?_, fun a w en v rest hp => ?_, fun rest hp => ?_, fun hp => ?_⟩
    · exact hstep.trans (hostTurn_of_read hp)
    · exact hstep.trans (hostTurn_of_write hp)
    · exact hstep.trans (hostTurn_of_poll hp)
    · exact hstep.trans (hostTurn_of_program_nil hp)
  · exact step_of_turns_cons ht
  · exact (step_of_turns_cons ht).trans (unitTurn_of_idle hb)

end Sys2Proof.Machine
end

/-! # Proofs: the invariant (spec/10_state.md, spec/60_exceptions.md R220) -/

section
namespace Sys2Proof.Machine

/-! ## Cells stay within the block -/

theorem Cells.below_write {w n i : Nat} {c : Cells w} (hi : i < n) (v : BitVec w)
    (hc : c.below n = true) : (c.write i v).below n = true :=
  c.all_write i v _ (by simpa using hi) hc

theorem Cells.below_writeRun {w n i : Nat} {c : Cells w} {vs : List (BitVec w)}
    (hi : i + vs.length ≤ n) (hc : c.below n = true) : (c.writeRun i vs).below n = true :=
  c.all_writeRun i vs _ (fun d hd => by simp only [decide_eq_true_eq]; omega) hc

/-- The key of a position that fits in 16 bits gives back its slot and its position (spec/20_memory.md R66). -/
theorem yKey_div_mod {s p : Nat} (hp : p < 65536) :
    yKey s p / 65536 = s ∧ yKey s p % 65536 = p := by
  unfold yKey
  omega

theorem Cells.inGrid_write {cfg : Params} {s p : Nat} {c : Cells 9}
    (hm : (Elem.y s p).mapped cfg = true) (v : FieldWord) (hc : c.inGrid cfg = true) :
    (c.write (yKey s p) v).inGrid cfg = true := by
  obtain ⟨hs, hp⟩ := yKey_div_mod (Elem.mapped_y hm).2
  exact c.all_write _ v _ (by rw [hs, hp]; exact hm) hc

/-- A row of Y that starts at position 0 of a slot stays within the block. -/
theorem Cells.inGrid_writeRow {cfg : Params} {s : Nat} {c : Cells 9} {row : List FieldWord}
    (hs : s < cfg.sMax) (hl : row.length ≤ cfg.lMax) (hc : c.inGrid cfg = true) :
    (c.writeRun (yKey s 0) row).inGrid cfg = true := by
  refine c.all_writeRun _ row _ (fun d hd => ?_) hc
  have hmax := cfg.lMax_legal
  obtain ⟨hdiv, hmod⟩ := yKey_div_mod (s := s) (p := d) (by omega)
  have hkey : yKey s 0 + d = yKey s d := by unfold yKey; omega
  rw [hkey, hdiv, hmod]
  simp only [Bool.and_eq_true, decide_eq_true_eq]
  omega

theorem Cells.inGrid_writeRows {cfg : Params} {n : Nat} {c : Cells 9} {rows : Nat → List FieldWord}
    (hn : n ≤ cfg.sMax) (hl : ∀ s, (rows s).length ≤ cfg.lMax) (hc : c.inGrid cfg = true) :
    ((List.range n).foldl (fun y s => y.writeRun (yKey s 0) (rows s)) c).inGrid cfg = true := by
  induction n with
  | zero => exact hc
  | succ n ih =>
    rw [List.range_succ, List.foldl_append]
    exact Cells.inGrid_writeRow (by omega) (hl n) (ih (by omega))

/-! ## The arrays -/

/-- What State.Inv asks of the arrays of a block. -/
structure Memory.Sound (cfg : Params) (m : Memory) : Prop where
  wf : m.wf = true
  inRange : m.inRange cfg = true
  weightsOk : m.weightsOk = true

theorem Memory.inRange_iff {cfg : Params} {m : Memory} :
    m.inRange cfg = true ↔ m.x.below cfg.sMax = true ∧ m.slen.below cfg.sMax = true
      ∧ m.w.below cfg.sMax = true ∧ m.secret.below cfg.lMax = true ∧ m.y.inGrid cfg = true := by
  simp only [Memory.inRange, Bool.and_eq_true, and_assoc]

theorem Memory.unwritten_sound (cfg : Params) : Memory.unwritten.Sound cfg :=
  ⟨Memory.unwritten_wf, rfl, rfl⟩

/-- A host write keeps the arrays sound: it reaches only elements of the block, and none of W
(spec/20_memory.md R67, R68). -/
theorem Memory.Sound.store {cfg : Params} {m : Memory} {e : Elem} (h : m.Sound cfg)
    (hm : (Loc.elem e).mapped cfg = true) (hw : (Loc.elem e).readOnly = false) (v : Word) :
    (m.store e v).Sound cfg := by
  obtain ⟨hx, hl, hwt, hs, hy⟩ := Memory.inRange_iff.mp h.inRange
  refine ⟨m.store_wf e v h.wf, Memory.inRange_iff.mpr ?_, ?_⟩
  · cases e with
    | x s => exact ⟨Cells.below_write (of_decide_eq_true hm) _ hx, hl, hwt, hs, hy⟩
    | slen s => exact ⟨hx, Cells.below_write (of_decide_eq_true hm) _ hl, hwt, hs, hy⟩
    | w s => exact ⟨hx, hl, Cells.below_write (of_decide_eq_true hm) _ hwt, hs, hy⟩
    | secret p => exact ⟨hx, hl, hwt, Cells.below_write (of_decide_eq_true hm) _ hs, hy⟩
    | y s p => exact ⟨hx, hl, hwt, hs, Cells.inGrid_write hm _ hy⟩
  · cases e with
    | w s => cases hw
    | _ => exact h.weightsOk

/-- The weights of at most S_MAX points are field elements and fit in W (spec/43_lagrange_basis.md R185). -/
theorem Memory.Sound.writeWeights {cfg : Params} {m : Memory} {xs : List FieldWord}
    (h : m.Sound cfg) (hn : xs.length ≤ cfg.sMax) : (writeWeights m (weights xs)).Sound cfg := by
  obtain ⟨hx, hl, hw, hs, hy⟩ := Memory.inRange_iff.mp h.inRange
  refine ⟨writeWeights_wf m _ h.wf, Memory.inRange_iff.mpr ⟨hx, hl, ?_, hs, hy⟩, ?_⟩
  · exact Cells.below_writeRun (by simpa using hn) hw
  · refine Cells.all_writeRun _ _ _ _ (fun d hd => ?_) h.weightsOk
    simp only [weights, List.getElem_map]
    exact canonical_ofNat (basis_lt _ _)

theorem Memory.Sound.writeSecret {cfg : Params} {m : Memory} {out : List Byte}
    (h : m.Sound cfg) (hn : out.length ≤ cfg.lMax) : (writeSecret m out).Sound cfg := by
  obtain ⟨hx, hl, hw, hs, hy⟩ := Memory.inRange_iff.mp h.inRange
  exact ⟨writeSecret_wf m out h.wf,
    Memory.inRange_iff.mpr ⟨hx, hl, hw, Cells.below_writeRun (by simpa using hn) hs, hy⟩, h.weightsOk⟩

theorem Memory.Sound.writeShares {cfg : Params} {m : Memory} {n : Nat} {polys : List (List FieldWord)}
    (h : m.Sound cfg) (hn : n ≤ cfg.sMax) (hp : polys.length ≤ cfg.lMax) (len : BitVec 16) :
    (writeShares m n len polys).Sound cfg := by
  obtain ⟨hx, hl, hw, hs, hy⟩ := Memory.inRange_iff.mp h.inRange
  refine ⟨writeShares_wf m n len polys h.wf, Memory.inRange_iff.mpr ⟨?_, ?_, hw, hs, ?_⟩, h.weightsOk⟩
  · exact Cells.below_writeRun (by simpa using hn) hx
  · exact Cells.below_writeRun (by simpa using hn) hl
  · exact Cells.inGrid_writeRows hn (fun s => by simpa using hp) hy

/-! ## The hidden store -/

theorem State.polyOk_iff {s : State} :
    s.polyOk = true ↔ s.coef.length = s.cfg.sMax ∧ (∀ c ∈ s.coef, canonical c = true)
      ∧ s.kc.toNat ≤ s.cfg.sMax ∧ (s.kc = 0 ∨ 2 ≤ s.kc.toNat)
      ∧ ∀ c ∈ s.coef.drop s.kc.toNat, c = 0 := by
  simp only [State.polyOk, Bool.and_eq_true, Bool.or_eq_true, List.all_eq_true, decide_eq_true_eq,
    and_assoc]

theorem canonical_of_mem_zeros {n : Nat} {c : FieldWord} (h : c ∈ List.replicate n 0) :
    canonical c = true := by
  rw [List.eq_of_mem_replicate h]
  rfl

/-- A polynomial of 2 to S_MAX field elements, followed by zeros, is a legal hidden store
(spec/10_state.md R40). -/
theorem State.polyOk_setPoly {s : State} {cs : List FieldWord} {k : FieldWord}
    (hlen : cs.length = k.toNat) (hcs : ∀ c ∈ cs, canonical c = true) (h2 : 2 ≤ k.toNat)
    (hmax : k.toNat ≤ s.cfg.sMax) : (s.setPoly cs k).polyOk = true := by
  rw [State.polyOk_iff, State.setPoly_coef, State.setPoly_kc, State.setPoly_cfg]
  refine ⟨?_, fun c hc => ?_, hmax, .inr h2, fun c hc => ?_⟩
  · rw [List.length_append, List.length_replicate]
    omega
  · exact (List.mem_append.mp hc).elim (hcs c) canonical_of_mem_zeros
  · rw [← hlen, List.drop_left] at hc
    exact List.eq_of_mem_replicate hc

theorem State.polyOk_clearPoly (s : State) : s.clearPoly.polyOk = true :=
  State.polyOk_iff.mpr ⟨List.length_replicate, fun _ => canonical_of_mem_zeros, Nat.zero_le _, .inl rfl,
    fun _ hc => List.eq_of_mem_replicate (List.mem_of_mem_drop hc)⟩

/-! ## STATUS and ERRINFO -/

theorem State.statusOk_accept (s : State) (v : Word) : (s.accept v).statusOk = true := rfl

theorem State.statusOk_complete (s : State) (c : Code) (info : Word) :
    (s.complete c info).statusOk = true := by
  cases c <;> rfl

/-! ## What the invariant says, and what it does not read -/

theorem State.inv_iff {s : State} :
    s.Inv ↔ s.mem.Sound s.cfg ∧ s.statusOk = true ∧ s.polyOk = true :=
  ⟨fun h => ⟨⟨h.wf, h.inRange, h.weights⟩, h.status, h.poly⟩,
    fun ⟨hm, hst, hp⟩ => ⟨hm.wf, hm.inRange, hm.weightsOk, hst, hp⟩⟩

/-- The invariant does not read what the agents will do, the queue of raw words, or the response. -/
theorem State.Inv.with_agents {s : State} (h : s.Inv) (ts : List Turn) (p : List HostOp)
    (q : List FieldWord) (r : Response) :
    State.Inv { s with turns := ts, program := p, entropy := q, response := r } :=
  ⟨h.wf, h.inRange, h.weights, h.status, h.poly⟩

theorem State.inv_powerOn (p : Params) : (State.powerOn p).Inv :=
  State.inv_iff.mpr ⟨Memory.unwritten_sound p, rfl, State.polyOk_clearPoly (State.powerOn p)⟩

theorem State.inv_applyReset (s : State) : s.applyReset.Inv :=
  (State.inv_powerOn s.cfg).with_agents _ _ _ _

/-! ## Host writes -/

/-- A host write to a writable place of the block keeps the invariant. -/
theorem State.Inv.writeLoc {s : State} (h : s.Inv) {l : Loc} (hm : l.mapped s.cfg = true)
    (hr : l.readOnly = false) (v : Word) : (writeLoc s l v).Inv := by
  obtain ⟨harr, hst, hp⟩ := State.inv_iff.mp h
  cases l with
  | cmd => exact State.inv_iff.mpr ⟨harr, s.statusOk_accept v, hp⟩
  | elem e => exact State.inv_iff.mpr ⟨harr.store hm hr v, hst, hp⟩
  | _ => exact State.inv_iff.mpr ⟨harr, hst, hp⟩

theorem State.Inv.hostTurn {s t : State} (h : s.Inv) (ht : hostTurn s = .next t) : t.Inv := by
  rcases hostTurn_next ht with ⟨-, rfl⟩ | ⟨v, p, rfl⟩ | ⟨l, v, rest, -, -, hr, hm, rfl⟩
  · exact h
  · exact h.with_agents _ _ _ _
  · have hrest : State.Inv { s with program := rest } := h.with_agents _ _ _ _
    exact (hrest.writeLoc hm hr v).with_agents _ _ _ _

/-! ## Commands -/

/-- What the rule of a command that gets through has done to the state (40_field_arith.md to
44_reconstruct.md of spec/). -/
inductive RuleEffect (s u : State) : Prop where
  /-- One field register was written. -/
  | register (rd : Reg) (v : FieldWord) (does : u = s.writeF rd v)
  /-- A polynomial was generated. -/
  | generate (c : FieldWord) (ds left : List FieldWord) (low : 2 ≤ s.kreg.toNat)
      (high : s.kreg.toNat ≤ s.cfg.sMax) (first : canonical c = true)
      (draws : takeDraws (s.kreg.toNat - 1) s.entropy = some (ds, left))
      (does : u = (s.setEntropy left).setPoly (c :: ds) s.kreg)
  /-- The polynomial was discarded. -/
  | clear (does : u = s.clearPoly)
  /-- Weights were written. -/
  | weigh (xs : List FieldWord) (slots : xs.length ≤ s.cfg.sMax)
      (does : u = s.setMem (writeWeights s.mem (weights xs)))
  /-- Shares were written. -/
  | share (left : List FieldWord) (polys : List (List FieldWord))
      (slots : s.nreg.toNat ≤ s.cfg.sMax) (positions : polys.length ≤ s.cfg.lMax)
      (does : u = ((s.setEntropy left).setMem (writeShares s.mem s.nreg.toNat s.len polys)).clearPoly)
  /-- Weights and a secret were written. -/
  | recover (xs : List FieldWord) (out : List Byte) (l : BitVec 16)
      (slots : xs.length ≤ s.cfg.sMax) (positions : out.length ≤ s.cfg.lMax)
      (does : u = (s.setMem (writeSecret (writeWeights s.mem (weights xs)) out)).setLen l)

theorem binaryFieldRule_effect {op : Nat → Nat → Nat} {rd rs1 rs2 : Reg} {s u : State}
    (h : binaryFieldRule op rd rs1 rs2 s = .ok u) : RuleEffect s u :=
  .register rd _ (binaryFieldRule_eq_ok.mp h).2.2

theorem ruleOf_effect {i : Instr} {s u : State} (h : ruleOf i s = .ok u) : RuleEffect s u := by
  cases i with
  | fadd rd rs1 rs2 => exact binaryFieldRule_effect h
  | fsub rd rs1 rs2 => exact binaryFieldRule_effect h
  | fmul rd rs1 rs2 => exact binaryFieldRule_effect h
  | fpow rd rs1 rs2 => exact binaryFieldRule_effect h
  | finv rd rs1 =>
    obtain ⟨-, -, hu⟩ := finvRule_eq_ok.mp h
    exact .register rd _ hu
  | fldi rd imm => exact .register rd imm (Except.ok.inj h).symm
  | cgen rs1 =>
    obtain ⟨hlow, hhigh, hc, ds, left, hd, hu⟩ := cgenRule_eq_ok.mp h
    exact .generate _ ds left hlow hhigh hc hd hu
  | peval rd rs1 =>
    obtain ⟨-, -, hu⟩ := pevalRule_eq_ok.mp h
    exact .register rd _ hu
  | pclr => exact .clear (Except.ok.inj h).symm
  | lbasis =>
    obtain ⟨⟨-, hm⟩, xs, hx, hu⟩ := lbasisRule_eq_ok.mp h
    exact .weigh xs ((checkX_eq_ok hx).1.trans_le hm) hu
  | split =>
    obtain ⟨⟨-, -, -, -, hn, hl⟩, b, ds, left, hb, -, hu⟩ := splitRule_eq_ok.mp h
    have hlen := (gather_range_eq_ok hb).1
    exact .share left _ hn (by rw [splitPolys_length, hlen]; exact hl) hu
  | recon =>
    obtain ⟨⟨-, hm⟩, l, xs, rows, hl, hx, -, hu⟩ := reconRule_eq_ok.mp h
    have hcap := (checkLen_eq_ok hl).2.2
    exact .recover xs _ l ((checkX_eq_ok hx).1.trans_le hm) (by rw [recovered_length]; exact hcap) hu

/-- A rule that gets through keeps the arrays sound and the hidden store legal. -/
theorem RuleEffect.keeps {s u : State} (h : RuleEffect s u) (harr : s.mem.Sound s.cfg)
    (hp : s.polyOk = true) : u.mem.Sound u.cfg ∧ u.polyOk = true := by
  cases h with
  | register rd v does => subst does; exact ⟨harr, hp⟩
  | generate c ds left low high first draws does =>
    obtain ⟨hlen, hds, -⟩ := takeDraws_some draws
    subst does
    refine ⟨harr, State.polyOk_setPoly ?_ (by simpa [first] using hds) low high⟩
    rw [List.length_cons, hlen]
    omega
  | clear does => subst does; exact ⟨harr, s.polyOk_clearPoly⟩
  | weigh xs slots does => subst does; exact ⟨harr.writeWeights slots, hp⟩
  | share left polys slots positions does =>
    subst does
    exact ⟨harr.writeShares slots positions _, State.polyOk_clearPoly _⟩
  | recover xs out l slots positions does =>
    subst does
    exact ⟨(harr.writeWeights slots).writeSecret positions, hp⟩

theorem State.Inv.unitStep {s t : State} (h : s.Inv) (ht : unitStep s = .next t) : t.Inv := by
  obtain ⟨harr, -, hp⟩ := State.inv_iff.mp h
  rcases unitStep_next ht with ⟨i, u, -, hu, rfl⟩ | ⟨c, info, -, rfl⟩ | ⟨rfl, -⟩
  · obtain ⟨harr', hp'⟩ := (ruleOf_effect hu).keeps harr hp
    exact State.inv_iff.mpr ⟨harr', u.statusOk_complete _ _, hp'⟩
  · exact State.inv_iff.mpr ⟨harr, s.statusOk_complete c info, hp⟩
  · exact h

/-! ## The invariant at reset and along a step -/

/-- Settles O58: the state after power-on, and State.reset as one such state. -/
theorem resetMeetsInvariant : Obligations.ResetMeetsInvariant :=
  ⟨State.inv_powerOn, State.inv_powerOn Config.params⟩

/-- Settles O59, by the agent that moved: the host, the unit, the entropy source or the platform's RST. -/
theorem stepKeepsInvariant : Obligations.StepKeepsInvariant := by
  intro s t h hstep
  have hturns : ∀ rest, State.Inv { s with turns := rest } := fun rest => h.with_agents _ _ _ _
  cases step_next hstep with
  | host rest turns does => exact (hturns rest).hostTurn does
  | unit rest turns busy does => exact (hturns rest).unitStep does
  | idleUnit rest turns busy does => exact does ▸ hturns rest
  | entropy raw rest turns does => exact does ▸ (hturns rest).with_agents _ _ _ _
  | reset rest turns does => exact does ▸ State.inv_applyReset _

end Sys2Proof.Machine
end

/-! # Proofs: the life of a command and the host bus (spec/10_state.md R24 to R43, spec/20_memory.md) -/

section
namespace Sys2Proof.Machine

open Sys2Proof.Claims

/-! ## Accesses that are bus errors -/

/-- A host write that is not answered is a bus error: a write reads no element (spec/60_exceptions.md R228). -/
theorem hostWrite_busError {s : State} {addr v : Word} {width : AccessWidth} {enables : BitVec 4}
    (h : ∀ t, hostWrite s addr width enables v ≠ .next t) :
    busError (hostWrite s addr width enables v) := by
  obtain ⟨r, hr⟩ := hostWrite_fault_of_not_next h
  exact ⟨r, hr, hostWrite_fault_is_bus_error hr⟩

/-- While BUSY = 1 every host write is a bus error (spec/20_memory.md R71). -/
theorem hostWrite_busError_of_busy {s : State} (hb : s.status.busy = true) (addr v : Word)
    (width : AccessWidth) (enables : BitVec 4) : busError (hostWrite s addr width enables v) := by
  refine hostWrite_busError fun t ht => ?_
  obtain ⟨l, -, -, -, -, hidle, -⟩ := hostWrite_next ht
  exact absurd (hb.symm.trans hidle) (by decide)

/-- A host write to a read-only place of the block is a bus error (spec/20_memory.md R68). -/
theorem hostWrite_busError_of_readOnly {s : State} {l : Loc} (hm : l.mapped s.cfg = true)
    (hr : l.readOnly = true) (v : Word) (width : AccessWidth) (enables : BitVec 4) :
    busError (hostWrite s (l.address s.cfg) width enables v) := by
  refine hostWrite_busError fun t ht => ?_
  obtain ⟨l', -, -, hm', ha, -, hr', -⟩ := hostWrite_next ht
  rw [Loc.address_inj hm hm' ha, hr'] at hr
  cases hr

/-! ## What a host write leaves unchanged -/

theorem writeLoc_cfg (s : State) (l : Loc) (v : Word) : (writeLoc s l v).cfg = s.cfg := by
  cases l <;> rfl

/-- Only a write to CMD touches STATUS (spec/10_state.md R27). -/
theorem writeLoc_status {s : State} {l : Loc} (h : l ≠ .cmd) (v : Word) :
    (writeLoc s l v).status = s.status := by
  cases l with
  | cmd => exact absurd rfl h
  | _ => rfl

/-! ## The constants -/

theorem hostTurn_cfg {s t : State} (h : hostTurn s = .next t) : t.cfg = s.cfg := by
  rcases hostTurn_next h with ⟨-, rfl⟩ | ⟨v, p, rfl⟩ | ⟨l, v, rest, -, -, -, -, rfl⟩
  · rfl
  · rfl
  · exact writeLoc_cfg _ l v

theorem unitStep_cfg {s t : State} (h : unitStep s = .next t) : t.cfg = s.cfg := by
  rcases unitStep_next h with ⟨i, u, -, hu, rfl⟩ | ⟨c, info, -, rfl⟩ | ⟨rfl, -⟩
  · obtain ⟨-, -, -, -, -, -, hcfg, -⟩ := ruleOf_ok_surround hu
    exact hcfg
  · rfl
  · rfl

/-- No step changes the parameters of the block (spec/10_state.md R31). -/
theorem step_cfg {s t : State} (h : step s = .next t) : t.cfg = s.cfg := by
  cases step_next h with
  | host rest turns does => exact (hostTurn_cfg does :)
  | unit rest turns busy does => exact (unitStep_cfg does :)
  | idleUnit rest turns busy does => exact does ▸ rfl
  | entropy raw rest turns does => exact does ▸ rfl
  | reset rest turns does => exact does ▸ rfl

/-- Settles O22: the three are readable while BUSY = 1 and read-only, and no agent's move changes the
parameters. -/
theorem constantRegisters : Obligations.ConstantRegisters := by
  refine ⟨fun s => ⟨?_, ?_, ?_⟩, fun s l v hl => ?_, fun s t => step_cfg⟩
  · exact hostRead_of_mapped (l := .modulus) rfl (fun _ => rfl) rfl
  · exact hostRead_of_mapped (l := .smax) rfl (fun _ => rfl) rfl
  · exact hostRead_of_mapped (l := .lmax) rfl (fun _ => rfl) rfl
  · simp only [List.mem_cons, List.not_mem_nil, or_false] at hl
    rcases hl with rfl | rfl | rfl <;> exact hostWrite_busError_of_readOnly rfl rfl v _ _

/-! ## CMD -/

/-- Settles O11: the write and the read of CMD at its address, which is BLOCK_BASE + 0x10. -/
theorem cmdWriteAccepts : Obligations.CmdWriteAccepts := by
  refine ⟨fun s v hb => ?_, fun s v hb => ?_, fun s hb => ?_, fun p => rfl⟩
  · exact ⟨_, hostWrite_of_mapped (l := .cmd) rfl hb rfl v, rfl, rfl, rfl, rfl⟩
  · exact hostWrite_busError_of_busy hb _ v _ _
  · exact hostRead_of_mapped (l := .cmd) rfl (fun h => absurd (hb.symm.trans h) (by decide)) rfl

/-! ## STATUS -/

/-- STATUS at completion, with the code's number as the statements write it (spec/60_exceptions.md R220). -/
theorem Status.completed_eq (c : Code) : Status.completed c =
    { busy := false, done := true, err := decide (codeNumber c ≠ 0), code := codeNumber c } := by
  cases c <;> rfl

/-- A host turn that changes STATUS is a write to CMD while BUSY = 0 (spec/10_state.md R27, R28). -/
theorem hostTurn_status {s t : State} (h : hostTurn s = .next t) (hne : t.status ≠ s.status) :
    s.status.busy = false ∧ t.status = Status.accepted
      ∧ ∃ v rest, s.program = .write (Loc.cmd.address s.cfg) .word 0xF v :: rest ∧ t.cmdreg = v := by
  rcases hostTurn_next h with ⟨-, rfl⟩ | ⟨v, p, rfl⟩ | ⟨l, v, rest, hp, hb, -, -, rfl⟩
  · exact absurd rfl hne
  · exact absurd rfl hne
  · by_cases hl : l = .cmd
    · subst hl
      exact ⟨hb, rfl, v, rest, hp, rfl⟩
    · exact absurd (writeLoc_status hl v) hne

/-- A unit step that changes STATUS is a completion (spec/10_state.md R27). -/
theorem unitStep_status {s t : State} (h : unitStep s = .next t) (hne : t.status ≠ s.status) :
    ∃ c, t.status = Status.completed c := by
  rcases unitStep_next h with ⟨i, u, -, -, rfl⟩ | ⟨c, info, -, rfl⟩ | ⟨rfl, -⟩
  · exact ⟨.ok, rfl⟩
  · exact ⟨c, rfl⟩
  · exact absurd rfl hne

/-- Settles O12, by the agent that moved: only the host, the unit while BUSY = 1 and RST touch STATUS. -/
theorem statusTransitions : Obligations.StatusTransitions := by
  refine ⟨fun s t hstep hne => ?_, fun s en w v => hostWrite_busError_of_readOnly rfl rfl v w en⟩
  cases step_next hstep with
  | host rest turns does =>
    obtain ⟨hb, hst, hcmd⟩ := hostTurn_status does hne
    exact .inr (.inl ⟨hb, hcmd, hst⟩)
  | unit rest turns busy does =>
    obtain ⟨c, hc⟩ := unitStep_status does hne
    exact .inr (.inr ⟨busy, c, hc.trans (Status.completed_eq c)⟩)
  | idleUnit rest turns busy does => exact absurd (does ▸ rfl) hne
  | entropy raw rest turns does => exact absurd (does ▸ rfl) hne
  | reset rest turns does => exact .inl ⟨⟨rest, turns⟩, does ▸ rfl⟩

/-- What a read of STATUS answers, bit by bit (spec/10_state.md R26). -/
theorem Status.getLsbD_toWord (st : Status) (i : Nat) : st.toWord.getLsbD i =
    if i = 0 then st.busy else if i = 1 then st.done else if i = 2 then st.err
    else decide (8 ≤ i) && st.code.getLsbD (i - 8) := by
  simp only [Status.toWord, BitVec.getLsbD_append, BitVec.getLsbD_ofBool]
  rcases Nat.lt_or_ge i 12 with h | h
  · interval_cases i <;> simp
  · simp (disch := omega) [if_neg]

/-- Settles O13: each claim is the word's bits read off one by one. -/
theorem statusWordLayout : Obligations.StatusWordLayout := by
  intro st
  refine ⟨st.getLsbD_toWord 0, st.getLsbD_toWord 1, st.getLsbD_toWord 2, ?_, fun i hi => ?_⟩
  · apply BitVec.eq_of_getLsbD_eq
    intro i hi
    rw [BitVec.getLsbD_extractLsb', Status.getLsbD_toWord, if_neg (by omega), if_neg (by omega),
      if_neg (by omega)]
    simp [hi]
  · rw [Status.getLsbD_toWord, if_neg (by omega), if_neg (by omega), if_neg (by omega)]
    rcases hi with ⟨-, hi⟩ | hi
    · simp [Nat.not_le.mpr hi]
    · simp [BitVec.getLsbD_of_ge st.code (i - 8) (by omega)]

/-! ## Elements on the bus -/

theorem readLoc_elem {s : State} {e : Elem} {v : Word} (h : s.mem.read e = some v) :
    readLoc s (.elem e) = .ok v := by
  simp only [readLoc, h]

theorem readLoc_elem_unwritten {s : State} {e : Elem} (h : s.mem.read e = none) :
    readLoc s (.elem e) = .error (.unwritten e) := by
  simp only [readLoc, h]

/-- W is the only array the host may not write (spec/20_memory.md R68). -/
theorem Loc.readOnly_elem {e : Elem} (hw : ∀ i, e ≠ .w i) : (Loc.elem e).readOnly = false := by
  cases e with
  | w i => exact absurd rfl (hw i)
  | _ => rfl

/-- The low n bits of a word, as a write stores them and as the statements write them. -/
theorem extractLsb'_zero_eq_setWidth {n : Nat} (hn : n ≤ 32) (v : Word) :
    v.extractLsb' 0 n = v.setWidth n :=
  (BitVec.setWidth_eq_extractLsb' hn).symm

/-! ## Unwritten elements -/

theorem hostRead_unwritten {s : State} {e : Elem} (hb : s.status.busy = false)
    (hm : e.mapped s.cfg = true) (hn : s.mem.read e = none) :
    hostRead s ((Loc.elem e).address s.cfg) .word = .fault (.unwritten e) := by
  unfold hostRead
  rw [reach_address (l := .elem e) hm]
  simp only [bind, Except.bind]
  rw [if_neg (by simp [hb]), readLoc_elem_unwritten hn]
  rfl

/-- Settles O23: the host's read by the access it makes, a command's fault by the rule that met it. -/
theorem unwrittenReadFaults : Obligations.UnwrittenReadFaults := by
  refine ⟨fun s e => hostRead_unwritten, fun i s r h => ?_⟩
  rw [exec_eq_finish, finish_eq_fault] at h
  exact ⟨by simpa using ruleOf_fault_reads_arrays h, ruleOf_fault h⟩

/-! ## Writing a place and reading it back -/

/-- The element written reads back its low bits, zero-extended (spec/10_state.md R34). W is read-only. -/
theorem Memory.read_store_same (m : Memory) {e : Elem} (hw : ∀ i, e ≠ .w i) (v : Word) :
    (m.store e v).read e = some (keptBits e v) := by
  cases e with
  | w i => exact absurd rfl (hw i)
  | _ => simp [Memory.store, Memory.read, keptBits, extractLsb'_zero_eq_setWidth]

/-- A write to a writable place other than CMD is answered, and what it stored is read back. -/
theorem storesAt_of_writable {s : State} {l : Loc} {v kept : Word} (hm : l.mapped s.cfg = true)
    (hb : s.status.busy = false) (hr : l.readOnly = false) (hcmd : l ≠ .cmd)
    (hk : readLoc (writeLoc s l v) l = .ok kept) : storesAt s l.offset v (writeLoc s l v) kept := by
  refine ⟨hostWrite_of_mapped hm hb hr v, ?_⟩
  have hm' : l.mapped (writeLoc s l v).cfg = true := by rwa [writeLoc_cfg]
  have hb' : (writeLoc s l v).status.busy = false := by rwa [writeLoc_status hcmd]
  exact hostRead_of_mapped (s := { writeLoc s l v with response := .writeDone }) hm'
    (fun h => absurd (hb'.symm.trans h) (by decide)) hk

/-- Settles O20: each writable place by itself, an element with the other elements' frame. -/
theorem hostWriteKeepsLowBits : Obligations.HostWriteKeepsLowBits := by
  refine ⟨fun s hb v => ?_, rfl, rfl⟩
  rw [extractLsb'_zero_eq_setWidth (n := 9) (by decide), extractLsb'_zero_eq_setWidth (n := 16) (by decide)]
  refine ⟨?_, ?_, ?_, ?_, fun r => ?_, fun e hm hw => ⟨s.mem.store e v, ?_, fun e' hm' hne => ?_, ?_⟩⟩
  · exact storesAt_of_writable (l := .nreg) rfl hb rfl (by decide) rfl
  · exact storesAt_of_writable (l := .kreg) rfl hb rfl (by decide) rfl
  · exact storesAt_of_writable (l := .len) rfl hb rfl (by decide) rfl
  · exact storesAt_of_writable (l := .scnt) rfl hb rfl (by decide) rfl
  · exact storesAt_of_writable (l := .f r) rfl hb rfl nofun (by simp [readLoc, writeLoc])
  · exact storesAt_of_writable (l := .elem e) hm hb (Loc.readOnly_elem hw) nofun
      (readLoc_elem (s.mem.read_store_same hw v))
  · exact s.mem.read_store_other s.cfg v hm hm' hne
  · exact s.mem.read_store_same hw v

/-! ## The hidden store -/

/-- An outcome with another hidden store in the next state, if there is one. -/
def outcomeWithHidden (o : Host.Outcome State Fault Refusal) (c : List FieldWord) (k : FieldWord) :
    Host.Outcome State Fault Refusal :=
  match o with
  | .next t => .next (withHidden t c k)
  | .fault r => .fault r
  | .refused r => .refused r

section
variable (s : State) (c : List FieldWord) (k : FieldWord)

theorem withHidden_status : (withHidden s c k).status = s.status := rfl

theorem readLoc_withHidden (l : Loc) : readLoc (withHidden s c k) l = readLoc s l := by
  cases l <;> rfl

theorem writeLoc_withHidden (l : Loc) (v : Word) :
    writeLoc (withHidden s c k) l v = withHidden (writeLoc s l v) c k := by
  cases l <;> rfl

theorem reach_withHidden (addr : Word) (width : AccessWidth) (enables : BitVec 4) :
    reach (withHidden s c k) addr width enables = reach s addr width enables := rfl

theorem hostRead_withHidden (addr : Word) (width : AccessWidth) :
    hostRead (withHidden s c k) addr width = outcomeWithHidden (hostRead s addr width) c k := by
  unfold hostRead
  rw [reach_withHidden]
  cases reach s addr width 0xF with
  | error r => rfl
  | ok l =>
    simp only [bind, Except.bind, readLoc_withHidden, withHidden_status]
    split
    · rfl
    · cases readLoc s l <;> rfl

theorem hostWrite_withHidden (addr : Word) (width : AccessWidth) (enables : BitVec 4) (v : Word) :
    hostWrite (withHidden s c k) addr width enables v
      = outcomeWithHidden (hostWrite s addr width enables v) c k := by
  unfold hostWrite
  rw [reach_withHidden]
  cases reach s addr width enables with
  | error r => rfl
  | ok l =>
    simp only [bind, Except.bind, writeLoc_withHidden, withHidden_status]
    split
    · rfl
    · cases l.readOnly <;> rfl

theorem hostTurn_withHidden :
    hostTurn (withHidden s c k) = outcomeWithHidden (hostTurn s) c k := by
  cases hp : s.program with
  | nil => rw [hostTurn_of_program_nil hp, hostTurn_of_program_nil (s := withHidden s c k) hp]; rfl
  | cons op rest =>
    cases op with
    | read addr width =>
      rw [hostTurn_of_read hp, hostTurn_of_read (s := withHidden s c k) hp]
      exact hostRead_withHidden { s with program := rest } c k addr width
    | write addr width enables v =>
      rw [hostTurn_of_write hp, hostTurn_of_write (s := withHidden s c k) hp]
      exact hostWrite_withHidden { s with program := rest } c k addr width enables v
    | poll =>
      rw [hostTurn_of_poll hp, hostTurn_of_poll (s := withHidden s c k) hp]
      rfl

end

/-- Settles O24, by the operation in front of the host's program. -/
theorem hiddenStoreStaysHidden : Obligations.HiddenStoreStaysHidden := by
  intro s c k
  rw [hostTurn_withHidden]
  cases hostTurn s <;> rfl

/-! ## The unit's step -/

theorem unitStep_of_decode {s : State} {i : Instr} (h : decode s.cmdreg = .ok i) :
    unitStep s = exec i s := by
  simp only [unitStep, h]

/-- Settles O8: with BUSY = 1 the listed unit turn and the default turn are both the unit's step. -/
theorem stepRunsDecodedCommand : Obligations.StepRunsDecodedCommand := by
  rintro s i hb hd (ht | ⟨rest, ht⟩)
  · have hs : { s with turns := s.turns.tail } = s := by rw [ht, List.tail_nil, ← ht]
    rw [step_of_turns_nil ht, hs, defaultTurn, if_pos hb]
    exact unitStep_of_decode hd
  · rw [step_of_turns_cons ht, runTurn, unitTurn, if_pos hb, ht]
    exact unitStep_of_decode hd

/-! ## Reset -/

theorem State.readF_powerOn (p : Params) (r : Reg) : (State.powerOn p).readF r = 0 := by
  simp [State.readF, State.powerOn]

theorem Memory.read_unwritten (e : Elem) : Memory.unwritten.read e = none := by
  cases e <;> rfl

/-- Settles O9, row by row. -/
theorem resetTable : Obligations.ResetTable :=
  ⟨fun p => ⟨State.readF_powerOn p, rfl, rfl, rfl, rfl, rfl, rfl, rfl, rfl, rfl, rfl, rfl, rfl, rfl, rfl,
    rfl, Memory.read_unwritten⟩, rfl⟩

end Sys2Proof.Machine
end

/-! # Proofs: the address map and host reads (spec/20_memory.md R60 to R78) -/

section
namespace Sys2Proof.Machine

open Sys2Proof.Claims

/-! ## The address map -/

/-- Settles O16: the map and its inverse on every place of the block, and the numbers of R66 place by place. -/
theorem addressMapRoundTrip : Obligations.AddressMapRoundTrip := by
  refine ⟨fun cfg l => locate_offset, fun cfg off l => locate_eq_some, fun cfg l hm => ?_, fun cfg l => ?_⟩
  · obtain ⟨h4, hlt⟩ := Loc.offset_bounds hm
    exact ⟨h4, hlt, offsetOf_address hm⟩
  · cases l with
    | elem e => cases e <;> rfl
    | _ => rfl

/-! ## Accesses that are bus errors -/

/-- A host read that reaches no place it may read is a bus error: only a read that is allowed meets an element,
written or not (spec/20_memory.md R62 to R71, spec/60_exceptions.md R228). -/
theorem hostRead_busError {s : State} {addr : Word} {width : AccessWidth}
    (h : ∀ l : Loc, width = .word → l.mapped s.cfg = true → addr = l.address s.cfg →
      s.status.busy = true ∧ l.readableWhileBusy = false) : busError (hostRead s addr width) := by
  have notNext : ∀ t, hostRead s addr width ≠ .next t := by
    intro t ht
    obtain ⟨l, v, hw, hm, ha, hallowed, -⟩ := hostRead_next ht
    obtain ⟨hb, hr⟩ := h l hw hm ha
    exact absurd ((hallowed hb).symm.trans hr) (by decide)
  obtain ⟨r, hr⟩ := hostRead_fault_of_not_next notNext
  refine ⟨r, hr, ?_⟩
  rintro e rfl
  obtain ⟨hw, ha, hm, hidle, -⟩ := hostRead_fault_unwritten hr
  obtain ⟨hb, -⟩ := h (.elem e) hw hm ha
  exact absurd (hb.symm.trans hidle) (by decide)

/-- An access at an address where no place of the block stands is a bus error (spec/20_memory.md R67). -/
theorem access_busError_of_unmapped {s : State} {addr : Word}
    (h : ∀ l : Loc, l.mapped s.cfg = true → addr ≠ l.address s.cfg) (v : Word) (width : AccessWidth)
    (enables : BitVec 4) :
    busError (hostRead s addr width) ∧ busError (hostWrite s addr width enables v) := by
  refine ⟨hostRead_busError fun l _ hm ha => absurd ha (h l hm), hostWrite_busError fun t ht => ?_⟩
  obtain ⟨l, -, -, hm, ha, -⟩ := hostWrite_next ht
  exact h l hm ha

/-- No place of the block stands at an address whose low two bits are not 00 (spec/20_memory.md R64). -/
theorem ne_address_of_misaligned {cfg : Params} {addr : Word} (h : addr.extractLsb' 0 2 ≠ 0) (l : Loc)
    (hm : l.mapped cfg = true) : addr ≠ l.address cfg := by
  rintro rfl
  apply h
  apply BitVec.eq_of_toNat_eq
  simpa using Loc.address_aligned hm

/-- The places that the statement lists are on the block and read-only (spec/20_memory.md R66, R68). -/
theorem Loc.mapped_and_readOnly {cfg : Params} {l : Loc}
    (h : l ∈ [.modulus, .smax, .lmax, .status, .errinfo] ∨ ∃ i < cfg.sMax, l = .elem (.w i)) :
    l.mapped cfg = true ∧ l.readOnly = true := by
  rcases h with h | ⟨i, hi, rfl⟩
  · simp only [List.mem_cons, List.not_mem_nil, or_false] at h
    rcases h with rfl | rfl | rfl | rfl | rfl <;> exact ⟨rfl, rfl⟩
  · exact ⟨decide_eq_true hi, rfl⟩

/-- Settles O17, one kind of bus error after the other. -/
theorem busErrors : Obligations.BusErrors := by
  refine ⟨fun s a w hw => ?_, fun s a v w en hw => ?_, fun s a v w en h => ?_, fun s a v w en h => ?_,
    fun s l v w en h => ?_⟩
  · exact hostRead_busError fun l hword _ _ => absurd hword hw
  · refine hostWrite_busError fun t ht => ?_
    obtain ⟨l, hword, hen, -⟩ := hostWrite_next ht
    exact hw.elim (absurd hword) (absurd hen)
  · exact access_busError_of_unmapped (ne_address_of_misaligned h) v w en
  · exact access_busError_of_unmapped h v w en
  · obtain ⟨hm, hr⟩ := Loc.mapped_and_readOnly h
    exact hostWrite_busError_of_readOnly hm hr v w en

/-! ## While BUSY = 1 -/

/-- While BUSY = 1 a read anywhere but at the first four words of the block is a bus error
(spec/20_memory.md R71). -/
theorem hostRead_busError_of_busy {s : State} (hb : s.status.busy = true) {addr : Word}
    (h : ∀ d ∈ [0x0, 0x4, 0x8, 0xC], addr ≠ s.cfg.base + d) (width : AccessWidth) :
    busError (hostRead s addr width) := by
  refine hostRead_busError fun l _ _ ha => ⟨hb, ?_⟩
  cases l with
  | modulus => exact absurd ha (h 0x0 (by decide))
  | smax => exact absurd ha (h 0x4 (by decide))
  | lmax => exact absurd ha (h 0x8 (by decide))
  | status => exact absurd ha (h 0xC (by decide))
  | _ => rfl

/-- Settles O18: the constants read as in any state, STATUS does too, and every other access is a bus error. -/
theorem busyAccesses : Obligations.BusyAccesses := by
  intro s hb
  obtain ⟨hmodulus, hsmax, hlmax⟩ := constantRegisters.1 s
  refine ⟨hmodulus, hsmax, hlmax, ?_, fun a w h => hostRead_busError_of_busy hb h w,
    hostWrite_busError_of_busy hb⟩
  exact hostRead_of_mapped (l := .status) rfl (fun _ => rfl) rfl

/-! ## What a read answers -/

/-- While BUSY = 0 a read at the offset of a place of the block answers what the place holds
(spec/20_memory.md R78). -/
theorem answersAt_offset {s : State} {l : Loc} {v : Word} (hb : s.status.busy = false)
    (hm : l.mapped s.cfg = true) (hv : readLoc s l = .ok v) : answersAt s l.offset v :=
  hostRead_of_mapped hm (fun h => absurd (hb.symm.trans h) (by decide)) hv

/-- While BUSY = 0 a read at the offset of a written element answers its n bits zero-extended
(spec/10_state.md R34). -/
theorem answersAt_elem {s : State} (e : Elem) {n : Nat} {c : Option (BitVec n)} {v : BitVec n}
    (hb : s.status.busy = false) (hm : e.mapped s.cfg = true)
    (he : s.mem.read e = c.map (BitVec.setWidth 32)) (hc : c = some v) :
    answersAt s (Loc.elem e).offset (v.setWidth 32) :=
  answersAt_offset hb hm (readLoc_elem (by rw [he, hc, Option.map_some]))

/-- Settles O19, array by array and register by register. -/
theorem hostReadValues : Obligations.HostReadValues := by
  intro s hb
  refine ⟨fun i hi v => ?_, fun i hi v => ?_, fun i hi v => ?_, fun p hp v => ?_, fun i hi p hp v => ?_,
    fun r => ?_, ?_, ?_, ?_, ?_, ?_, ?_, ?_⟩
  · exact answersAt_elem (.x i) hb (decide_eq_true hi) rfl
  · exact answersAt_elem (.slen i) hb (decide_eq_true hi) rfl
  · exact answersAt_elem (.w i) hb (decide_eq_true hi) rfl
  · exact answersAt_elem (.secret p) hb (decide_eq_true hp) rfl
  · exact answersAt_elem (.y i p) hb (by simp [Elem.mapped, hi, hp]) rfl
  · exact answersAt_offset (l := .f r) hb rfl rfl
  · exact answersAt_offset (l := .status) hb rfl rfl
  · exact answersAt_offset (l := .cmd) hb rfl rfl
  · exact answersAt_offset (l := .errinfo) hb rfl rfl
  · exact answersAt_offset (l := .nreg) hb rfl rfl
  · exact answersAt_offset (l := .kreg) hb rfl rfl
  · exact answersAt_offset (l := .len) hb rfl rfl
  · exact answersAt_offset (l := .scnt) hb rfl rfl

/-! ## Reading again -/

/-- No place holds the response to the host's last access (log 4). -/
theorem readLoc_of_response (s : State) (r : Response) (l : Loc) :
    readLoc { s with response := r } l = readLoc s l := by
  cases l <;> rfl

/-- Settles O21: the second read reaches the same place, and what it holds does not depend on the response. -/
theorem hostReadHasNoSideEffect : Obligations.HostReadHasNoSideEffect := by
  intro s t a w h
  obtain ⟨l, v, rfl, hm, rfl, hb, hv, rfl⟩ := hostRead_next h
  refine ⟨rfl, ?_⟩
  exact hostRead_of_mapped (s := { s with response := .readData v }) hm hb
    ((readLoc_of_response s _ l).trans hv)

end Sys2Proof.Machine
end

/-! # Proofs: the command word (spec/30_encoding.md R90 to R98) -/

section
namespace Sys2Proof.Machine

open Sys2Proof.Claims

/-! ## The fields of an assembled word -/

section
variable (imm : FieldWord) (rs2 rs1 rd : Reg) (op : BitVec 6)

@[simp] theorem opField_assembleWord : opField (assembleWord imm rs2 rs1 rd op) = op := by
  obtain ⟨h, -⟩ := fields_assembleWord imm rs2 rs1 rd op
  exact h

@[simp] theorem rdField_assembleWord : rdField (assembleWord imm rs2 rs1 rd op) = rd := by
  obtain ⟨-, h, -⟩ := fields_assembleWord imm rs2 rs1 rd op
  exact h

@[simp] theorem rs1Field_assembleWord : rs1Field (assembleWord imm rs2 rs1 rd op) = rs1 := by
  obtain ⟨-, -, h, -⟩ := fields_assembleWord imm rs2 rs1 rd op
  exact h

@[simp] theorem rs2Field_assembleWord : rs2Field (assembleWord imm rs2 rs1 rd op) = rs2 := by
  obtain ⟨-, -, -, h, -⟩ := fields_assembleWord imm rs2 rs1 rd op
  exact h

@[simp] theorem immField_assembleWord : immField (assembleWord imm rs2 rs1 rd op) = imm := by
  obtain ⟨-, -, -, -, h, -⟩ := fields_assembleWord imm rs2 rs1 rd op
  exact h

@[simp] theorem resField_assembleWord : resField (assembleWord imm rs2 rs1 rd op) = 0 := by
  obtain ⟨-, -, -, -, -, h⟩ := fields_assembleWord imm rs2 rs1 rd op
  exact h

end

/-! ## What each format accepts -/

section
variable {w : Word} {i : Instr}

/-- A check in front of a decoder lets through exactly the words that pass it. -/
theorem rejectIf_eq_ok {p : Prop} [Decidable p] {e : DecodeError} {x : Except DecodeError Instr} :
    (if p then .error e else x) = .ok i ↔ ¬p ∧ x = .ok i := by
  split <;> simp [*]

theorem decodeFR_eq_ok {mk : Reg → Reg → Reg → Instr} : decodeFR mk w = .ok i ↔
    immField w = 0 ∧ mk (rdField w) (rs1Field w) (rs2Field w) = i := by
  rw [decodeFR, rejectIf_eq_ok, Except.ok.injEq, not_not]

theorem decodeFU_eq_ok {mk : Reg → Reg → Instr} : decodeFU mk w = .ok i ↔
    (rs2Field w = 0 ∧ immField w = 0) ∧ mk (rdField w) (rs1Field w) = i := by
  rw [decodeFU, rejectIf_eq_ok, Except.ok.injEq, not_or, not_not, not_not]

theorem decodeFI_eq_ok {mk : Reg → FieldWord → Instr} : decodeFI mk w = .ok i ↔
    (rs1Field w = 0 ∧ rs2Field w = 0) ∧ canonical (immField w) = true
      ∧ mk (rdField w) (immField w) = i := by
  rw [decodeFI, rejectIf_eq_ok, rejectIf_eq_ok, Except.ok.injEq, not_or, not_not, not_not,
    Bool.not_eq_false]

theorem decodeFS_eq_ok {mk : Reg → Instr} : decodeFS mk w = .ok i ↔
    (rdField w = 0 ∧ rs2Field w = 0 ∧ immField w = 0) ∧ mk (rs1Field w) = i := by
  rw [decodeFS, rejectIf_eq_ok, Except.ok.injEq, not_or, not_or, not_not, not_not, not_not]

theorem decodeFZ_eq_ok {j : Instr} : decodeFZ j w = .ok i ↔
    (rdField w = 0 ∧ rs1Field w = 0 ∧ rs2Field w = 0 ∧ immField w = 0 ∧ resField w = 0) ∧ j = i := by
  rw [decodeFZ, rejectIf_eq_ok, Except.ok.injEq, not_not, upper_eq_zero]

end

/-! ## The opcode chooses the format -/

/-- The opcodes of R96, each with the decoder of its command's format. -/
inductive DecodedBy : BitVec 6 → (Word → Except DecodeError Instr) → Prop
  | fadd : DecodedBy 0x01 (decodeFR .fadd)
  | fsub : DecodedBy 0x02 (decodeFR .fsub)
  | fmul : DecodedBy 0x03 (decodeFR .fmul)
  | fpow : DecodedBy 0x04 (decodeFR .fpow)
  | finv : DecodedBy 0x05 (decodeFU .finv)
  | fldi : DecodedBy 0x06 (decodeFI .fldi)
  | cgen : DecodedBy 0x10 (decodeFS .cgen)
  | peval : DecodedBy 0x11 (decodeFU .peval)
  | pclr : DecodedBy 0x12 (decodeFZ .pclr)
  | lbasis : DecodedBy 0x18 (decodeFZ .lbasis)
  | split : DecodedBy 0x20 (decodeFZ .split)
  | recon : DecodedBy 0x21 (decodeFZ .recon)

/-- A word with res = 0 and an opcode of the table is decoded by the opcode's format
(spec/30_encoding.md R97). -/
theorem decode_of_decodedBy {w : Word} {op : BitVec 6} {d : Word → Except DecodeError Instr}
    (hd : DecodedBy op d) (hop : opField w = op) (hres : resField w = 0) : decode w = d w := by
  cases hd <;> simp [decode, hop, hres]

/-- A word that decodes has res = 0 and an opcode of the table, whose format accepts it
(spec/30_encoding.md R98). -/
theorem decodedBy_of_decode {w : Word} {i : Instr} (h : decode w = .ok i) :
    resField w = 0 ∧ ∃ d, DecodedBy (opField w) d ∧ d w = .ok i := by
  unfold decode at h
  split at h
  · cases h
  next hres =>
  refine ⟨not_not.mp hres, ?_⟩
  split at h
  case h_13 => cases h
  all_goals
    next hop =>
    rw [opField_eq_of_toNat hop]
    exact ⟨_, by constructor, h⟩

/-! ## Decoding and encoding -/

/-- An assembled word is decoded by its opcode's format. -/
theorem decode_assembleWord {imm : FieldWord} {rs2 rs1 rd : Reg} {op : BitVec 6}
    {d : Word → Except DecodeError Instr} (hd : DecodedBy op d) :
    decode (assembleWord imm rs2 rs1 rd op) = d (assembleWord imm rs2 rs1 rd op) :=
  decode_of_decodedBy hd (opField_assembleWord ..) (resField_assembleWord ..)

/-- Settles O1, command by command: the format finds the operands in their fields and 0 in the others. -/
theorem decodeOfEncode : Obligations.DecodeOfEncode := by
  intro i hwf
  cases i with
  | fadd => exact (decode_assembleWord .fadd).trans (decodeFR_eq_ok.mpr (by simp))
  | fsub => exact (decode_assembleWord .fsub).trans (decodeFR_eq_ok.mpr (by simp))
  | fmul => exact (decode_assembleWord .fmul).trans (decodeFR_eq_ok.mpr (by simp))
  | fpow => exact (decode_assembleWord .fpow).trans (decodeFR_eq_ok.mpr (by simp))
  | finv => exact (decode_assembleWord .finv).trans (decodeFU_eq_ok.mpr (by simp))
  | fldi rd imm =>
    have hrange : canonical imm = true := hwf
    exact (decode_assembleWord .fldi).trans (decodeFI_eq_ok.mpr (by simp [hrange]))
  | cgen => exact (decode_assembleWord .cgen).trans (decodeFS_eq_ok.mpr (by simp))
  | peval => exact (decode_assembleWord .peval).trans (decodeFU_eq_ok.mpr (by simp))
  | pclr => exact (decode_assembleWord .pclr).trans (decodeFZ_eq_ok.mpr (by simp))
  | lbasis => exact (decode_assembleWord .lbasis).trans (decodeFZ_eq_ok.mpr (by simp))
  | split => exact (decode_assembleWord .split).trans (decodeFZ_eq_ok.mpr (by simp))
  | recon => exact (decode_assembleWord .recon).trans (decodeFZ_eq_ok.mpr (by simp))

/-- The encoding of what a format accepts is the word itself: the fields that the encoder sets to 0 are 0 in it. -/
theorem eq_of_fields {w : Word} {imm : FieldWord} {rs2 rs1 rd : Reg} {op : BitVec 6}
    (hres : resField w = 0) (himm : immField w = imm) (hrs2 : rs2Field w = rs2) (hrs1 : rs1Field w = rs1)
    (hrd : rdField w = rd) (hop : opField w = op) : assembleWord imm rs2 rs1 rd op = w := by
  rw [← himm, ← hrs2, ← hrs1, ← hrd, ← hop, assembleWord_fields w hres]

/-- Settles O2, format by format. -/
theorem encodeOfDecode : Obligations.EncodeOfDecode := by
  intro w i h
  obtain ⟨hres, d, hd, hi⟩ := decodedBy_of_decode h
  generalize hop : opField w = op at hd
  cases hd with
  | fadd | fsub | fmul | fpow =>
    obtain ⟨himm, rfl⟩ := decodeFR_eq_ok.mp hi
    exact ⟨rfl, eq_of_fields hres himm rfl rfl rfl hop⟩
  | finv | peval =>
    obtain ⟨⟨hrs2, himm⟩, rfl⟩ := decodeFU_eq_ok.mp hi
    exact ⟨rfl, eq_of_fields hres himm hrs2 rfl rfl hop⟩
  | fldi =>
    obtain ⟨⟨hrs1, hrs2⟩, hrange, rfl⟩ := decodeFI_eq_ok.mp hi
    exact ⟨hrange, eq_of_fields hres rfl hrs2 hrs1 rfl hop⟩
  | cgen =>
    obtain ⟨⟨hrd, hrs2, himm⟩, rfl⟩ := decodeFS_eq_ok.mp hi
    exact ⟨rfl, eq_of_fields hres himm hrs2 rfl hrd hop⟩
  | pclr | lbasis | split | recon =>
    obtain ⟨⟨hrd, hrs1, hrs2, himm, -⟩, rfl⟩ := decodeFZ_eq_ok.mp hi
    exact ⟨rfl, eq_of_fields hres himm hrs2 hrs1 hrd hop⟩

/-! ## The word as the spec writes it -/

/-- The concatenation of the fields is their shifted sum (spec/30_encoding.md R93). -/
theorem assembleWord_eq_wordOf (imm : FieldWord) (rs2 rs1 rd : Reg) (op : BitVec 6) :
    assembleWord imm rs2 rs1 rd op = wordOf imm rs2 rs1 rd op := by
  apply BitVec.eq_of_getLsbD_eq
  intro i hi
  simp only [assembleWord, wordOf, BitVec.getLsbD_append, BitVec.getLsbD_or, BitVec.getLsbD_shiftLeft,
    BitVec.getLsbD_setWidth]
  interval_cases i <;> simp

/-- Settles O3, the encoder being the concatenation with 0 in the fields that the format does not use. -/
theorem wordIsAssembledFromFields : Obligations.WordIsAssembledFromFields := by
  simp only [Obligations.WordIsAssembledFromFields, ← assembleWord_eq_wordOf]
  exact ⟨fun _ _ _ => rfl, fun _ _ _ => rfl, fun _ _ _ => rfl, fun _ _ _ => rfl, fun _ _ => rfl,
    fun _ _ => rfl, fun _ => rfl, fun _ _ => rfl, rfl, rfl, rfl, rfl, rfl⟩

/-- Settles O4: each word is the encoding of the command the spec names. -/
theorem specWordsDecode : Obligations.SpecWordsDecode :=
  ⟨decodeOfEncode (.fadd 8 6 5) rfl, decodeOfEncode (.fsub 6 4 5) rfl, decodeOfEncode (.fmul 3 1 2) rfl,
    decodeOfEncode (.fpow 7 4 5) rfl, decodeOfEncode (.finv 2 1) rfl, decodeOfEncode (.fldi 1 3) rfl,
    decodeOfEncode (.fldi 0 256) rfl, decodeOfEncode (.cgen 1) rfl, decodeOfEncode (.peval 2 3) rfl,
    decodeOfEncode .pclr rfl, decodeOfEncode .lbasis rfl, decodeOfEncode .split rfl,
    decodeOfEncode .recon rfl⟩

/-! ## Words that are no command -/

theorem exists_decodedBy_iff {op : BitVec 6} : (∃ d, DecodedBy op d) ↔
    op ∈ [0x01, 0x02, 0x03, 0x04, 0x05, 0x06, 0x10, 0x11, 0x12, 0x18, 0x20, 0x21] := by
  constructor
  · rintro ⟨d, hd⟩
    cases hd <;> decide
  · simp only [List.mem_cons, List.not_mem_nil, or_false]
    rintro (rfl | rfl | rfl | rfl | rfl | rfl | rfl | rfl | rfl | rfl | rfl | rfl) <;>
      exact ⟨_, by constructor⟩

/-- With res = 0 and an opcode of the table, a word is no command exactly when a field that its format does not use
is set or its immediate is out of range (spec/30_encoding.md R98). -/
theorem rejected_iff_of_decodedBy {w : Word} {d : Word → Except DecodeError Instr}
    (hd : DecodedBy (opField w) d) (hres : resField w = 0) : (∀ i, decode w ≠ .ok i) ↔
      unusedFieldSet w ∨ (opField w = 0x06 ∧ 256 < (immField w).toNat) := by
  rw [decode_of_decodedBy hd rfl hres, ← not_exists]
  unfold unusedFieldSet
  generalize opField w = op at hd
  cases hd with
  | fadd | fsub | fmul | fpow => simp [decodeFR_eq_ok]
  | finv | peval => simp [decodeFU_eq_ok, imp_iff_not_or]
  | fldi => simp [decodeFI_eq_ok, imp_iff_not_or, canonical_false_iff, or_assoc]
  | cgen => simp [decodeFS_eq_ok, imp_iff_not_or]
  | pclr | lbasis | split | recon => simp [decodeFZ_eq_ok, imp_iff_not_or, hres]

/-- The four kinds of illegal word, and only they (spec/30_encoding.md R98). -/
theorem rejected_iff (w : Word) : (∀ i, decode w ≠ .ok i) ↔
    (opField w ∉ [0x01, 0x02, 0x03, 0x04, 0x05, 0x06, 0x10, 0x11, 0x12, 0x18, 0x20, 0x21]
      ∨ resField w ≠ 0 ∨ unusedFieldSet w ∨ (opField w = 0x06 ∧ 256 < (immField w).toNat)) := by
  rw [← exists_decodedBy_iff]
  by_cases hres : resField w = 0
  · by_cases hop : ∃ d, DecodedBy (opField w) d
    · have ⟨d, hd⟩ := hop
      rw [rejected_iff_of_decodedBy hd hres]
      simp only [hop, hres, not_true_eq_false, ne_eq, false_or]
    · refine iff_of_true (fun i hi => ?_) (.inl hop)
      obtain ⟨-, d, hd, -⟩ := decodedBy_of_decode hi
      exact hop ⟨d, hd⟩
  · refine iff_of_true (fun i hi => ?_) (.inr (.inl hres))
    obtain ⟨hzero, -⟩ := decodedBy_of_decode hi
    exact hres hzero

/-- The unit step of a word that is no command completes with ILLEGAL_COMMAND, whatever the word's opcode
(spec/30_encoding.md R98). -/
theorem illegalCompletes_all (op : BitVec 6) : illegalCompletes op := by
  intro s hb _ hno
  rw [unitTurn, if_pos hb, unitStep]
  split
  · next i hi => exact absurd hi (hno i)
  · rfl

/-- Settles O5: the four kinds, the completion they lead to, the all-zero word, whose opcode is reserved, and
acceptance, which is a write to CMD. -/
theorem illegalWordCompletes : Obligations.IllegalWordCompletes := by
  refine ⟨rejected_iff, illegalCompletes_all, ?_, fun s v hb => ?_⟩
  · exact (rejected_iff 0).mpr (.inl (by decide))
  · exact hostWrite_of_mapped (l := .cmd) rfl hb rfl v

end Sys2Proof.Machine
end

/-! # Proofs: the assembler (spec/30_encoding.md R101 to R104) -/

section
namespace Sys2Proof.Machine

/-! ## Numbers and registers -/

theorem digitValue_digitChar {d : Nat} (h : d < 10) : digitValue 10 (Nat.digitChar d) = some d := by
  interval_cases d <;> rfl

theorem decimal_ne_nil (n : Nat) : decimal n ≠ [] := by
  unfold decimal
  split
  · simp
  · split <;> simp

/-- A decimal spelling is made of decimal digits. -/
theorem mem_decimal {n : Nat} (hn : n < 1000) {c : Char} (hc : c ∈ decimal n) :
    ∃ d < 10, c = Nat.digitChar d := by
  unfold decimal at hc
  split at hc
  · exact ⟨n, by omega, by simpa using hc⟩
  split at hc
  all_goals
    simp only [List.mem_cons, List.not_mem_nil, or_false] at hc
  · rcases hc with rfl | rfl <;> exact ⟨_, by omega, rfl⟩
  · rcases hc with rfl | rfl | rfl <;> exact ⟨_, by omega, rfl⟩

/-- Reading back the decimal spelling (spec/30_encoding.md R102). -/
theorem numberFrom_decimal {n : Nat} (hn : n < 1000) : numberFrom 10 0 (decimal n) = some n := by
  unfold decimal
  split
  · next h => simp [numberFrom, digitValue_digitChar h]
  split
  all_goals
    simp (disch := omega) only [numberFrom, digitValue_digitChar, Option.some.injEq]
    omega

/-- A decimal spelling is not taken for a hexadecimal one, since no digit is an x (spec/30_encoding.md R102). -/
theorem parseNumber_decimal {n : Nat} (hn : n < 1000) : parseNumber (decimal n) = some n := by
  have hx : 'x' ∉ decimal n := by
    intro hmem
    obtain ⟨d, hd, hc⟩ := mem_decimal hn hmem
    interval_cases d <;> exact absurd hc (by decide)
  generalize hcs : decimal n = cs at hx
  unfold parseNumber
  split
  · exact absurd hcs (decimal_ne_nil n)
  · simp at hx
  · simp at hx
  · rw [← hcs, numberFrom_decimal hn]

theorem parseReg_regText (r : Reg) : parseReg (regText r) = some r := by
  have hr : r.toNat < 16 := r.isLt
  simp [parseReg, regText, numberFrom_decimal (show r.toNat < 1000 by omega), hr]

theorem parseImm_decimal {v : FieldWord} (h : canonical v = true) :
    parseImm (decimal v.toNat) = some v := by
  have hv : v.toNat ≤ 256 := (canonical_iff v).mp h
  simp [parseImm, parseNumber_decimal (show v.toNat < 1000 by omega), hv]

/-! ## Tokens -/

/-- A character that separates nothing: no blank, no comma, no semicolon (spec/30_encoding.md R101). -/
def isPlain (c : Char) : Bool := !isBlank c && c != ',' && c != ';'

/-- A mnemonic or an operand: not empty, and no character in it separates. -/
def Token (cs : List Char) : Prop := cs ≠ [] ∧ cs.all isPlain = true

theorem isPlain_iff {c : Char} : isPlain c = true ↔ isBlank c = false ∧ c ≠ ',' ∧ c ≠ ';' := by
  simp [isPlain, and_assoc]

theorem Token.plain {cs : List Char} (h : Token cs) {c : Char} (hc : c ∈ cs) :
    isBlank c = false ∧ c ≠ ',' ∧ c ≠ ';' :=
  isPlain_iff.mp (List.all_eq_true.mp h.2 c hc)

theorem Token.not_blank {cs : List Char} (h : Token cs) : ∀ c ∈ cs, isBlank c = false :=
  fun _ hc => (h.plain hc).1

theorem Token.ne_comma {cs : List Char} (h : Token cs) : ∀ c ∈ cs, c ≠ ',' :=
  fun _ hc => (h.plain hc).2.1

theorem Token.ne_semicolon {cs : List Char} (h : Token cs) : ∀ c ∈ cs, c ≠ ';' :=
  fun _ hc => (h.plain hc).2.2

theorem isPlain_digitChar {d : Nat} (h : d < 10) : isPlain (Nat.digitChar d) = true := by
  interval_cases d <;> rfl

theorem token_decimal {n : Nat} (hn : n < 1000) : Token (decimal n) := by
  refine ⟨decimal_ne_nil n, List.all_eq_true.mpr fun c hc => ?_⟩
  obtain ⟨d, hd, rfl⟩ := mem_decimal hn hc
  exact isPlain_digitChar hd

theorem token_regText (r : Reg) : Token (regText r) := by
  have hr : r.toNat < 16 := r.isLt
  obtain ⟨-, hdigits⟩ : Token (decimal r.toNat) := token_decimal (by omega)
  exact ⟨nofun, hdigits⟩

/-! ## Blanks at the ends -/

/-- A text with no blank at its ends. -/
def Trimmed (cs : List Char) : Prop :=
  ∃ h : cs ≠ [], isBlank (cs.head h) = false ∧ isBlank (cs.getLast h) = false

theorem Trimmed.trim_eq {cs : List Char} (h : Trimmed cs) : trim cs = cs := by
  obtain ⟨hne, hhead, hlast⟩ := h
  have keep : ∀ {l : List Char} (hl : l ≠ []), isBlank (l.head hl) = false → l.dropWhile isBlank = l := by
    intro l hl hb
    obtain ⟨c, rest, rfl⟩ := List.exists_cons_of_ne_nil hl
    exact List.dropWhile_cons_of_neg (by simpa using hb)
  have hrev : cs.reverse ≠ [] := by simpa using hne
  rw [trim, keep hne hhead, keep hrev (by simpa using hlast), List.reverse_reverse]

theorem Token.trimmed {cs : List Char} (h : Token cs) : Trimmed cs := by
  have hne : cs ≠ [] := h.1
  exact ⟨hne, h.not_blank _ (List.head_mem hne), h.not_blank _ (List.getLast_mem hne)⟩

theorem Trimmed.between {a b : List Char} (ha : Trimmed a) (hb : Trimmed b) (mid : List Char) :
    Trimmed (a ++ (mid ++ b)) := by
  obtain ⟨hane, hhead, -⟩ := ha
  obtain ⟨hbne, -, hlast⟩ := hb
  refine ⟨by simp [hane], ?_, ?_⟩
  · rwa [List.head_append_of_ne_nil]
  · rwa [List.getLast_append_of_ne_nil _ (List.append_ne_nil_of_right_ne_nil mid hbne),
      List.getLast_append_of_ne_nil _ hbne]

theorem trim_blank_cons {c : Char} (h : isBlank c = true) (cs : List Char) :
    trim (c :: cs) = trim cs := by
  simp [trim, h]

/-! ## The operands of a line -/

/-- The operands of a canonical line, each behind its comma (spec/30_encoding.md R101). -/
def joinOperands : List (List Char) → List Char
  | [] => []
  | [a] => a
  | a :: b :: rest => operandPair a (joinOperands (b :: rest))

theorem splitAt_ne_nil (sep : Char) (cs : List Char) : splitAt sep cs ≠ [] := by
  cases cs with
  | nil => simp [splitAt]
  | cons c cs =>
    simp only [splitAt]
    split
    · simp
    · split <;> simp

theorem splitAt_sep_cons (sep : Char) (cs : List Char) : splitAt sep (sep :: cs) = [] :: splitAt sep cs := by
  obtain ⟨piece, pieces, h⟩ := List.exists_cons_of_ne_nil (splitAt_ne_nil sep cs)
  simp [splitAt, h]

theorem splitAt_cons_of_ne {sep c : Char} {cs piece : List Char} {pieces : List (List Char)} (hc : c ≠ sep)
    (h : splitAt sep cs = piece :: pieces) : splitAt sep (c :: cs) = (c :: piece) :: pieces := by
  simp [splitAt, h, hc]

/-- A text without separators stays in the first piece. -/
theorem splitAt_append {sep : Char} {a cs piece : List Char} {pieces : List (List Char)}
    (ha : ∀ c ∈ a, c ≠ sep) (h : splitAt sep cs = piece :: pieces) :
    splitAt sep (a ++ cs) = (a ++ piece) :: pieces := by
  induction a with
  | nil => exact h
  | cons c a ih =>
    obtain ⟨hc, ha⟩ := List.forall_mem_cons.mp ha
    exact splitAt_cons_of_ne hc (ih ha)

/-- A token alone is one piece. -/
theorem Token.splitAt_eq {a : List Char} (h : Token a) : splitAt ',' a = [a] := by
  have := splitAt_append (cs := []) h.ne_comma rfl
  simpa using this

/-- A token before a comma is the first operand, and a blank behind the comma goes (spec/30_encoding.md R101). -/
theorem Token.split_operandPair {a : List Char} (h : Token a) (t : List Char) :
    (splitAt ',' (operandPair a t)).map trim = a :: (splitAt ',' t).map trim := by
  obtain ⟨piece, pieces, ht⟩ := List.exists_cons_of_ne_nil (splitAt_ne_nil ',' t)
  have hblank : splitAt ',' (' ' :: t) = (' ' :: piece) :: pieces := splitAt_cons_of_ne (by decide) ht
  have hpair : splitAt ',' (operandPair a t) = a :: (' ' :: piece) :: pieces := by
    rw [operandPair, splitAt_append h.ne_comma (splitAt_sep_cons ',' (' ' :: t)), hblank, List.append_nil]
  rw [hpair, ht, List.map_cons, List.map_cons, h.trimmed.trim_eq, trim_blank_cons rfl, List.map_cons]

/-- Splitting undoes joining. -/
theorem split_joinOperands {ops : List (List Char)} (hne : ops ≠ []) (h : ∀ a ∈ ops, Token a) :
    (splitAt ',' (joinOperands ops)).map trim = ops := by
  induction ops with
  | nil => exact absurd rfl hne
  | cons a rest ih =>
    obtain ⟨ha, hrest⟩ := List.forall_mem_cons.mp h
    cases rest with
    | nil => rw [joinOperands, ha.splitAt_eq, List.map_singleton, ha.trimmed.trim_eq]
    | cons b rest => rw [joinOperands, ha.split_operandPair, ih (by simp) hrest]

theorem trimmed_joinOperands {ops : List (List Char)} (hne : ops ≠ []) (h : ∀ a ∈ ops, Token a) :
    Trimmed (joinOperands ops) := by
  induction ops with
  | nil => exact absurd rfl hne
  | cons a rest ih =>
    obtain ⟨ha, hrest⟩ := List.forall_mem_cons.mp h
    cases rest with
    | nil => exact ha.trimmed
    | cons b rest => exact ha.trimmed.between (ih (by simp) hrest) [',', ' ']

/-- No comment begins within the operands (spec/30_encoding.md R101). -/
theorem joinOperands_ne_semicolon {ops : List (List Char)} (h : ∀ a ∈ ops, Token a) :
    ∀ c ∈ joinOperands ops, c ≠ ';' := by
  induction ops with
  | nil => simp [joinOperands]
  | cons a rest ih =>
    obtain ⟨ha, hrest⟩ := List.forall_mem_cons.mp h
    cases rest with
    | nil => exact ha.ne_semicolon
    | cons b rest =>
      rw [joinOperands, operandPair]
      simpa [or_imp, forall_and] using ⟨ha.ne_semicolon, ih hrest⟩

theorem operandsOf_of_trim {cs t : List Char} (h : trim cs = t) (hne : t ≠ []) :
    operandsOf cs = (splitAt ',' t).map trim := by
  obtain ⟨c, rest, rfl⟩ := List.exists_cons_of_ne_nil hne
  simp only [operandsOf, h]

theorem operandsOf_joinOperands {ops : List (List Char)} (hne : ops ≠ []) (h : ∀ a ∈ ops, Token a) :
    operandsOf (' ' :: joinOperands ops) = ops := by
  have htrim := trimmed_joinOperands hne h
  have hblank : trim (' ' :: joinOperands ops) = joinOperands ops :=
    (trim_blank_cons rfl _).trans htrim.trim_eq
  rw [operandsOf_of_trim hblank htrim.1, split_joinOperands hne h]

/-! ## Whole lines -/

theorem assembleLine_of_trim {line t : List Char} (h : trim (line.takeWhile (· != ';')) = t) (hne : t ≠ []) :
    assembleLine line = asmCommand ((t.takeWhile fun d => !isBlank d).map Char.toUpper)
      (operandsOf (t.dropWhile fun d => !isBlank d)) := by
  obtain ⟨c, rest, rfl⟩ := List.exists_cons_of_ne_nil hne
  simp only [assembleLine, h]

/-- A mnemonic in capitals, a blank and joined operands are assembled as that mnemonic with those operands
(spec/30_encoding.md R101). -/
theorem assembleLine_joinOperands {mnemonic : List Char} {ops : List (List Char)} (hm : Token mnemonic)
    (hupper : mnemonic.map Char.toUpper = mnemonic) (hne : ops ≠ []) (h : ∀ a ∈ ops, Token a) :
    assembleLine (mnemonic ++ ' ' :: joinOperands ops) = asmCommand mnemonic ops := by
  have hsemi : ∀ c ∈ mnemonic ++ ' ' :: joinOperands ops, (c != ';') = true := by
    simpa [or_imp, forall_and] using ⟨hm.ne_semicolon, joinOperands_ne_semicolon h⟩
  have htrim : Trimmed (mnemonic ++ ' ' :: joinOperands ops) :=
    hm.trimmed.between (trimmed_joinOperands hne h) [' ']
  have hsolid : ∀ c ∈ mnemonic, (!isBlank c) = true := fun c hc => by simp [hm.not_blank c hc]
  have hfront : (mnemonic ++ ' ' :: joinOperands ops).takeWhile (fun d => !isBlank d) = mnemonic := by
    rw [List.takeWhile_append_of_pos hsolid, List.takeWhile_cons_of_neg (by decide), List.append_nil]
  have hback : (mnemonic ++ ' ' :: joinOperands ops).dropWhile (fun d => !isBlank d)
      = ' ' :: joinOperands ops := by
    rw [List.dropWhile_append_of_pos hsolid, List.dropWhile_cons_of_neg (by decide)]
  rw [assembleLine_of_trim (by rw [List.takeWhile_eq_self_iff.mpr hsemi, htrim.trim_eq]) htrim.1, hfront,
    hback, hupper, operandsOf_joinOperands hne h]

/-! ## The line of each format -/

section
variable {mnemonic : List Char} (hm : Token mnemonic) (hupper : mnemonic.map Char.toUpper = mnemonic)
include hm hupper

theorem assembleLine_formatFR {mk : Reg → Reg → Reg → Instr}
    (hcmd : ∀ ops, asmCommand mnemonic ops = asmFR mk ops) (rd rs1 rs2 : Reg) :
    assembleLine (mnemonic ++ ' ' :: operandPair (regText rd) (operandPair (regText rs1) (regText rs2)))
      = .ok [mk rd rs1 rs2] := by
  have hline := assembleLine_joinOperands hm hupper (ops := [regText rd, regText rs1, regText rs2])
    (by simp) (by simp [token_regText])
  exact hline.trans (by simp [hcmd, asmFR, parseReg_regText])

theorem assembleLine_formatFU {mk : Reg → Reg → List Instr}
    (hcmd : ∀ ops, asmCommand mnemonic ops = asmFU mk ops) (rd rs1 : Reg) :
    assembleLine (mnemonic ++ ' ' :: operandPair (regText rd) (regText rs1)) = .ok (mk rd rs1) := by
  have hline := assembleLine_joinOperands hm hupper (ops := [regText rd, regText rs1])
    (by simp) (by simp [token_regText])
  exact hline.trans (by simp [hcmd, asmFU, parseReg_regText])

theorem assembleLine_formatFI (hcmd : ∀ ops, asmCommand mnemonic ops = asmFI ops) (rd : Reg) {imm : FieldWord}
    (himm : canonical imm = true) :
    assembleLine (mnemonic ++ ' ' :: operandPair (regText rd) (decimal imm.toNat))
      = .ok [.fldi rd imm] := by
  have htoken : Token (decimal imm.toNat) := token_decimal (by have := (canonical_iff imm).mp himm; omega)
  have hline := assembleLine_joinOperands hm hupper (ops := [regText rd, decimal imm.toNat])
    (by simp) (by simp [token_regText, htoken])
  exact hline.trans (by simp [hcmd, asmFI, parseReg_regText, parseImm_decimal himm])

theorem assembleLine_formatFS {mk : Reg → List Instr} (hcmd : ∀ ops, asmCommand mnemonic ops = asmFS mk ops)
    (rs1 : Reg) : assembleLine (mnemonic ++ ' ' :: regText rs1) = .ok (mk rs1) := by
  have hline := assembleLine_joinOperands hm hupper (ops := [regText rs1])
    (by simp) (by simp [token_regText])
  exact hline.trans (by simp [hcmd, asmFS, parseReg_regText])

end

/-- Settles O6, mnemonic by mnemonic; the lines without operands are evaluated. -/
theorem assemblerReadsItsOwnLines : Obligations.AssemblerReadsItsOwnLines := by
  intro i hwf
  cases i with
  | fadd =>
    exact assembleLine_formatFR (mnemonic := ['F', 'A', 'D', 'D']) ⟨nofun, rfl⟩ rfl (fun _ => rfl) ..
  | fsub =>
    exact assembleLine_formatFR (mnemonic := ['F', 'S', 'U', 'B']) ⟨nofun, rfl⟩ rfl (fun _ => rfl) ..
  | fmul =>
    exact assembleLine_formatFR (mnemonic := ['F', 'M', 'U', 'L']) ⟨nofun, rfl⟩ rfl (fun _ => rfl) ..
  | fpow =>
    exact assembleLine_formatFR (mnemonic := ['F', 'P', 'O', 'W']) ⟨nofun, rfl⟩ rfl (fun _ => rfl) ..
  | finv =>
    exact assembleLine_formatFU (mnemonic := ['F', 'I', 'N', 'V']) ⟨nofun, rfl⟩ rfl (fun _ => rfl) ..
  | fldi rd =>
    exact assembleLine_formatFI (mnemonic := ['F', 'L', 'D', 'I']) ⟨nofun, rfl⟩ rfl (fun _ => rfl) rd hwf
  | cgen =>
    exact assembleLine_formatFS (mnemonic := ['C', 'G', 'E', 'N']) ⟨nofun, rfl⟩ rfl (fun _ => rfl) ..
  | peval =>
    exact assembleLine_formatFU (mnemonic := ['P', 'E', 'V', 'A', 'L']) ⟨nofun, rfl⟩ rfl (fun _ => rfl) ..
  | pclr | lbasis | split | recon => rfl

end Sys2Proof.Machine
end

/-! # Proofs: the pseudo-instructions (spec/30_encoding.md R106) -/

section
namespace Sys2Proof.Machine

open Sys2Proof.Claims

/-! ## Commands that write one field result -/

@[simp] theorem State.readF_complete (s : State) (c : Code) (info : Word) (r : Reg) :
    (s.complete c info).readF r = s.readF r := rfl

/-- A command whose rule writes the field element v to F[rd] and nothing else completes with OK, F[rd] then holds v
and every other field register is as it was (spec/40_field_arith.md R128). -/
theorem exec_writes_field {i : Instr} {s : State} {rd : Reg} {v : Nat} (hv : v < 257)
    (h : ruleOf i s = .ok (s.writeF rd (BitVec.ofNat 9 v))) :
    ∃ t, exec i s = .next t ∧ t.status.code = 0 ∧ (t.readF rd).toNat = v
      ∧ ∀ r, r ≠ rd → t.readF r = s.readF r := by
  refine ⟨(s.writeF rd (BitVec.ofNat 9 v)).complete .ok 0, ?_, rfl, ?_, fun r hr => ?_⟩
  · rw [exec_eq_finish, h, finish_ok]
  · rw [State.readF_complete, State.readF_writeF_same, toNat_ofNat_field hv]
  · rw [State.readF_complete, State.readF_writeF_other s _ hr]

section
variable {s : State} {rd rs1 rs2 : Reg}

theorem ruleOf_fmul (ha : (s.readF rs1).toNat ≤ 256) (hb : (s.readF rs2).toNat ≤ 256) :
    ruleOf (.fmul rd rs1 rs2) s
      = .ok (s.writeF rd (BitVec.ofNat 9 (mulP (s.readF rs1).toNat (s.readF rs2).toNat))) :=
  binaryFieldRule_eq_ok.mpr ⟨(canonical_iff _).mpr ha, (canonical_iff _).mpr hb, rfl⟩

theorem ruleOf_fsub (ha : (s.readF rs1).toNat ≤ 256) (hb : (s.readF rs2).toNat ≤ 256) :
    ruleOf (.fsub rd rs1 rs2) s
      = .ok (s.writeF rd (BitVec.ofNat 9 (subP (s.readF rs1).toNat (s.readF rs2).toNat))) :=
  binaryFieldRule_eq_ok.mpr ⟨(canonical_iff _).mpr ha, (canonical_iff _).mpr hb, rfl⟩

theorem ruleOf_finv (ha : inRange (s.readF rs1)) :
    ruleOf (.finv rd rs1) s = .ok (s.writeF rd (BitVec.ofNat 9 (invP (s.readF rs1).toNat))) := by
  obtain ⟨hpos, hle⟩ := ha
  refine finvRule_eq_ok.mpr ⟨(canonical_iff _).mpr hle, fun hz => ?_, rfl⟩
  rw [hz] at hpos
  exact absurd hpos (by decide)

/-- FINV of 0 raises DIVISION_BY_ZERO with the operand's register (spec/40_field_arith.md R125). -/
theorem exec_finv_zero (hz : s.readF rs1 = 0) :
    raises (.finv rd rs1) s .divisionByZero (rs1.setWidth 32) := by
  have hrule : ruleOf (.finv rd rs1) s = .error (.raise .divisionByZero (regInfo rs1)) := by
    simp [ruleOf, finvRule, fieldOperand_ok, hz, canonical, raiseIf_pos]
  rw [raises, exec_eq_finish, hrule]
  rfl

end

/-! ## The field laws behind FDIV and FNEG -/

theorem prime_257 : Nat.Prime 257 := by norm_num

/-- Fermat's little theorem: the 255th power is the inverse (spec/40_field_arith.md R126). -/
theorem invP_mul_self {a : Nat} (hpos : 1 ≤ a) (hle : a ≤ 256) : invP a * a % 257 = 1 := by
  have hcop : Nat.Coprime a 257 := (Nat.coprime_of_lt_prime (by omega) (by omega) prime_257).symm
  have hfermat : a ^ 256 % 257 = 1 := by
    have := Nat.ModEq.pow_totient hcop
    rwa [Nat.totient_prime prime_257] at this
  calc invP a * a % 257 = a ^ 255 * a % 257 := Nat.mod_mul_mod ..
    _ = a ^ 256 % 257 := by rw [← pow_succ]
    _ = 1 := hfermat

/-- A quotient times its divisor is the dividend (spec/30_encoding.md R106). -/
theorem mulP_inverse_mul {a b c : Nat} (h : c * b % 257 = 1) : mulP a c * b % 257 = a % 257 := by
  calc mulP a c * b % 257 = a * (c * b) % 257 := by rw [mulP, prime, Nat.mod_mul_mod, Nat.mul_assoc]
    _ = a * (c * b % 257) % 257 := (Nat.mul_mod_mod ..).symm
    _ = a % 257 := by rw [h, Nat.mul_one]

theorem subP_zero_add_self {a : Nat} (h : a ≤ 256) : (subP 0 a + a) % 257 = 0 := by
  rw [subP_of_le (by omega)]
  omega

/-! ## What the expansions compute -/

/-- FDIV: FINV leaves the inverse of the divisor in F[ft], which is not the dividend's register, and FMUL multiplies
the dividend by it (spec/30_encoding.md R106). -/
theorem fdiv_computes {s : State} {fd fa fb ft : Reg} (hne : ft ≠ fa) (ha : (s.readF fa).toNat ≤ 256)
    (hb : inRange (s.readF fb)) :
    ∃ t u, exec (.finv ft fb) s = .next t ∧ exec (.fmul fd fa ft) t = .next u
      ∧ t.status.code = 0 ∧ u.status.code = 0
      ∧ (t.readF ft).toNat * (s.readF fb).toNat % 257 = 1
      ∧ (u.readF fd).toNat * (s.readF fb).toNat % 257 = (s.readF fa).toNat % 257 := by
  obtain ⟨t, ht, hcode, hinv, hother⟩ := exec_writes_field (invP_lt _) (ruleOf_finv (rd := ft) hb)
  have hone : (t.readF ft).toNat * (s.readF fb).toNat % 257 = 1 := by
    rw [hinv]
    exact invP_mul_self hb.1 hb.2
  have hdividend : t.readF fa = s.readF fa := hother fa hne.symm
  have hft : (t.readF ft).toNat ≤ 256 := by
    have := invP_lt (s.readF fb).toNat
    omega
  obtain ⟨u, hu, hcode', hmul, -⟩ :=
    exec_writes_field (mulP_lt _ _) (ruleOf_fmul (rd := fd) (hdividend ▸ ha) hft)
  refine ⟨t, u, ht, hu, hcode, hcode', hone, ?_⟩
  rw [hmul, hdividend]
  exact mulP_inverse_mul hone

/-- Settles O7: the expansions by definition, then each from what its commands write. -/
theorem pseudoInstructionsExpand : Obligations.PseudoInstructionsExpand := by
  refine ⟨fun _ => rfl, fun _ _ => rfl, fun _ _ _ _ => rfl, fun _ _ _ => rfl, fun s fd => ?_,
    fun s fd fa ha => ?_, fun s fd fa fb ft => fdiv_computes, fun s ft fb => exec_finv_zero,
    fun s fd fa fz hz ha => ?_⟩
  · obtain ⟨t, ht, hcode, hval, -⟩ :=
      exec_writes_field (i := .fldi fd 0) (s := s) (rd := fd) (v := 0) (by decide) rfl
    exact ⟨t, ht, hcode, BitVec.eq_of_toNat_eq hval⟩
  · obtain ⟨t, ht, hcode, hval, -⟩ := exec_writes_field (mulP_lt _ _) (ruleOf_fmul (rd := fd) ha ha)
    exact ⟨t, ht, hcode, hval⟩
  · obtain ⟨t, ht, hcode, hval, -⟩ :=
      exec_writes_field (subP_lt _ _) (ruleOf_fsub (rd := fd) (rs1 := fz) (by simp [hz]) ha)
    refine ⟨t, ht, hcode, ?_⟩
    rw [hval, hz]
    exact subP_zero_add_self ha

end Sys2Proof.Machine
end

/-! # Proofs: POLL (spec/30_encoding.md R105) -/

section
namespace Sys2Proof.Machine

/-- Settles O25: it is the host turn of a POLL. -/
theorem pollRepeatsWhileBusy : Obligations.PollRepeatsWhileBusy :=
  fun _ _ => hostTurn_of_poll

end Sys2Proof.Machine
end

/-! # Proofs: field arithmetic (spec/40_field_arith.md) -/

section
namespace Sys2Proof.Machine

open Sys2Proof.Claims

/-! ## How a command ends, in the words of the statements -/

/-- A rule that gets through completes with OK and what the rule wrote (spec/60_exceptions.md R224). -/
theorem completes_of_ruleOf {i : Instr} {s u : State} (h : ruleOf i s = .ok u) : completes i s u := by
  rw [completes, exec_eq_finish, h, finish_ok]
  rfl

/-- A raise of a code other than OK puts that code and its info in the completion fields
(spec/60_exceptions.md R223, R224). -/
theorem State.complete_eq_raisedState {c : Code} (hc : c ≠ .ok) (s : State) (info : Word) :
    s.complete c info = raisedState s c info := by
  cases c with
  | ok => exact absurd rfl hc
  | _ => rfl

theorem raises_of_ruleOf {i : Instr} {s : State} {c : Code} {info : Word}
    (h : ruleOf i s = .error (.raise c info)) : raises i s c info := by
  rw [raises, exec_eq_finish, h, finish_raise, State.complete_eq_raisedState (ruleOf_raise_ne_ok h)]

/-! ## The commands with two operand registers -/

section
variable {op : Nat → Nat → Nat} {rd rs1 rs2 : Reg} {s : State}

theorem binaryFieldRule_raise_first (ha : canonical (s.readF rs1) = false) :
    binaryFieldRule op rd rs1 rs2 s = .error (.raise .operandRange (regInfo rs1)) := by
  rw [binaryFieldRule, fieldOperand_raise ha, check_bind_error]

/-- The second operand is checked after the first (spec/40_field_arith.md R120 to R123). -/
theorem binaryFieldRule_raise_second (ha : canonical (s.readF rs1) = true)
    (hb : canonical (s.readF rs2) = false) :
    binaryFieldRule op rd rs1 rs2 s = .error (.raise .operandRange (regInfo rs2)) := by
  rw [binaryFieldRule, fieldOperand_ok ha, check_bind_ok, fieldOperand_raise hb, check_bind_error]

end

/-- A command of format FR whose rule checks two operands and writes op of them obeys binaryRule for every f that
agrees with op on field elements. -/
theorem binaryRule_of_binaryFieldRule {code : BitVec 6} {mk : Reg → Reg → Reg → Instr}
    {op f : Nat → Nat → Nat}
    (hdec : DecodedBy code (decodeFR mk))
    (hrule : ∀ rd rs1 rs2 s, ruleOf (mk rd rs1 rs2) s = binaryFieldRule op rd rs1 rs2 s)
    (hop : ∀ a b, a ≤ 256 → b ≤ 256 → op a b = f a b) : binaryRule code mk f := by
  refine ⟨fun rd rs1 rs2 => ?_, illegalCompletes_all code, fun s rd rs1 rs2 =>
    ⟨fun ha hb => ?_, fun ha => ?_, fun ha hb => ?_⟩⟩
  · rw [← assembleWord_eq_wordOf]
    exact (decode_assembleWord hdec).trans (decodeFR_eq_ok.mpr (by simp))
  · refine completes_of_ruleOf ((hrule ..).trans (binaryFieldRule_eq_ok.mpr ?_))
    exact ⟨(canonical_iff _).mpr ha, (canonical_iff _).mpr hb, by rw [hop _ _ ha hb]⟩
  · exact raises_of_ruleOf ((hrule ..).trans (binaryFieldRule_raise_first ((canonical_false_iff _).mpr ha)))
  · exact raises_of_ruleOf ((hrule ..).trans
      (binaryFieldRule_raise_second ((canonical_iff _).mpr ha) ((canonical_false_iff _).mpr hb)))

/-- The difference of field elements (spec/40_field_arith.md R121). -/
theorem subP_eq_ite {a b : Nat} (ha : a ≤ 256) (hb : b ≤ 256) :
    subP a b = if b ≤ a then a - b else a + 257 - b := by
  rw [subP_of_le (by omega)]
  split <;> omega

/-- Settles O26: FADD's rule is the binary one of addP. -/
theorem faddRule : Obligations.FaddRule :=
  binaryRule_of_binaryFieldRule .fadd (fun _ _ _ _ => rfl) fun _ _ _ _ => rfl

/-- Settles O27: FSUB's rule is the binary one of subP, which adds 257 to a negative difference. -/
theorem fsubRule : Obligations.FsubRule :=
  binaryRule_of_binaryFieldRule .fsub (fun _ _ _ _ => rfl) fun _ _ => subP_eq_ite

/-- Settles O28: FMUL's rule is the binary one of mulP. -/
theorem fmulRule : Obligations.FmulRule :=
  binaryRule_of_binaryFieldRule .fmul (fun _ _ _ _ => rfl) fun _ _ _ _ => rfl

/-- Settles O29: FPOW's rule is the binary one of powP. -/
theorem fpowRule : Obligations.FpowRule :=
  binaryRule_of_binaryFieldRule .fpow (fun _ _ _ _ => rfl) fun _ _ _ _ => rfl

/-! ## FINV and FLDI -/

theorem finvRule_raise_range {rd rs1 : Reg} {s : State} (ha : canonical (s.readF rs1) = false) :
    finvRule rd rs1 s = .error (.raise .operandRange (regInfo rs1)) := by
  rw [finvRule, fieldOperand_raise ha, check_bind_error]

/-- The zero check comes after the range check, which 0 passes (spec/40_field_arith.md R125). -/
theorem finvRule_raise_zero {rd rs1 : Reg} {s : State} (hz : s.readF rs1 = 0) :
    finvRule rd rs1 s = .error (.raise .divisionByZero (regInfo rs1)) := by
  have hrange : canonical (s.readF rs1) = true := by rw [hz]; rfl
  rw [finvRule, fieldOperand_ok hrange, check_bind_ok, raiseIf_pos hz, check_bind_error]

/-- Settles O30: the inverse's rule, its range check in front, and the zero check of exec_finv_zero. -/
theorem finvRule_holds : Obligations.FinvRule := by
  refine ⟨fun rd rs1 => ?_, illegalCompletes_all 0x05, fun s rd rs1 =>
    ⟨fun ha => completes_of_ruleOf (ruleOf_finv ha), fun ha => ?_, exec_finv_zero⟩⟩
  · rw [← assembleWord_eq_wordOf]
    exact (decode_assembleWord .finv).trans (decodeFU_eq_ok.mpr (by simp))
  · exact raises_of_ruleOf (finvRule_raise_range ((canonical_false_iff _).mpr ha))

/-- Settles O31: the format's range check decides which FLDI words are commands, and FLDI's rule has no check. -/
theorem fldiRule : Obligations.FldiRule := by
  refine ⟨fun rd imm himm => ?_, fun rd imm i himm hi => ?_, illegalCompletes_all 0x06,
    fun s rd imm _ => completes_of_ruleOf rfl⟩
  · rw [← assembleWord_eq_wordOf]
    exact (decode_assembleWord .fldi).trans (decodeFI_eq_ok.mpr (by simp [(canonical_iff imm).mpr himm]))
  · rw [← assembleWord_eq_wordOf, decode_assembleWord .fldi] at hi
    obtain ⟨-, hrange, -⟩ := decodeFI_eq_ok.mp hi
    rw [immField_assembleWord, canonical_iff] at hrange
    omega

/-! ## Powers and inverses -/

/-- One round of binary exponentiation takes the exponent's low bit into the result
(spec/40_field_arith.md R124). -/
theorem binaryPower_round (r b e : Nat) :
    (if e % 2 = 1 then r * b % 257 else r) * (b * b % 257) ^ (e / 2) ≡ r * b ^ e [MOD 257] := by
  have hresult : (if e % 2 = 1 then r * b % 257 else r) ≡ r * b ^ (e % 2) [MOD 257] := by
    rcases Nat.mod_two_eq_zero_or_one e with h | h
    · simp [h, Nat.ModEq.refl]
    · simp [h, Nat.mod_modEq]
  calc (if e % 2 = 1 then r * b % 257 else r) * (b * b % 257) ^ (e / 2)
      ≡ r * b ^ (e % 2) * (b * b) ^ (e / 2) [MOD 257] := hresult.mul ((Nat.mod_modEq ..).pow _)
    _ = r * b ^ e := by rw [← pow_two, ← pow_mul, mul_assoc, ← pow_add, Nat.mod_add_div]

/-- Binary exponentiation from the result r and the base b, run for as many bits as the exponent has. -/
theorem binaryPower_modEq {n e : Nat} (he : e < 2 ^ n) (r b : Nat) :
    binaryPower n r b e ≡ r * b ^ e [MOD 257] := by
  induction n generalizing r b e with
  | zero =>
    obtain rfl : e = 0 := by simpa using he
    simp [binaryPower, Nat.ModEq.refl]
  | succ n ih =>
    have hhalf : e / 2 < 2 ^ n := by omega
    exact (ih hhalf _ _).trans (binaryPower_round r b e)

/-- Settles O32: powP by definition, the loop by its invariant from the result 1. -/
theorem powerMethodsAgree : Obligations.PowerMethodsAgree := by
  refine fun a e => ⟨rfl, rfl, fun n he => ?_⟩
  have h := binaryPower_modEq he 1 a
  rwa [one_mul] at h

/-- A field element has at most one inverse (spec/40_field_arith.md R126). -/
theorem inverse_unique {a b c : Nat} (hpos : 1 ≤ a) (ha : a ≤ 256) (hb : b ≤ 256) (hc : c ≤ 256)
    (hab : a * b % 257 = 1) (hac : a * c % 257 = 1) : b = c := by
  have hcop : Nat.gcd 257 a = 1 := Nat.coprime_of_lt_prime (by omega) (by omega) prime_257
  have hmod : b ≡ c [MOD 257] := Nat.ModEq.cancel_left_of_coprime hcop (hab.trans hac.symm)
  exact hmod.eq_of_lt_of_lt (by omega) (by omega)

/-- Settles O33: the register holds invP, which Fermat's little theorem makes an inverse. -/
theorem inverseLaw : Obligations.InverseLaw := by
  intro s rd rs1 ha
  obtain ⟨t, ht, -, hval, -⟩ := exec_writes_field (invP_lt _) (ruleOf_finv (rd := rd) ha)
  obtain ⟨hpos, hle⟩ := ha
  have hmul : (s.readF rs1).toNat * (t.readF rd).toNat % 257 = 1 := by
    rw [hval, mul_comm]
    exact invP_mul_self hpos hle
  have hmax : (t.readF rd).toNat ≤ 256 := by
    have := invP_lt (s.readF rs1).toNat
    omega
  have hne : (t.readF rd).toNat ≠ 0 := fun h => by simp [h] at hmul
  exact ⟨t, ht, ⟨by omega, hmax⟩, hmul, fun c _ hc hone => inverse_unique hpos hle hc hmax hone hmul⟩

/-! ## What a field command writes and what it depends on -/

/-- Two rules, from s and from s', end alike: both write the same value to F[rd] and nothing else, or both raise the
same error. -/
def endAlike (rd : Reg) (s s' : State) (x x' : Check State) : Prop :=
  (∃ v, x = .ok (s.writeF rd v) ∧ x' = .ok (s'.writeF rd v))
    ∨ ∃ c info, x = .error (.raise c info) ∧ x' = .error (.raise c info)

section
variable {s s' : State} {rd rs1 rs2 : Reg}

theorem binaryFieldRule_endAlike (op : Nat → Nat → Nat) (h1 : s.readF rs1 = s'.readF rs1)
    (h2 : s.readF rs2 = s'.readF rs2) :
    endAlike rd s s' (binaryFieldRule op rd rs1 rs2 s) (binaryFieldRule op rd rs1 rs2 s') := by
  cases ha : canonical (s.readF rs1) with
  | false => exact .inr ⟨_, _, binaryFieldRule_raise_first ha, binaryFieldRule_raise_first (h1 ▸ ha)⟩
  | true =>
    cases hb : canonical (s.readF rs2) with
    | false =>
      exact .inr ⟨_, _, binaryFieldRule_raise_second ha hb, binaryFieldRule_raise_second (h1 ▸ ha) (h2 ▸ hb)⟩
    | true =>
      exact .inl ⟨_, binaryFieldRule_eq_ok.mpr ⟨ha, hb, rfl⟩,
        binaryFieldRule_eq_ok.mpr ⟨h1 ▸ ha, h2 ▸ hb, by rw [h1, h2]⟩⟩

theorem finvRule_endAlike (h1 : s.readF rs1 = s'.readF rs1) :
    endAlike rd s s' (finvRule rd rs1 s) (finvRule rd rs1 s') := by
  cases ha : canonical (s.readF rs1) with
  | false => exact .inr ⟨_, _, finvRule_raise_range ha, finvRule_raise_range (h1 ▸ ha)⟩
  | true =>
    by_cases hz : s.readF rs1 = 0
    · exact .inr ⟨_, _, finvRule_raise_zero hz, finvRule_raise_zero (h1 ▸ hz)⟩
    · exact .inl ⟨_, finvRule_eq_ok.mpr ⟨ha, hz, rfl⟩, finvRule_eq_ok.mpr ⟨h1 ▸ ha, h1 ▸ hz, by rw [h1]⟩⟩

end

/-- A field command has a destination register, and its rule ends alike from states that agree on its sources
(spec/40_field_arith.md R128). -/
theorem ruleOf_fieldCommand {i : Instr} (hi : fieldCommand i) : ∃ rd, dest i = some rd ∧
    ∀ s s' : State, (∀ r ∈ sources i, s.readF r = s'.readF r) →
      endAlike rd s s' (ruleOf i s) (ruleOf i s') := by
  cases i with
  | fadd rd rs1 rs2 | fsub rd rs1 rs2 | fmul rd rs1 rs2 | fpow rd rs1 rs2 =>
    exact ⟨rd, rfl, fun s s' h =>
      binaryFieldRule_endAlike _ (h rs1 (by simp [sources])) (h rs2 (by simp [sources]))⟩
  | finv rd rs1 => exact ⟨rd, rfl, fun s s' h => finvRule_endAlike (h rs1 (by simp [sources]))⟩
  | fldi rd imm => exact ⟨rd, rfl, fun s s' _ => .inl ⟨imm, rfl, rfl⟩⟩
  | cgen | peval | pclr | lbasis | split | recon => exact hi.elim

/-- CODE is 0 after a completion with OK and after no other (spec/60_exceptions.md R220). -/
theorem State.complete_code_eq_zero_iff {s : State} {c : Code} {info : Word} :
    (s.complete c info).status.code = 0 ↔ c = .ok := by
  rw [State.complete_status, Status.completed]
  cases c <;> decide

theorem completionFields_complete (s : State) (c : Code) (info : Word) :
    completionFields (s.complete c info) := by
  refine ⟨rfl, rfl, ?_, fun hcode => ?_⟩
  · rw [ne_eq, State.complete_code_eq_zero_iff]
    simp [Status.completed]
  · rw [State.complete_errinfo, if_pos (State.complete_code_eq_zero_iff.mp hcode)]

/-- Whether its rule got through or raised, a command that writes F[rd] alone has changed nothing else but the
completion fields (spec/40_field_arith.md R128). -/
theorem exec_next_of_endAlike {i : Instr} {s t : State} {rd : Reg}
    (hend : endAlike rd s s (ruleOf i s) (ruleOf i s)) (ht : exec i s = .next t) :
    (∀ r, r ≠ rd → t.readF r = s.readF r) ∧ (t.status.code ≠ 0 → t.f = s.f) ∧ completionFields t
      ∧ sameSurround s t ∧ t.len = s.len ∧ t.mem = s.mem ∧ t.coef = s.coef ∧ t.kc = s.kc
      ∧ t.entropy = s.entropy := by
  rw [exec_eq_finish] at ht
  rcases hend with ⟨v, hv, -⟩ | ⟨c, info, hraise, -⟩
  · rw [hv, finish_ok] at ht
    cases ht
    exact ⟨fun r hr => s.readF_writeF_other v hr, fun h => absurd rfl h, completionFields_complete ..,
      ⟨rfl, rfl, rfl, rfl, rfl, rfl, rfl, rfl⟩, rfl, rfl, rfl, rfl, rfl⟩
  · rw [hraise, finish_raise] at ht
    cases ht
    exact ⟨fun _ _ => rfl, fun _ => rfl, completionFields_complete ..,
      ⟨rfl, rfl, rfl, rfl, rfl, rfl, rfl, rfl⟩, rfl, rfl, rfl, rfl, rfl⟩

/-- Rules that end alike complete alike (spec/40_field_arith.md R128). -/
theorem exec_of_endAlike {i : Instr} {s s' : State} {rd : Reg}
    (hend : endAlike rd s s' (ruleOf i s) (ruleOf i s')) :
    ∃ t t', exec i s = .next t ∧ exec i s' = .next t' ∧ t.status = t'.status ∧ t.errinfo = t'.errinfo
      ∧ (t.status.code = 0 → t.readF rd = t'.readF rd) := by
  rw [exec_eq_finish, exec_eq_finish]
  rcases hend with ⟨v, hv, hv'⟩ | ⟨c, info, hraise, hraise'⟩
  · rw [hv, hv']
    refine ⟨_, _, finish_ok .., finish_ok .., rfl, rfl, fun _ => ?_⟩
    rw [State.readF_complete, State.readF_complete, State.readF_writeF_same, State.readF_writeF_same]
  · have hc : c ≠ .ok := ruleOf_raise_ne_ok hraise
    rw [hraise, hraise']
    exact ⟨_, _, finish_raise .., finish_raise .., rfl, rfl,
      fun hcode => absurd (State.complete_code_eq_zero_iff.mp hcode) hc⟩

/-- Settles O34: the frame is the case of one state, the dependence that of two. -/
theorem fieldCommandsOnlyWriteRd : Obligations.FieldCommandsOnlyWriteRd := by
  intro i hi
  obtain ⟨rd, hrd, hend⟩ := ruleOf_fieldCommand hi
  refine ⟨fun s t ht => ?_, fun s s' hsrc => ?_⟩
  · obtain ⟨hother, hrest⟩ := exec_next_of_endAlike (hend s s fun _ _ => rfl) ht
    exact ⟨fun r hr => hother r fun h => hr (h ▸ hrd), hrest⟩
  · obtain ⟨t, t', ht, ht', hst, hinfo, hval⟩ := exec_of_endAlike (hend s s' hsrc)
    refine ⟨t, t', ht, ht', hst, hinfo, fun hcode r hr => ?_⟩
    obtain rfl : rd = r := Option.some.inj (hrd.symm.trans hr)
    exact hval hcode

end Sys2Proof.Machine
end

/-! # Proofs: the polynomial unit (spec/41_coefficient_poly.md) -/

section
namespace Sys2Proof.Machine

open Sys2Proof.Claims

/-! ## Draws -/

/-- The draws cannot be made exactly when too few acceptable words have been answered
(spec/41_coefficient_poly.md R151). -/
theorem takeDraws_eq_none_iff {n : Nat} {raw : List FieldWord} :
    takeDraws n raw = none ↔ (raw.filter canonical).length < n := by
  rw [← Option.not_isSome_iff_eq_none, takeDraws_isSome, not_le]

theorem exists_takeDraws {n : Nat} {raw : List FieldWord} (h : n ≤ (raw.filter canonical).length) :
    ∃ ds left, takeDraws n raw = some (ds, left) := by
  obtain ⟨⟨ds, left⟩, hd⟩ := Option.isSome_iff_exists.mp ((takeDraws_isSome n raw).mpr h)
  exact ⟨ds, left, hd⟩

/-- Draws from a queue of acceptable words, as many as it holds, are the queue. -/
theorem takeDraws_of_canonical {ds : List FieldWord} (h : ∀ d ∈ ds, canonical d = true) :
    takeDraws ds.length ds = some (ds, []) := by
  induction ds with
  | nil => rfl
  | cons d ds ih =>
    obtain ⟨hd, hds⟩ := List.forall_mem_cons.mp h
    simp [takeDraws, hd, ih hds]

/-- Settles O35: the front part is that of takeDraws_ends_accepted. -/
theorem drawsRejectLargeWords : Obligations.DrawsRejectLargeWords := by
  refine fun n raw => ⟨fun ds left h => ?_, takeDraws_eq_none_iff⟩
  obtain ⟨hlen, hcan, -⟩ := takeDraws_some h
  obtain ⟨front, hraw, hds, hend⟩ := takeDraws_ends_accepted h
  refine ⟨hlen, fun d hd => (canonical_iff d).mp (hcan d hd), front, hraw, hds, ?_⟩
  exact hend.imp_right fun ⟨r, hlast, hr⟩ => ⟨r, hlast, (canonical_iff r).mp hr⟩

/-! ## Commands that sample -/

/-- A command whose rule waits leaves the state as it is (spec/41_coefficient_poly.md R153). -/
theorem exec_of_wait {i : Instr} {s : State} (h : ruleOf i s = .error .wait) : exec i s = .next s := by
  rw [exec_eq_finish, h, finish_wait]

section
variable {s : State}

/-- CGEN waits when its checks pass and draws are missing (spec/41_coefficient_poly.md R153, R154). -/
theorem cgenRule_wait {rs1 : Reg} (h2 : 2 ≤ s.kreg.toNat) (hmax : s.kreg.toNat ≤ s.cfg.sMax)
    (hc : canonical (s.readF rs1) = true) (hd : takeDraws (s.kreg.toNat - 1) s.entropy = none) :
    cgenRule rs1 s = .error .wait := by
  have hsample : sample s (s.kreg.toNat - 1) = .error .wait := sample_eq_error.mpr ⟨hd, rfl⟩
  rw [cgenRule, raiseIf_neg (by omega), check_bind_ok, raiseIf_neg (by omega), check_bind_ok,
    fieldOperand_ok hc, check_bind_ok, hsample, check_bind_error]

theorem gather_readSecret {l : Nat} {b : Nat → Byte} (h : ∀ p < l, s.mem.secret.read p = some (b p)) :
    gather (readSecret s) (List.range l) = .ok ((List.range l).map b) :=
  gather_of_ok _ _ _ fun p hp => by rw [readSecret, h p (List.mem_range.mp hp), written_some]

/-- The checks of a SPLIT with 2 <= k <= n and a length, within the capacities (spec/42_split.md R171). -/
theorem checkSplit_passes (hlen : s.len ≠ 0) (h2 : 2 ≤ s.kreg.toNat) (hkn : s.kreg.toNat ≤ s.nreg.toNat)
    (hn : s.nreg.toNat ≤ s.cfg.sMax) (hl : s.len.toNat ≤ s.cfg.lMax) :
    checkSplit s.cfg s.len.toNat s.nreg.toNat s.kreg.toNat = .ok () :=
  checkSplit_eq_ok.mpr
    ⟨fun hz => hlen (BitVec.eq_of_toNat_eq hz), h2.trans hkn, h2, hkn, hn, hl⟩

/-- SPLIT waits when its checks pass, its bytes are written and draws are missing
(spec/41_coefficient_poly.md R153, spec/42_split.md R170). -/
theorem splitRule_wait {b : Nat → Byte}
    (hchecks : checkSplit s.cfg s.len.toNat s.nreg.toNat s.kreg.toNat = .ok ())
    (hb : ∀ p < s.len.toNat, s.mem.secret.read p = some (b p))
    (hd : takeDraws (s.len.toNat * (s.kreg.toNat - 1)) s.entropy = none) :
    splitRule s = .error .wait := by
  have hsample : sample s (s.len.toNat * (s.kreg.toNat - 1)) = .error .wait :=
    sample_eq_error.mpr ⟨hd, rfl⟩
  rw [splitRule, hchecks, check_bind_ok, gather_readSecret hb, check_bind_ok, hsample, check_bind_error]

/-- What SPLIT's rule writes when it is ready (spec/42_split.md R170). -/
theorem splitRule_of_splitReady {b : Nat → Byte} {ds left : List FieldWord} (h : splitReady s b ds left) :
    splitRule s = .ok (((s.setEntropy left).setMem (writeShares s.mem s.nreg.toNat s.len
      (splitPolys (s.kreg.toNat - 1) ((List.range s.len.toNat).map b) ds))).clearPoly) := by
  obtain ⟨hlen, h2, hkn, hn, hl, hb, hd⟩ := h
  exact splitRule_eq_ok.mpr ⟨checkSplit_eq_ok.mp (checkSplit_passes hlen h2 hkn hn hl), _, ds, left,
    gather_readSecret hb, hd, rfl⟩

end

/-- Settles O36: the checks pass, so the draws alone decide between waiting and completing. -/
theorem samplingWaitsForEntropy : Obligations.SamplingWaitsForEntropy := by
  refine ⟨fun s rs1 h2 hmax ha => ?_, fun s hlen h2 hkn hn hl hne => ?_⟩
  · have hc : canonical (s.readF rs1) = true := (canonical_iff _).mpr ha
    refine ⟨fun hfew => exec_of_wait (cgenRule_wait h2 hmax hc (takeDraws_eq_none_iff.mpr hfew)),
      fun henough => ?_⟩
    obtain ⟨ds, left, hd⟩ := exists_takeDraws henough
    exact ⟨_, completes_of_ruleOf (cgenRule_eq_ok.mpr ⟨h2, hmax, hc, ds, left, hd, rfl⟩), rfl⟩
  · have hwritten : ∀ p < s.len.toNat, ∃ v, s.mem.secret.read p = some v :=
      fun p hp => Option.ne_none_iff_exists'.mp (hne p hp)
    choose! b hb using hwritten
    have hchecks := checkSplit_passes hlen h2 hkn hn hl
    refine ⟨fun hfew => exec_of_wait (splitRule_wait hchecks hb (takeDraws_eq_none_iff.mpr hfew)),
      fun henough => ?_⟩
    obtain ⟨ds, left, hd⟩ := exists_takeDraws henough
    exact ⟨_, completes_of_ruleOf (splitRule_of_splitReady ⟨hlen, h2, hkn, hn, hl, hb, hd⟩), rfl⟩

/-! ## CGEN -/

section
variable {s : State} {rs1 : Reg}

theorem cgenRule_raise_low (h : s.kreg.toNat < 2) :
    cgenRule rs1 s = .error (.raise .invalidParameters 3) := by
  rw [cgenRule, raiseIf_pos h, check_bind_error]

theorem cgenRule_raise_high (h2 : 2 ≤ s.kreg.toNat) (h : s.cfg.sMax < s.kreg.toNat) :
    cgenRule rs1 s = .error (.raise .capacity 3) := by
  rw [cgenRule, raiseIf_neg (by omega), check_bind_ok, raiseIf_pos h, check_bind_error]

theorem cgenRule_raise_range (h2 : 2 ≤ s.kreg.toNat) (hmax : s.kreg.toNat ≤ s.cfg.sMax)
    (hc : canonical (s.readF rs1) = false) :
    cgenRule rs1 s = .error (.raise .operandRange (regInfo rs1)) := by
  rw [cgenRule, raiseIf_neg (by omega), check_bind_ok, raiseIf_neg (by omega), check_bind_ok,
    fieldOperand_raise hc, check_bind_error]

end

/-- The constant term and k - 1 draws are k coefficients (spec/41_coefficient_poly.md R154). -/
theorem length_cons_draws {k : Nat} {c : FieldWord} {raw ds left : List FieldWord} (h2 : 2 ≤ k)
    (hd : takeDraws (k - 1) raw = some (ds, left)) : (c :: ds).length = k := by
  obtain ⟨hlen, -⟩ := takeDraws_some hd
  rw [List.length_cons, hlen]
  omega

/-- Settles O37: cgenRule_eq_ok and the three raises; the zeros of setPoly fill what k coefficients leave. -/
theorem cgenRule_holds : Obligations.CgenRule := by
  refine ⟨fun rs1 => ?_, illegalCompletes_all 0x10, fun s rs1 =>
    ⟨fun ds left h2 hmax ha hd => ?_, fun h => raises_of_ruleOf (cgenRule_raise_low h),
      fun h2 h => raises_of_ruleOf (cgenRule_raise_high h2 h),
      fun h2 hmax ha => raises_of_ruleOf (cgenRule_raise_range h2 hmax ((canonical_false_iff _).mpr ha))⟩⟩
  · rw [← assembleWord_eq_wordOf]
    exact decodeOfEncode (.cgen rs1) rfl
  · refine completes_of_ruleOf
      (cgenRule_eq_ok.mpr ⟨h2, hmax, (canonical_iff _).mpr ha, ds, left, hd, ?_⟩)
    rw [State.setPoly, length_cons_draws h2 hd]
    rfl

/-! ## The value of a polynomial -/

theorem powP_modEq (x i : Nat) : powP x i ≡ x ^ i [MOD 257] := Nat.mod_modEq _ _

/-- The sum of powers of the first k coefficients, those beyond the list counting as 0
(spec/41_coefficient_poly.md R155). -/
theorem powerSum_take_modEq (x k i : Nat) (cs : List FieldWord) :
    powerSum x (cs.take k) i ≡ ∑ j ∈ Finset.range k, (cs.getD j 0).toNat * x ^ (i + j) [MOD 257] := by
  induction k generalizing cs i with
  | zero => rfl
  | succ k ih =>
    cases cs with
    | nil => simp [powerSum, Nat.ModEq.refl]
    | cons c cs =>
      have htail := ih (i + 1) cs
      simp only [Nat.add_right_comm i 1] at htail
      rw [Finset.sum_range_succ', add_comm (Finset.sum _ _)]
      exact ((powP_modEq x i).mul_left c.toNat).add htail

/-- The model's value of the first k coefficients is the sum of R155. -/
theorem polyVal_take (x k : Nat) (cs : List FieldWord) :
    polyVal (cs.take k) x = polyValue (fun i => (cs.getD i 0).toNat) k x := by
  have h := powerSum_take_modEq x k 0 cs
  simp only [Nat.zero_add] at h
  exact h

/-- Horner's form computes the power sum (spec/41_coefficient_poly.md R155). -/
theorem powerSum_modEq_horner (x i : Nat) (cs : List FieldWord) :
    powerSum x cs i ≡ horner x cs * x ^ i [MOD 257] := by
  induction cs generalizing i with
  | nil => simp [powerSum, horner, Nat.ModEq.refl]
  | cons c cs ih =>
    calc powerSum x (c :: cs) i
        ≡ c.toNat * x ^ i + horner x cs * x ^ (i + 1) [MOD 257] :=
          ((powP_modEq x i).mul_left c.toNat).add (ih (i + 1))
      _ = (horner x cs * x + c.toNat) * x ^ i := by ring
      _ ≡ horner x (c :: cs) * x ^ i [MOD 257] := ((Nat.mod_modEq _ _).symm).mul_right _

theorem horner_lt (x : Nat) (cs : List FieldWord) : horner x cs < 257 := by
  cases cs with
  | nil => exact Nat.zero_lt_succ _
  | cons c cs => exact Nat.mod_lt _ (by decide)

theorem polyVal_eq_horner (cs : List FieldWord) (x : Nat) : polyVal cs x = horner x cs := by
  have h := powerSum_modEq_horner x 0 cs
  rw [pow_zero, mul_one] at h
  exact Eq.trans h (Nat.mod_eq_of_lt (horner_lt x cs))

/-- Settles O40: the value at 0 is read off Horner's form. -/
theorem polynomialFormsAgree : Obligations.PolynomialFormsAgree := by
  refine fun cs x => ⟨?_, polyVal_eq_horner cs x, fun c rest hcs hc => ?_, rfl⟩
  · rw [← polyVal_take, List.take_length]
  · rw [hcs, polyVal_eq_horner, horner, mul_zero, zero_add, Nat.mod_eq_of_lt (by omega)]

/-! ## PEVAL and PCLR -/

section
variable {s : State} {rd rs1 : Reg}

theorem ruleOf_peval (ha : inRange (s.readF rs1)) : ruleOf (.peval rd rs1) s
    = .ok (s.writeF rd (BitVec.ofNat 9 (polyVal (s.coef.take s.kc.toNat) (s.readF rs1).toNat))) := by
  obtain ⟨hpos, hle⟩ := ha
  refine pevalRule_eq_ok.mpr ⟨(canonical_iff _).mpr hle, fun hz => ?_, rfl⟩
  rw [hz] at hpos
  exact absurd hpos (by decide)

theorem pevalRule_raise_range (ha : canonical (s.readF rs1) = false) :
    pevalRule rd rs1 s = .error (.raise .operandRange (regInfo rs1)) := by
  rw [pevalRule, fieldOperand_raise ha, check_bind_error]

/-- The zero check comes after the range check, which 0 passes (spec/41_coefficient_poly.md R156). -/
theorem pevalRule_raise_zero (hz : s.readF rs1 = 0) :
    pevalRule rd rs1 s = .error (.raise .invalidParameters 5) := by
  have hrange : canonical (s.readF rs1) = true := by rw [hz]; rfl
  rw [pevalRule, fieldOperand_ok hrange, check_bind_ok, raiseIf_pos hz, check_bind_error]

/-- PEVAL writes F[rd] alone or raises (spec/41_coefficient_poly.md R156). -/
theorem pevalRule_endAlike : endAlike rd s s (pevalRule rd rs1 s) (pevalRule rd rs1 s) := by
  cases ha : canonical (s.readF rs1) with
  | false => exact .inr ⟨_, _, pevalRule_raise_range ha, pevalRule_raise_range ha⟩
  | true =>
    by_cases hz : s.readF rs1 = 0
    · exact .inr ⟨_, _, pevalRule_raise_zero hz, pevalRule_raise_zero hz⟩
    · have hok := (pevalRule_eq_ok (rd := rd)).mpr ⟨ha, hz, rfl⟩
      exact .inl ⟨_, hok, hok⟩

end

/-- Settles O38: the value is polyVal_take's sum, and the two raises exclude each other. -/
theorem pevalRule_holds : Obligations.PevalRule := by
  refine ⟨fun rd rs1 => ?_, illegalCompletes_all 0x11, fun s rd rs1 =>
    ⟨fun ha => ?_, fun ha => raises_of_ruleOf (pevalRule_raise_range ((canonical_false_iff _).mpr ha)),
      fun hz => raises_of_ruleOf (pevalRule_raise_zero hz)⟩⟩
  · rw [← assembleWord_eq_wordOf]
    exact decodeOfEncode (.peval rd rs1) rfl
  · rw [← polyVal_take]
    exact completes_of_ruleOf (ruleOf_peval ha)

/-- Settles O39: PCLR has no check, and no coefficients give 0. -/
theorem pclrRule : Obligations.PclrRule := by
  have hclears : ∀ s : State, completes .pclr s s.clearPoly := fun s => completes_of_ruleOf rfl
  refine ⟨?_, illegalCompletes_all 0x12, hclears, fun s rd rs1 ha => ?_⟩
  · rw [← assembleWord_eq_wordOf]
    exact decodeOfEncode .pclr rfl
  · refine ⟨_, _, hclears s, completes_of_ruleOf (ruleOf_peval ha), ?_⟩
    exact State.readF_writeF_same _ rd _

/-! ## Frames -/

/-- Settles O41: CGEN by the three ways a command ends, PEVAL by its one written register, PCLR by its rule. -/
theorem polynomialCommandFrames : Obligations.PolynomialCommandFrames := by
  refine ⟨fun s t rs1 ht => ?_, fun s t rd rs1 ht => ?_, fun s t ht => ?_⟩
  · rcases exec_next ht with ⟨u, hu, rfl⟩ | ⟨c, info, -, rfl⟩ | ⟨-, rfl⟩
    · obtain ⟨-, -, -, ds, left, -, rfl⟩ := cgenRule_eq_ok.mp hu
      exact ⟨rfl, rfl, rfl, ⟨rfl, rfl, rfl, rfl, rfl, rfl, rfl, rfl⟩,
        .inr ⟨completionFields_complete .., fun hcode => absurd rfl hcode⟩⟩
    · exact ⟨rfl, rfl, rfl, ⟨rfl, rfl, rfl, rfl, rfl, rfl, rfl, rfl⟩,
        .inr ⟨completionFields_complete .., fun _ => ⟨rfl, rfl, rfl⟩⟩⟩
    · exact ⟨rfl, rfl, rfl, ⟨rfl, rfl, rfl, rfl, rfl, rfl, rfl, rfl⟩, .inl rfl⟩
  · obtain ⟨hother, hf, hfields, hsame, hlen, hmem, hcoef, hkc, hent⟩ :=
      exec_next_of_endAlike pevalRule_endAlike ht
    exact ⟨hother, hf, hmem, hlen, hsame, hcoef, hkc, hent, hfields⟩
  · cases ht
    exact ⟨rfl, rfl, rfl, ⟨rfl, rfl, rfl, rfl, rfl, rfl, rfl, rfl⟩, rfl,
      completionFields_complete s.clearPoly .ok 0, rfl⟩

/-! ## CGEN and PEVAL against SPLIT -/

/-- A stored polynomial of k coefficients is read back by PEVAL's first KC coefficients
(spec/10_state.md R40, spec/41_coefficient_poly.md R156). -/
theorem State.take_coef_setPoly (s : State) {cs : List FieldWord} {k : FieldWord} (h : cs.length = k.toNat) :
    (s.setPoly cs k).coef.take k.toNat = cs := by
  rw [State.setPoly_coef, List.take_left' h]

/-- CGEN and then PEVAL at x: F[rd] is the value at x of the constant term followed by the draws
(spec/41_coefficient_poly.md R154, R156). -/
theorem exec_cgen_peval {g : State} {rc rx rd : Reg} {ds left : List FieldWord} (h2 : 2 ≤ g.kreg.toNat)
    (hmax : g.kreg.toNat ≤ g.cfg.sMax) (hc : canonical (g.readF rc) = true) (hx : inRange (g.readF rx))
    (hd : takeDraws (g.kreg.toNat - 1) g.entropy = some (ds, left)) :
    ∃ u v, exec (.cgen rc) g = .next u ∧ exec (.peval rd rx) u = .next v
      ∧ v.readF rd = BitVec.ofNat 9 (polyVal (g.readF rc :: ds) (g.readF rx).toNat) := by
  have hgen := completes_of_ruleOf (i := .cgen rc) (cgenRule_eq_ok.mpr ⟨h2, hmax, hc, ds, left, hd, rfl⟩)
  have hcoef := (g.setEntropy left).take_coef_setPoly (length_cons_draws (c := g.readF rc) h2 hd)
  refine ⟨_, _, hgen, completes_of_ruleOf (ruleOf_peval hx), (State.readF_writeF_same _ rd _).trans ?_⟩
  exact congrArg (fun cs => BitVec.ofNat 9 (polyVal cs (g.readF rx).toNat)) hcoef

/-- What a ready SPLIT leaves in Y[i][p]: the value at i + 1 of the polynomial of byte p
(spec/42_split.md R170). -/
theorem split_writes_share {s t : State} {b : Nat → Byte} {ds left : List FieldWord} {i p : Nat}
    (h : splitReady s b ds left) (ht : exec .split s = .next t) (hi : i < s.nreg.toNat)
    (hp : p < s.len.toNat) :
    t.mem.y.read (yKey i p) = some (BitVec.ofNat 9 (polyVal
      ((b p).setWidth 9 :: (ds.drop (p * (s.kreg.toNat - 1))).take (s.kreg.toNat - 1)) (i + 1))) := by
  have hend := completes_of_ruleOf (i := .split) (splitRule_of_splitReady h)
  obtain rfl := Host.Outcome.next.inj (ht.symm.trans hend)
  have hl : s.len.toNat < 65536 := s.len.isLt
  refine (writeShares_y _ _ _ _ (by rw [splitPolys_length, List.length_map, List.length_range]; omega)
    (by omega)).trans ?_
  have hpoly := splitPolys_getElem (s.kreg.toNat - 1) ((List.range s.len.toNat).map b) ds (p := p)
    (by simpa using hp)
  simp [hi, hp, shareValues, hpoly]

/-- The draws of position p are k - 1 of the L * (k - 1) draws (spec/41_coefficient_poly.md R152). -/
theorem length_lane_draws {l d p : Nat} {ds : List FieldWord} (hds : ds.length = l * d) (hp : p < l) :
    ((ds.drop (p * d)).take d).length = d := by
  have hfit : (p + 1) * d ≤ l * d := Nat.mul_le_mul_right d hp
  rw [Nat.add_mul, one_mul] at hfit
  rw [List.length_take, List.length_drop, hds]
  omega

/-- Settles O47: both are the value at x of the byte followed by the draws of position p. -/
theorem pevalMatchesSplit : Obligations.PevalMatchesSplit := by
  intro s b ds left t g rc rx rd p x hready ht hp hx1 hxn hcfg hkreg hrc hrx hent
  have hshare := split_writes_share hready ht (i := x - 1) (by omega) hp
  obtain ⟨-, h2, hkn, hn, -, -, hd⟩ := hready
  obtain ⟨hlen, hcan, -⟩ := takeDraws_some hd
  have hdraws : takeDraws (g.kreg.toNat - 1) g.entropy = some (g.entropy, []) := by
    have hall : ∀ d ∈ g.entropy, canonical d = true := fun d hdmem => by
      rw [hent] at hdmem
      exact hcan d (List.mem_of_mem_drop (List.mem_of_mem_take hdmem))
    rw [← takeDraws_of_canonical hall, hent, length_lane_draws hlen hp, hkreg]
  have hx256 : x ≤ 256 := (hxn.trans hn).trans s.cfg.sMax_legal.2
  have hxval : (g.readF rx).toNat = x := by rw [hrx, toNat_ofNat_field (by omega)]
  have hbyte : canonical (g.readF rc) = true := by
    rw [hrc, canonical_iff, BitVec.toNat_setWidth]
    omega
  obtain ⟨u, v, hu, hv, hval⟩ := exec_cgen_peval (rx := rx) (rd := rd) (hkreg ▸ h2)
    (by rw [hkreg, hcfg]; exact hkn.trans hn) hbyte ⟨by omega, by omega⟩ hdraws
  refine ⟨u, v, hu, hv, ?_⟩
  rw [hval, hshare, hrc, hent, hxval, Nat.sub_add_cancel hx1]

end Sys2Proof.Machine
end

/-! # Proofs: the split pipeline (spec/42_split.md) -/

section
namespace Sys2Proof.Machine

open Sys2Proof.Claims

/-! ## The arrays after a SPLIT -/

section
variable {n : Nat} {polys : List (List FieldWord)} {e : Elem}

/-- Elements of the block outside X, SLEN and Y of the shares keep what they hold (spec/42_split.md R172). -/
theorem writeShares_read_other {cfg : Params} (m : Memory) (len : BitVec 16) (hl : polys.length ≤ 65536)
    (he : e.mapped cfg = true) (hw : ¬ splitWrites n polys.length e) :
    (writeShares m n len polys).read e = m.read e := by
  cases e with
  | x i => exact congrArg (Option.map _) ((writeShares_x ..).trans (if_neg hw))
  | slen i => exact congrArg (Option.map _) ((writeShares_slen ..).trans (if_neg hw))
  | w i => rfl
  | secret p => rfl
  | y i p => exact congrArg (Option.map _) ((writeShares_y _ _ _ _ hl (Elem.mapped_y he).2).trans (if_neg hw))

/-- Every element of the shares is written (spec/42_split.md R172). -/
theorem writeShares_read_ne_none (m : Memory) (len : BitVec 16) (hl : polys.length ≤ 65536)
    (hw : splitWrites n polys.length e) : (writeShares m n len polys).read e ≠ none := by
  cases e with
  | x i =>
    have hi : i < n := hw
    simp [Memory.read, writeShares_x, hi]
  | slen i =>
    have hi : i < n := hw
    simp [Memory.read, writeShares_slen, hi]
  | w i => exact hw.elim
  | secret p => exact hw.elim
  | y i p =>
    obtain ⟨hi, hp⟩ := hw
    simp [Memory.read, writeShares_y _ _ _ _ hl (hp.trans_le hl), hi, hp]

end

/-- The arrays that a SPLIT of the bytes b with the draws ds leaves (spec/42_split.md R170). -/
def splitMemory (s : State) (b : Nat → Byte) (ds : List FieldWord) : Memory :=
  writeShares s.mem s.nreg.toNat s.len
    (splitPolys (s.kreg.toNat - 1) ((List.range s.len.toNat).map b) ds)

/-- There is one polynomial for each secret byte (spec/42_split.md R174). -/
theorem length_lanes (s : State) (b : Nat → Byte) (ds : List FieldWord) :
    (splitPolys (s.kreg.toNat - 1) ((List.range s.len.toNat).map b) ds).length = s.len.toNat := by simp

theorem splitMemory_read_other {s : State} {b : Nat → Byte} {ds : List FieldWord} {e : Elem}
    (he : e.mapped s.cfg = true) (hw : ¬ splitWrites s.nreg.toNat s.len.toNat e) :
    (splitMemory s b ds).read e = s.mem.read e := by
  have hl := length_lanes s b ds
  exact writeShares_read_other _ _ (by omega) he (hl.symm ▸ hw)

theorem splitMemory_read_ne_none {s : State} {b : Nat → Byte} {ds : List FieldWord} {e : Elem}
    (hw : splitWrites s.nreg.toNat s.len.toNat e) : (splitMemory s b ds).read e ≠ none := by
  have hl := length_lanes s b ds
  exact writeShares_read_ne_none _ _ (by omega) (hl.symm ▸ hw)

/-! ## How a SPLIT ends -/

/-- What SPLIT has written before it completes: the shares, the discarded polynomial, and the raw words behind its
draws (spec/42_split.md R170, log 3). -/
def splitResult (s : State) (b : Nat → Byte) (ds left : List FieldWord) : State :=
  { s with mem := splitMemory s b ds, coef := List.replicate s.cfg.sMax 0, kc := 0, entropy := left }

section
variable {s t : State} {b : Nat → Byte} {ds left : List FieldWord}

/-- A ready SPLIT completes with the shares in place and the polynomial discarded (spec/42_split.md R170). -/
theorem split_completes (h : splitReady s b ds left) : completes .split s (splitResult s b ds left) :=
  completes_of_ruleOf (splitRule_of_splitReady h)

/-- A SPLIT whose rule gets through was ready (spec/42_split.md R170, R171). -/
theorem splitReady_of_splitRule {u : State} (h : splitRule s = .ok u) :
    ∃ b ds left, splitReady s b ds left := by
  obtain ⟨⟨hlen, -, h2, hkn, hn, hl⟩, bs, ds, left, hb, hd, -⟩ := splitRule_eq_ok.mp h
  obtain ⟨hbs, hget⟩ := gather_range_eq_ok hb
  refine ⟨fun p => bs.getD p 0, ds, left, fun hz => hlen (by rw [hz]; rfl), h2, hkn, hn, hl,
    fun p hp => ?_, hd⟩
  have hread := hget p (by omega)
  rw [readSecret, written_eq_ok] at hread
  rw [hread, ← List.getD_eq_getElem bs 0]

/-- A SPLIT that takes a next state was ready and completed, or raised, or waits
(spec/41_coefficient_poly.md R153, spec/42_split.md R172). -/
theorem exec_split_next (h : exec .split s = .next t) :
    (∃ b ds left, splitReady s b ds left ∧ t = okState (splitResult s b ds left))
      ∨ (∃ c info, c ≠ .ok ∧ t = raisedState s c info) ∨ t = s := by
  rcases exec_next h with ⟨u, hu, -⟩ | ⟨c, info, hraise, rfl⟩ | ⟨-, rfl⟩
  · obtain ⟨b, ds, left, hready⟩ := splitReady_of_splitRule hu
    exact .inl ⟨b, ds, left, hready, Host.Outcome.next.inj (h.symm.trans (split_completes hready))⟩
  · have hc := ruleOf_raise_ne_ok hraise
    exact .inr (.inl ⟨c, info, hc, State.complete_eq_raisedState hc s info⟩)
  · exact .inr (.inr rfl)

/-- A raise does not leave the STATUS of a completion with OK (spec/60_exceptions.md R224). -/
theorem raisedState_status_ne_ok (s : State) (c : Code) (info : Word) :
    (raisedState s c info).status ≠ okStatus := by
  intro h
  cases congrArg Status.err h

/-- A pending SPLIT that ends with OK was ready, and t is its completion (spec/42_split.md R170). -/
theorem exec_split_ok (hb : s.status.busy = true) (h : exec .split s = .next t) (hok : t.status = okStatus) :
    ∃ b ds left, splitReady s b ds left ∧ t = okState (splitResult s b ds left) := by
  rcases exec_split_next h with hready | ⟨c, info, -, rfl⟩ | rfl
  · exact hready
  · exact absurd hok (raisedState_status_ne_ok s c info)
  · rw [hok] at hb
    cases hb

end

/-! ## The errors of SPLIT -/

/-- A check that passes leaves the rest of the rule (spec/00_scope.md R13). -/
theorem raiseIf_bind_of_not {α : Type} {p : Prop} [Decidable p] (h : ¬p) (c : Code) (info : Word)
    (f : Unit → Check α) : raiseIf p c info >>= f = f () := by
  rw [raiseIf_neg h, check_bind_ok]

/-- A check that fails ends the rule (spec/00_scope.md R13). -/
theorem raiseIf_bind_of {α : Type} {p : Prop} [Decidable p] (h : p) (c : Code) (info : Word)
    (f : Unit → Check α) : raiseIf p c info >>= f = .error (.raise c info) := by
  rw [raiseIf_pos h, check_bind_error]

/-- The checks of SPLIT, in the order of R171. -/
theorem checkSplit_raises (cfg : Params) (l n k : Nat) :
    (l = 0 → checkSplit cfg l n k = .error (.raise .invalidParameters 1))
      ∧ (l ≠ 0 → n < 2 → checkSplit cfg l n k = .error (.raise .invalidParameters 2))
      ∧ (l ≠ 0 → 2 ≤ n → k < 2 → checkSplit cfg l n k = .error (.raise .invalidParameters 3))
      ∧ (l ≠ 0 → 2 ≤ n → 2 ≤ k → n < k → checkSplit cfg l n k = .error (.raise .invalidParameters 4))
      ∧ (l ≠ 0 → 2 ≤ k → k ≤ n → cfg.sMax < n → checkSplit cfg l n k = .error (.raise .capacity 1))
      ∧ (l ≠ 0 → 2 ≤ k → k ≤ n → n ≤ cfg.sMax → cfg.lMax < l →
        checkSplit cfg l n k = .error (.raise .capacity 2)) := by
  unfold checkSplit
  refine ⟨fun h1 => ?_, fun h1 h2 => ?_, fun h1 h2 h3 => ?_, fun h1 h2 h3 h4 => ?_, fun h1 h3 h4 h5 => ?_,
    fun h1 h3 h4 h5 h6 => ?_⟩
  · rw [raiseIf_bind_of h1]
  · rw [raiseIf_bind_of_not h1, raiseIf_bind_of h2]
  · rw [raiseIf_bind_of_not h1, raiseIf_bind_of_not (by omega), raiseIf_bind_of h3]
  · rw [raiseIf_bind_of_not h1, raiseIf_bind_of_not (by omega), raiseIf_bind_of_not (by omega),
      raiseIf_bind_of h4]
  · rw [raiseIf_bind_of_not h1, raiseIf_bind_of_not (by omega), raiseIf_bind_of_not (by omega),
      raiseIf_bind_of_not (by omega), raiseIf_bind_of h5]
  · rw [raiseIf_bind_of_not h1, raiseIf_bind_of_not (by omega), raiseIf_bind_of_not (by omega),
      raiseIf_bind_of_not (by omega), raiseIf_bind_of_not (by omega), raiseIf_pos h6]

section
variable {s : State}

/-- A failing check ends SPLIT before any read (spec/42_split.md R170, R171). -/
theorem split_raises {c : Code} {info : Word}
    (h : checkSplit s.cfg s.len.toNat s.nreg.toNat s.kreg.toNat = .error (.raise c info)) :
    raises .split s c info := by
  have hrule : splitRule s = .error (.raise c info) := by rw [splitRule, h, check_bind_error]
  exact raises_of_ruleOf hrule

/-- SPLIT faults at the first secret byte that nothing has written (spec/10_state.md R41, log 10). -/
theorem splitRule_fault {p : Nat}
    (hchecks : checkSplit s.cfg s.len.toNat s.nreg.toNat s.kreg.toNat = .ok ()) (hp : p < s.len.toNat)
    (hbefore : ∀ q < p, s.mem.secret.read q ≠ none) (hnone : s.mem.secret.read p = none) :
    splitRule s = .error (.fault (.unwritten (.secret p))) := by
  have hreads : gather (readSecret s) (List.range s.len.toNat) = .error (.fault (.unwritten (.secret p))) := by
    refine gather_range_error hp (fun q hq => ?_) (by rw [readSecret, hnone, written_none])
    obtain ⟨v, hv⟩ := Option.ne_none_iff_exists'.mp (hbefore q hq)
    exact ⟨v, by rw [readSecret, hv, written_some]⟩
  rw [splitRule, hchecks, check_bind_ok, hreads, check_bind_error]

end

/-! ## The lanes -/

/-- The coefficient list of position p is lanePoly: its byte, then its k - 1 draws (spec/42_split.md R170). -/
theorem polyVal_lane {k : Nat} (hk : 2 ≤ k) (b : Nat → Byte) (ds : List FieldWord) (p x : Nat) :
    polyVal ((b p).setWidth 9 :: (ds.drop (p * (k - 1))).take (k - 1)) x
      = polyValue (lanePoly k b ds p) k x := by
  obtain ⟨d, rfl⟩ : ∃ d, k = d + 1 := ⟨k - 1, by omega⟩
  have hcoef : ∀ i, (((b p).setWidth 9 :: ds.drop (p * d)).getD i 0).toNat = lanePoly (d + 1) b ds p i := by
    intro i
    cases i with
    | zero => exact BitVec.toNat_setWidth_of_le (by decide : 8 ≤ 9)
    | succ i => simp [lanePoly, List.getD_eq_getElem?_getD]
  rw [Nat.add_sub_cancel, ← List.take_succ_cons, polyVal_take]
  simp only [hcoef]

/-- A ready SPLIT leaves in Y[i][p] the value at i + 1 of the polynomial of position p (spec/42_split.md R170). -/
theorem split_writes_lane {s t : State} {b : Nat → Byte} {ds left : List FieldWord} {i p : Nat}
    (h : splitReady s b ds left) (ht : exec .split s = .next t) (hi : i < s.nreg.toNat)
    (hp : p < s.len.toNat) : t.mem.y.read (yKey i p) = some (BitVec.ofNat 9
      (polyValue (lanePoly s.kreg.toNat b ds p) s.kreg.toNat (i + 1))) := by
  rw [split_writes_share h ht hi hp]
  obtain ⟨-, h2, -⟩ := h
  rw [polyVal_lane h2]

/-- Polynomials with the same first k coefficients have the same value (spec/41_coefficient_poly.md R155). -/
theorem polyValue_congr {c c' : Nat → Nat} {k : Nat} (h : ∀ i < k, c i = c' i) (x : Nat) :
    polyValue c k x = polyValue c' k x := by
  rw [polyValue, polyValue, Finset.sum_congr rfl fun i hi => by rw [h i (Finset.mem_range.mp hi)]]

/-! ## The obligations -/

/-- Settles O42: completion by splitMemory, the fault by the reads and the raises by the checks. -/
theorem splitRule_holds : Obligations.SplitRule := by
  refine ⟨?_, illegalCompletes_all 0x20, fun s b ds left h => ?_,
    fun s p hlen h2 hkn hn hl hp hbefore hnone => ?_, fun s => ?_⟩
  · rw [← assembleWord_eq_wordOf]
    exact decodeOfEncode .split rfl
  · refine ⟨splitMemory s b ds, split_completes h, fun i hi => ⟨?_, ?_, fun p hp => ?_⟩,
      fun e => splitMemory_read_other⟩
    · rw [splitMemory, writeShares_x, if_pos hi]
    · rw [splitMemory, writeShares_slen, if_pos hi]
    · exact split_writes_lane h (split_completes h) hi hp
  · have hchecks := checkSplit_passes hlen h2 hkn hn hl
    rw [exec_eq_finish]
    exact finish_eq_fault.mpr (splitRule_fault hchecks hp hbefore hnone)
  · obtain ⟨h1, h2, h3, h4, h5, h6⟩ := checkSplit_raises s.cfg s.len.toNat s.nreg.toNat s.kreg.toNat
    exact ⟨fun a => split_raises (h1 a), fun a b => split_raises (h2 a b),
      fun a b c => split_raises (h3 a b c), fun a b c d => split_raises (h4 a b c d),
      fun a b c d => split_raises (h5 a b c d), fun a b c d e => split_raises (h6 a b c d e)⟩

/-- Settles O43: the three ends of exec_split_next. -/
theorem splitFrame : Obligations.SplitFrame := by
  intro s t ht
  rcases exec_split_next ht with ⟨b, ds, left, -, rfl⟩ | ⟨c, info, hc, rfl⟩ | rfl
  · exact ⟨rfl, rfl, ⟨rfl, rfl, rfl, rfl, rfl, rfl, rfl, rfl⟩, fun e => splitMemory_read_other,
      .inr (.inr ⟨completionFields_complete _ .ok 0, rfl, fun e => splitMemory_read_ne_none⟩)⟩
  · exact ⟨rfl, rfl, ⟨rfl, rfl, rfl, rfl, rfl, rfl, rfl, rfl⟩, fun _ _ _ => rfl,
      .inr (.inl ⟨c, info, hc, rfl⟩)⟩
  · exact ⟨rfl, rfl, ⟨rfl, rfl, rfl, rfl, rfl, rfl, rfl, rfl⟩, fun _ _ _ => rfl, .inl rfl⟩

/-- Settles O44: X[i] holds i + 1, which the capacity of at most 256 slots keeps below 257. -/
theorem splitIndexBounds : Obligations.SplitIndexBounds := by
  intro s t hb ht hok
  obtain ⟨b, ds, left, ⟨-, -, -, hn, -⟩, rfl⟩ := exec_split_ok hb ht hok
  have hmax : s.nreg.toNat ≤ 256 := hn.trans s.cfg.sMax_legal.2
  refine ⟨hmax, fun i hi => ⟨BitVec.ofNat 9 (i + 1), ?_, ?_⟩⟩
  · exact (writeShares_x ..).trans (if_pos hi)
  · rw [toNat_ofNat_field (by omega)]
    omega

/-- Settles O45: the draws of takeDraws_ends_accepted, at least one because L and k - 1 are not 0. -/
theorem splitDrawsAndDiscards : Obligations.SplitDrawsAndDiscards := by
  intro s t hb ht hok
  obtain ⟨b, ds, left, ⟨hlen, h2, -, -, -, -, hd⟩, rfl⟩ := exec_split_ok hb ht hok
  obtain ⟨hcount, -⟩ := takeDraws_some hd
  obtain ⟨front, hraw, rfl, hend⟩ := takeDraws_ends_accepted hd
  refine ⟨⟨front, hraw, hcount, hend.resolve_left ?_⟩, rfl, rfl⟩
  rintro rfl
  have hl : s.len.toNat ≠ 0 := fun hz => hlen (BitVec.eq_of_toNat_eq hz)
  have hpos : 0 < s.len.toNat * (s.kreg.toNat - 1) := Nat.mul_pos (by omega) (by omega)
  exact hpos.ne hcount

/-- Settles O46: both values are those of polynomials with the same k coefficients. -/
theorem splitLanesAreIndependent : Obligations.SplitLanesAreIndependent := by
  intro s s' b b' ds ds' left left' t t' i p h h' ht ht' hk hp hp' hi hi' hbyte hdraws
  have hlane : ∀ j < s.kreg.toNat, lanePoly s.kreg.toNat b ds p j = lanePoly s.kreg.toNat b' ds' p j := by
    intro j hj
    cases j with
    | zero => exact congrArg BitVec.toNat hbyte
    | succ j => exact congrArg BitVec.toNat (hdraws j (by omega))
  rw [split_writes_lane h ht hi hp, split_writes_lane h' ht' hi' hp', ← hk, polyValue_congr hlane]

end Sys2Proof.Machine
end

/-! # Proofs: what each command can raise (spec/60_exceptions.md R220, R226) -/

section
namespace Sys2Proof.Machine

/-! ## The codes of a part of a command -/

/-- If this part of a command raises, it raises one of the codes (spec/60_exceptions.md R226). -/
def RaisesOnly {α : Type} (codes : List Code) (part : Check α) : Prop :=
  ∀ c info, part = .error (.raise c info) → c ∈ codes

namespace RaisesOnly

section
variable {α β : Type} {codes : List Code}

theorem ok (a : α) : RaisesOnly codes (.ok a) := nofun

theorem raise {c : Code} {info : Word} (hc : c ∈ codes) :
    RaisesOnly codes (.error (.raise c info) : Check α) := by
  intro c' info' h
  cases h
  exact hc

theorem bind {x : Check α} {f : α → Check β} (hx : RaisesOnly codes x)
    (hf : ∀ a, RaisesOnly codes (f a)) : RaisesOnly codes (x >>= f) := by
  intro c info h
  rcases check_bind_eq_error.mp h with h | ⟨a, -, h⟩
  · exact hx c info h
  · exact hf a c info h

theorem raiseIf {p : Prop} [Decidable p] {c : Code} {info : Word} (hc : c ∈ codes) :
    RaisesOnly codes (raiseIf p c info) := by
  intro c' info' h
  obtain ⟨-, h⟩ := raiseIf_eq_error.mp h
  cases h
  exact hc

theorem written (e : Elem) (o : Option α) : RaisesOnly codes (written e o) := by
  cases o <;> nofun

theorem gather {g : Nat → Check α} (hg : ∀ i, RaisesOnly codes (g i)) (is : List Nat) :
    RaisesOnly codes (gather g is) := by
  intro c info h
  obtain ⟨i, -, hi⟩ := gather_eq_error h
  exact hg i c info hi

/-! ## The shared operands and checks -/

theorem fieldOperand (hc : .operandRange ∈ codes) (s : State) (r : Reg) :
    RaisesOnly codes (fieldOperand s r) :=
  .bind (.raiseIf hc) fun _ => .ok _

theorem sample (s : State) (n : Nat) : RaisesOnly codes (sample s n) := by
  intro c info h
  cases (sample_eq_error.mp h).2

theorem checkCount (h0 : .emptyShareSet ∈ codes) (h1 : .capacity ∈ codes) (cfg : Params) (m : Nat) :
    RaisesOnly codes (checkCount cfg m) :=
  .bind (.raiseIf h0) fun _ => .raiseIf h1

theorem checkDistinct (hc : .duplicateShareIndex ∈ codes) (xs : List FieldWord) :
    RaisesOnly codes (checkDistinct xs) := by
  unfold Machine.checkDistinct
  split
  · exact .raise hc
  · exact .ok _

theorem checkX (h0 : .indexRange ∈ codes) (h1 : .duplicateShareIndex ∈ codes) (s : State) (m : Nat) :
    RaisesOnly codes (checkX s m) := by
  have hslot : ∀ i, RaisesOnly codes (checkedX s i) := fun i =>
    .bind (.written _ _) fun _ => .bind (.raiseIf h0) fun _ => .ok _
  exact .bind (.gather hslot _) fun xs => .bind (.checkDistinct h1 xs) fun _ => .ok _

theorem checkLen (h0 : .inconsistentShares ∈ codes) (h1 : .capacity ∈ codes) (s : State) (m : Nat) :
    RaisesOnly codes (checkLen s m) := by
  have hslot : ∀ l i, RaisesOnly codes (checkedSlen s l i) := fun l i =>
    .bind (.written _ _) fun _ => .bind (.raiseIf h0) fun _ => .ok _
  exact .bind (.written _ _) fun l => .bind (.gather (hslot l) _) fun _ =>
    .bind (.raiseIf h1) fun _ => .ok _

theorem checkY (hc : .operandRange ∈ codes) (s : State) (m l : Nat) : RaisesOnly codes (checkY s m l) := by
  have hvalue : ∀ i p, RaisesOnly codes (checkedY s i p) := fun i p =>
    .bind (.written _ _) fun _ => .bind (.raiseIf hc) fun _ => .ok _
  exact .gather (fun i => .gather (hvalue i) _) _

theorem checkSplit (h0 : .invalidParameters ∈ codes) (h1 : .capacity ∈ codes) (cfg : Params) (l n k : Nat) :
    RaisesOnly codes (checkSplit cfg l n k) :=
  .bind (.raiseIf h0) fun _ => .bind (.raiseIf h0) fun _ => .bind (.raiseIf h0) fun _ =>
    .bind (.raiseIf h0) fun _ => .bind (.raiseIf h1) fun _ => .raiseIf h1

/-! ## The rules -/

theorem binaryFieldRule (op : Nat → Nat → Nat) (rd rs1 rs2 : Reg) (s : State) :
    RaisesOnly [.operandRange] (binaryFieldRule op rd rs1 rs2 s) :=
  .bind (.fieldOperand (by decide) s rs1) fun _ => .bind (.fieldOperand (by decide) s rs2) fun _ => .ok _

theorem finvRule (rd rs1 : Reg) (s : State) :
    RaisesOnly [.divisionByZero, .operandRange] (finvRule rd rs1 s) :=
  .bind (.fieldOperand (by decide) s rs1) fun _ => .bind (.raiseIf (by decide)) fun _ => .ok _

theorem cgenRule (rs1 : Reg) (s : State) :
    RaisesOnly [.invalidParameters, .operandRange, .capacity] (cgenRule rs1 s) :=
  .bind (.raiseIf (by decide)) fun _ => .bind (.raiseIf (by decide)) fun _ =>
    .bind (.fieldOperand (by decide) s rs1) fun _ => .bind (.sample s _) fun _ => .ok _

theorem pevalRule (rd rs1 : Reg) (s : State) :
    RaisesOnly [.invalidParameters, .operandRange] (pevalRule rd rs1 s) :=
  .bind (.fieldOperand (by decide) s rs1) fun _ => .bind (.raiseIf (by decide)) fun _ => .ok _

theorem lbasisRule (s : State) :
    RaisesOnly [.duplicateShareIndex, .emptyShareSet, .indexRange, .capacity] (lbasisRule s) :=
  .bind (.checkCount (by decide) (by decide) _ _) fun _ =>
    .bind (.checkX (by decide) (by decide) s _) fun _ => .ok _

theorem splitRule (s : State) : RaisesOnly [.invalidParameters, .capacity] (splitRule s) :=
  .bind (.checkSplit (by decide) (by decide) _ _ _ _) fun _ =>
    .bind (.gather (fun _ => .written _ _) _) fun _ => .bind (.sample s _) fun _ => .ok _

theorem reconRule (s : State) :
    RaisesOnly [.inconsistentShares, .duplicateShareIndex, .emptyShareSet, .operandRange, .indexRange,
      .capacity] (reconRule s) :=
  .bind (.checkCount (by decide) (by decide) _ _) fun _ =>
    .bind (.checkLen (by decide) (by decide) s _) fun l =>
    .bind (.checkX (by decide) (by decide) s _) fun _ =>
    .bind (.checkY (by decide) s _ l.toNat) fun _ => .ok _

end

end RaisesOnly

/-! ## The codes of a command -/

/-- The codes that each command can raise (spec/60_exceptions.md R226). -/
def raisedCodes : Instr → List Code
  | .fadd _ _ _ | .fsub _ _ _ | .fmul _ _ _ | .fpow _ _ _ => [.operandRange]
  | .finv _ _ => [.divisionByZero, .operandRange]
  | .fldi _ _ | .pclr => []
  | .cgen _ => [.invalidParameters, .operandRange, .capacity]
  | .peval _ _ => [.invalidParameters, .operandRange]
  | .split => [.invalidParameters, .capacity]
  | .lbasis => [.duplicateShareIndex, .emptyShareSet, .indexRange, .capacity]
  | .recon =>
    [.inconsistentShares, .duplicateShareIndex, .emptyShareSet, .operandRange, .indexRange, .capacity]

/-- A command raises nothing but its codes (spec/60_exceptions.md R226). -/
theorem ruleOf_raisesOnly (i : Instr) (s : State) : RaisesOnly (raisedCodes i) (ruleOf i s) := by
  cases i with
  | fadd rd rs1 rs2 | fsub rd rs1 rs2 | fmul rd rs1 rs2 | fpow rd rs1 rs2 =>
    exact .binaryFieldRule _ rd rs1 rs2 s
  | finv rd rs1 => exact .finvRule rd rs1 s
  | fldi | pclr => exact .ok _
  | cgen rs1 => exact .cgenRule rs1 s
  | peval rd rs1 => exact .pevalRule rd rs1 s
  | lbasis => exact .lbasisRule s
  | split => exact .splitRule s
  | recon => exact .reconRule s

/-- FINV alone has DIVISION_BY_ZERO among its codes (spec/43_lagrange_basis.md R191). -/
theorem eq_finv_of_divisionByZero_mem {i : Instr} (h : .divisionByZero ∈ raisedCodes i) :
    ∃ rd rs1, i = .finv rd rs1 := by
  cases i with
  | finv rd rs1 => exact ⟨rd, rs1, rfl⟩
  | _ => simp [raisedCodes] at h

/-- CODE is 2 after a completion with DIVISION_BY_ZERO and after no other (spec/60_exceptions.md R220). -/
theorem State.complete_code_eq_two_iff {s : State} {c : Code} {info : Word} :
    (s.complete c info).status.code = 2 ↔ c = .divisionByZero := by
  rw [State.complete_status, Status.completed]
  cases c <;> decide

/-- Settles O53: a completion that sets CODE to 2 is a raise of DIVISION_BY_ZERO, which only FINV makes. -/
theorem onlyFinvDividesByZero : Obligations.OnlyFinvDividesByZero := by
  intro i s t ht hbefore hcode
  rcases exec_next ht with ⟨u, -, rfl⟩ | ⟨c, info, hraise, rfl⟩ | ⟨-, rfl⟩
  · cases State.complete_code_eq_two_iff.mp hcode
  · obtain rfl := State.complete_code_eq_two_iff.mp hcode
    exact eq_finv_of_divisionByZero_mem (ruleOf_raisesOnly i s _ info hraise)
  · exact absurd hcode hbefore

end Sys2Proof.Machine
end

/-! # Proofs: the Lagrange weights at 0 (spec/43_lagrange_basis.md R188 to R190) -/

section
namespace Sys2Proof.Machine

open Sys2Proof.Claims

/-! ## A weight as a product -/

theorem foldr_mulP (g : Nat → Nat) (js : List Nat) :
    js.foldr (fun j acc => mulP (g j) acc) 1 = (js.map g).prod % 257 := by
  induction js with
  | nil => rfl
  | cons j js ih => rw [List.foldr_cons, ih, mulP, prime, Nat.mul_mod_mod, List.map_cons, List.prod_cons]

/-- The weight of slot i is the product of the other slots' factors (spec/43_lagrange_basis.md R188). -/
theorem basis_eq_prod (xs : List FieldWord) (i : Nat) :
    basis xs i = (∏ j ∈ (Finset.range xs.length).erase i,
      basisFactor (xs.getD i 0).toNat (xs.getD j 0).toNat) % 257 := by
  have hslots : (Finset.range xs.length).erase i
      = ((List.range xs.length).filter fun j => decide (j ≠ i)).toFinset := by
    ext j
    simp [and_comm]
  rw [basis, foldr_mulP, hslots, List.prod_toFinset _ (List.nodup_range.filter _)]

/-- The weight of an index among distinct ones is the product of the other indices' factors, whatever their slots
(spec/43_lagrange_basis.md R190). -/
theorem basis_eq_prod_indices {xs : List FieldWord} (hnd : xs.Nodup) {i : Nat} (hi : i < xs.length) :
    basis xs i = (∏ y ∈ xs.toFinset.erase xs[i], basisFactor xs[i].toNat y.toNat) % 257 := by
  have hget : ∀ j (hj : j < xs.length), xs.getD j 0 = xs[j] := fun j => xs.getD_eq_getElem 0
  rw [basis_eq_prod, hget i hi]
  congr 1
  refine Finset.prod_nbij (fun j => xs.getD j 0) (fun j hj => ?_) (fun j hj k hk hjk => ?_) (fun y hy => ?_)
    fun _ _ => rfl
  · obtain ⟨hne, hj⟩ := Finset.mem_erase.mp hj
    rw [Finset.mem_range] at hj
    refine Finset.mem_erase.mpr ⟨fun h => hne ?_, ?_⟩
    · exact hnd.getElem_inj_iff.mp ((hget j hj).symm.trans h)
    · exact List.mem_toFinset.mpr (hget j hj ▸ List.getElem_mem hj)
  · have hj := Finset.mem_range.mp (Finset.mem_of_mem_erase hj)
    have hk := Finset.mem_range.mp (Finset.mem_of_mem_erase hk)
    exact hnd.getElem_inj_iff.mp (by rwa [← hget j hj, ← hget k hk])
  · obtain ⟨hne, hmem⟩ := Finset.mem_erase.mp hy
    obtain ⟨j, hj, rfl⟩ := List.getElem_of_mem (List.mem_toFinset.mp hmem)
    refine ⟨j, Finset.mem_erase.mpr ⟨?_, Finset.mem_range.mpr hj⟩, hget j hj⟩
    rintro rfl
    exact hne rfl

/-- Settles O52: permuted lists have the same set of indices, on which alone a weight depends. -/
theorem weightsFollowTheirIndices : Obligations.WeightsFollowTheirIndices := by
  intro xs ys i j hperm hnd hi hj hij
  have hindex : xs[i] = ys[j] := by simpa [hi, hj] using hij
  rw [basis_eq_prod_indices hnd hi, basis_eq_prod_indices (hperm.nodup hnd) hj, hindex,
    List.toFinset_eq_of_perm _ _ hperm]

/-! ## Field operations as those of the integers mod 257 -/

theorem fact_prime_257 : Fact (Nat.Prime 257) := ⟨prime_257⟩

/-- Field elements that are equal mod 257 are equal. -/
theorem eq_of_cast_eq {a b : Nat} (ha : a < 257) (hb : b < 257) (h : (a : ZMod 257) = b) : a = b :=
  ((ZMod.natCast_eq_natCast_iff a b 257).mp h).eq_of_lt_of_lt ha hb

theorem cast_mulP (a b : Nat) : (mulP a b : ZMod 257) = a * b := by
  rw [mulP, prime, ZMod.natCast_mod, Nat.cast_mul]

theorem cast_subP (a b : Nat) : (subP a b : ZMod 257) = a - b := by
  have hnonneg : (0 : Int) ≤ ((a : Int) - b) % (prime : Nat) := Int.emod_nonneg _ (by decide)
  have hcast : ((subP a b : Int) : ZMod 257) = (((a : Int) - b : Int) : ZMod 257) := by
    rw [subP, Int.toNat_of_nonneg hnonneg]
    exact ZMod.intCast_mod _ 257
  simpa using hcast

/-- The power of FINV is the field's inverse, with 0 for 0 (spec/40_field_arith.md R126). -/
theorem cast_invP (a : Nat) : (invP a : ZMod 257) = (a : ZMod 257)⁻¹ := by
  have := fact_prime_257
  have hcast : (invP a : ZMod 257) = (a : ZMod 257) ^ 255 := by
    rw [invP, powP, prime, ZMod.natCast_mod, Nat.cast_pow]
  rw [hcast]
  by_cases hz : (a : ZMod 257) = 0
  · rw [hz, inv_zero, zero_pow (by decide)]
  · exact eq_inv_of_mul_eq_one_left (by rw [← pow_succ]; exact ZMod.pow_card_sub_one_eq_one hz)

theorem cast_basisFactor (xi xj : Nat) :
    (basisFactor xi xj : ZMod 257) = (0 - xj) * ((xi : ZMod 257) - xj)⁻¹ := by
  rw [basisFactor, cast_mulP, cast_subP, cast_invP, cast_subP, Nat.cast_zero]

/-! ## The weights as the Lagrange basis at 0 -/

/-- The share index of a slot as an integer mod 257. -/
def slotPoint (xs : List FieldWord) (i : Nat) : ZMod 257 := ((xs.getD i 0).toNat : ZMod 257)

/-- The weight of slot i is the value at 0 of the slot's Lagrange basis polynomial
(spec/43_lagrange_basis.md R188). -/
theorem cast_basis [Fact (Nat.Prime 257)] (xs : List FieldWord) (i : Nat) :
    (basis xs i : ZMod 257)
      = (Lagrange.basis (Finset.range xs.length) (slotPoint xs) i).eval 0 := by
  rw [basis_eq_prod, ZMod.natCast_mod, Nat.cast_prod, Lagrange.basis, Polynomial.eval_prod]
  refine Finset.prod_congr rfl fun j _ => ?_
  rw [cast_basisFactor, Lagrange.basisDivisor]
  simp [slotPoint, mul_comm]

/-- Distinct field elements are distinct points mod 257. -/
theorem slotPoint_injOn {xs : List FieldWord} (hcanon : ∀ x ∈ xs, canonical x = true) (hnd : xs.Nodup) :
    Set.InjOn (slotPoint xs) (Finset.range xs.length) := by
  have hlt : ∀ i (hi : i < xs.length), xs[i].toNat < 257 := fun i hi =>
    Nat.lt_succ_of_le ((canonical_iff _).mp (hcanon _ (List.getElem_mem hi)))
  intro i hi j hj hij
  rw [Finset.coe_range, Set.mem_Iio] at hi hj
  rw [slotPoint, slotPoint, xs.getD_eq_getElem 0 hi, xs.getD_eq_getElem 0 hj] at hij
  exact hnd.getElem_inj_iff.mp (BitVec.eq_of_toNat_eq (eq_of_cast_eq (hlt i hi) (hlt j hj) hij))

theorem sum_weights (xs : List FieldWord) :
    (weights xs).sum = ∑ i ∈ Finset.range xs.length, basis xs i := by
  rw [weights, ← List.sum_toFinset _ List.nodup_range, List.toFinset_range]

/-- The Lagrange basis polynomials of distinct points sum to 1, and so do their values at 0
(spec/43_lagrange_basis.md R189). -/
theorem weights_sum {xs : List FieldWord} (hne : xs ≠ []) (hcanon : ∀ x ∈ xs, canonical x = true)
    (hnd : xs.Nodup) : (weights xs).sum % 257 = 1 := by
  have := fact_prime_257
  have hslots : (Finset.range xs.length).Nonempty :=
    Finset.nonempty_range_iff.mpr (List.length_eq_zero_iff.not.mpr hne)
  have hsum : ((weights xs).sum : ZMod 257) = (1 : Nat) := by
    calc ((weights xs).sum : ZMod 257)
        = ∑ i ∈ Finset.range xs.length, (basis xs i : ZMod 257) := by
          rw [sum_weights, Nat.cast_sum]
      _ = (∑ i ∈ Finset.range xs.length,
            Lagrange.basis (Finset.range xs.length) (slotPoint xs) i).eval 0 := by
          rw [Polynomial.eval_finsetSum]
          exact Finset.sum_congr rfl fun i _ => cast_basis xs i
      _ = (1 : Nat) := by
          rw [Lagrange.sum_basis (slotPoint_injOn hcanon hnd) hslots, Polynomial.eval_one, Nat.cast_one]
  exact (ZMod.natCast_eq_natCast_iff' _ _ 257).mp hsum

/-- The factor of two points, without the negations (spec/43_lagrange_basis.md R189). -/
theorem basisFactor_eq (a b : Nat) : basisFactor a b = mulP b (invP (subP b a)) := by
  have := fact_prime_257
  refine eq_of_cast_eq (mulP_lt _ _) (mulP_lt _ _) ?_
  rw [cast_basisFactor, cast_mulP, cast_invP, cast_subP, zero_sub, neg_mul, ← mul_neg, ← inv_neg, neg_sub]

/-! ## The indices that slots 0..m-1 hold -/

theorem inRange_iff {x : FieldWord} : inRange x ↔ x ≠ 0 ∧ canonical x = true := by
  have hz : x = 0 ↔ x.toNat = 0 := BitVec.toNat_eq
  rw [inRange, canonical_iff, ne_eq, hz, Nat.one_le_iff_ne_zero]

theorem canonical_of_mem_indices {m : Nat} {x : Nat → FieldWord} (h : ∀ i < m, inRange (x i)) :
    ∀ y ∈ (List.range m).map x, canonical y = true := by
  intro y hy
  obtain ⟨i, hi, rfl⟩ := List.mem_map.mp hy
  exact (inRange_iff.mp (h i (List.mem_range.mp hi))).2

theorem nodup_indices {m : Nat} {x : Nat → FieldWord} (h : goodIndices m x) : ((List.range m).map x).Nodup := by
  obtain ⟨-, hdistinct⟩ := h
  exact List.nodup_range.map_on fun i hi j hj =>
    hdistinct i (List.mem_range.mp hi) j (List.mem_range.mp hj)

/-- Settles O51: the sum of the Lagrange basis, and the factors of two points. -/
theorem weightsSumToOne : Obligations.WeightsSumToOne := by
  refine ⟨fun m x hm hx => ?_, fun a b _ _ _ => ?_⟩
  · have hne : (List.range m).map x ≠ [] := by simpa using Nat.ne_zero_of_lt hm
    exact weights_sum hne (canonical_of_mem_indices hx.1) (nodup_indices hx)
  · have hone : ∀ x y, mulP (basisFactor x y) 1 = basisFactor x y := fun x y => by
      rw [mulP, Nat.mul_one]
      exact Nat.mod_eq_of_lt (mulP_lt _ _)
    rw [← basisFactor_eq, ← basisFactor_eq, ← hone a.toNat, ← hone b.toNat]
    rfl

end Sys2Proof.Machine
end

/-! # Proofs: LBASIS (spec/43_lagrange_basis.md R185 to R188) -/

section
namespace Sys2Proof.Machine

open Sys2Proof.Claims

/-! ## The weight as the statements write it -/

/-- The factor of two field elements as an exact product, reduced once (spec/43_lagrange_basis.md R188). -/
theorem basisFactor_eq_pow {a b : Nat} (hb : b ≤ 257) :
    basisFactor a b = (257 - b) * ((a + 257 - b) % 257) ^ 255 % 257 := by
  rw [basisFactor, subP_of_le hb, subP_of_le hb, Nat.zero_add, ← Nat.add_sub_assoc hb, mulP, invP, powP, prime,
    Nat.mod_mul_mod, Nat.mul_mod_mod]

/-- The weights that LBASIS computes are those of the statements (spec/43_lagrange_basis.md R188). -/
theorem basis_eq_basisValue {m i : Nat} {x : Nat → FieldWord} (hx : ∀ j < m, inRange (x j)) (hi : i < m) :
    basis ((List.range m).map x) i = basisValue m x i := by
  have hget : ∀ j < m, ((List.range m).map x).getD j 0 = x j := fun j hj => by simp [hj]
  rw [basis_eq_prod, basisValue, List.length_map, List.length_range, Finset.prod_nat_mod]
  conv_rhs => rw [Finset.prod_nat_mod]
  congr 1
  refine Finset.prod_congr rfl fun j hj => ?_
  have hj := Finset.mem_range.mp (Finset.mem_of_mem_erase hj)
  have hle : (x j).toNat ≤ 257 := (hx j hj).2.trans (by decide)
  rw [hget i hi, hget j hj, basisFactor_eq_pow hle, Nat.mod_mod]

/-! ## The checks of the share count and indices, which RECON shares -/

section
variable {s : State} {m i j : Nat} {x : Nat → FieldWord}

theorem checkedX_of_inRange (hread : s.mem.x.read i = some (x i)) (hx : inRange (x i)) :
    checkedX s i = .ok (x i) :=
  checkedX_eq_ok.mpr ⟨hread, inRange_iff.mp hx⟩

/-- An index outside 1..256 raises INDEX_RANGE with its slot (spec/43_lagrange_basis.md R187). -/
theorem checkedX_raise (hi : i < 65536) (hread : s.mem.x.read i = some (x i)) (hx : ¬ inRange (x i)) :
    checkedX s i = .error (.raise .indexRange (BitVec.ofNat 32 i)) := by
  have hbad : x i = 0 ∨ canonical (x i) = false := by
    rw [inRange_iff, not_and_or, not_not, Bool.not_eq_true] at hx
    exact hx
  rw [checkedX, readX, hread, written_some, check_bind_ok, raiseIf_bind_of hbad, slotInfo_eq hi]

theorem checkedX_fault (hnone : s.mem.x.read i = none) :
    checkedX s i = .error (.fault (.unwritten (.x i))) := by
  rw [checkedX, readX, hnone, written_none, check_bind_error]

theorem gather_checkedX (hread : holdsX s m x) (hx : ∀ a < m, inRange (x a)) :
    gather (checkedX s) (List.range m) = .ok ((List.range m).map x) := by
  refine gather_of_ok _ _ _ fun a ha => ?_
  rw [List.mem_range] at ha
  exact checkedX_of_inRange (hread a ha) (hx a ha)

/-- Distinct indices in 1..256 pass (spec/43_lagrange_basis.md R187). -/
theorem checkX_of_goodIndices (hread : holdsX s m x) (hx : goodIndices m x) :
    checkX s m = .ok ((List.range m).map x) := by
  have hdistinct : checkDistinct ((List.range m).map x) = .ok () := by
    rw [checkDistinct, (firstDuplicate_eq_none 0 _).mpr (nodup_indices hx)]
  rw [checkX, gather_checkedX hread hx.1, check_bind_ok, hdistinct, check_bind_ok]

/-- The first slot that fails its own check ends check_x before any pair is compared
(spec/43_lagrange_basis.md R187, log 10). -/
theorem checkX_of_first_bad {e : Stop} (hi : i < m) (hread : holdsX s i x) (hx : ∀ a < i, inRange (x a))
    (hbad : checkedX s i = .error e) : checkX s m = .error e := by
  have hreads : gather (checkedX s) (List.range m) = .error e :=
    gather_range_error hi (fun a ha => ⟨x a, checkedX_of_inRange (hread a ha) (hx a ha)⟩) hbad
  rw [checkX, hreads, check_bind_error]

/-- The first pair of equal indices is the one that the duplicate check finds (spec/43_lagrange_basis.md R187). -/
theorem firstDuplicate_of_firstEqualPair (h : firstEqualPair m x i j) :
    firstDuplicate 0 ((List.range m).map x) = some (i, j) := by
  obtain ⟨hij, hj, heq, hfirst⟩ := h
  have hfound := firstDuplicate_eq_some 0 ((List.range m).map x) hij (by simpa using hj) (by simpa using heq)
    fun i' j' h h' he => hfirst i' j' h (by simpa using h') (by simpa using he)
  rwa [Nat.zero_add, Nat.zero_add] at hfound

/-- Equal indices, all of them in range, raise DUPLICATE_SHARE_INDEX with the first pair
(spec/43_lagrange_basis.md R187). -/
theorem checkX_raise_duplicate (hread : holdsX s m x) (hx : ∀ a < m, inRange (x a))
    (h : firstEqualPair m x i j) :
    checkX s m = .error (.raise .duplicateShareIndex (BitVec.ofNat 16 j ++ BitVec.ofNat 16 i)) := by
  have hpair : checkDistinct ((List.range m).map x)
      = .error (.raise .duplicateShareIndex (pairInfo j i)) := by
    rw [checkDistinct, firstDuplicate_of_firstEqualPair h]
  rw [checkX, gather_checkedX hread hx, check_bind_ok, hpair, check_bind_error]
  rfl

end

/-- No shares raise EMPTY_SHARE_SET (spec/43_lagrange_basis.md R186). -/
theorem checkCount_raise_empty {cfg : Params} {m : Nat} (h : m = 0) :
    checkCount cfg m = .error (.raise .emptyShareSet 0) := by
  rw [checkCount, raiseIf_bind_of h]

/-- More shares than slots raise CAPACITY (spec/43_lagrange_basis.md R186). -/
theorem checkCount_raise_capacity {cfg : Params} {m : Nat} (h : cfg.sMax < m) :
    checkCount cfg m = .error (.raise .capacity 1) := by
  rw [checkCount, raiseIf_bind_of_not (by omega), raiseIf_pos h]

/-! ## How an LBASIS ends -/

section
variable {s : State}

theorem ruleOf_lbasis_of_count {e : Stop} (h : checkCount s.cfg s.scnt.toNat = .error e) :
    ruleOf .lbasis s = .error e := by
  rw [ruleOf, lbasisRule, h, check_bind_error]

theorem ruleOf_lbasis_of_indices {e : Stop} (h1 : 1 ≤ s.scnt.toNat) (hm : s.scnt.toNat ≤ s.cfg.sMax)
    (h : checkX s s.scnt.toNat = .error e) : ruleOf .lbasis s = .error e := by
  have hcount : checkCount s.cfg s.scnt.toNat = .ok () := checkCount_eq_ok.mpr ⟨h1, hm⟩
  rw [ruleOf, lbasisRule, hcount, check_bind_ok, h, check_bind_error]

/-- With distinct indices in 1..256 LBASIS writes their weights and nothing else
(spec/43_lagrange_basis.md R185). -/
theorem lbasis_completes {x : Nat → FieldWord} (h1 : 1 ≤ s.scnt.toNat) (hm : s.scnt.toNat ≤ s.cfg.sMax)
    (hread : holdsX s s.scnt.toNat x) (hx : goodIndices s.scnt.toNat x) :
    completes .lbasis s
      { s with mem := writeWeights s.mem (weights ((List.range s.scnt.toNat).map x)) } :=
  completes_of_ruleOf (lbasisRule_eq_ok.mpr ⟨⟨h1, hm⟩, _, checkX_of_goodIndices hread hx, rfl⟩)

end

/-- W[i] holds the weight of slot i after the weights of slots 0..m-1 were written
(spec/43_lagrange_basis.md R185, R188). -/
theorem writeWeights_basisValue (mem : Memory) {m i : Nat} {x : Nat → FieldWord}
    (hx : ∀ j < m, inRange (x j)) (hi : i < m) :
    (writeWeights mem (weights ((List.range m).map x))).w.read i
      = some (BitVec.ofNat 9 (basisValue m x i)) := by
  rw [writeWeights_w, dif_pos (by simpa using hi), ← basis_eq_basisValue hx hi]
  simp [weights]

/-- Settles O48: completion with the weights, each error from its check, the unwritten index from its read. -/
theorem lbasisRule_holds : Obligations.LbasisRule := by
  refine ⟨?_, illegalCompletes_all 0x18, fun s x => ⟨fun h1 hm hread hx => ?_, fun h0 => ?_, fun hm => ?_,
    fun i hi hm hread hx hbad => ?_, fun i j hm hread hx hpair => ?_, fun i hi hm hread hx hnone => ?_⟩⟩
  · rw [← assembleWord_eq_wordOf]
    exact decodeOfEncode .lbasis rfl
  · exact ⟨_, lbasis_completes h1 hm hread hx, fun i => writeWeights_basisValue s.mem hx.1,
      fun e _ he => writeWeights_other _ _ (by simpa using he)⟩
  · exact raises_of_ruleOf (ruleOf_lbasis_of_count (checkCount_raise_empty h0))
  · exact raises_of_ruleOf (ruleOf_lbasis_of_count (checkCount_raise_capacity hm))
  · have hslot : i < 65536 := by omega
    exact raises_of_ruleOf (ruleOf_lbasis_of_indices (by omega) hm (checkX_of_first_bad hi
      (fun a ha => hread a (by omega)) hx (checkedX_raise hslot (hread i (by omega)) hbad)))
  · have ⟨_, hj, _⟩ := hpair
    exact raises_of_ruleOf (ruleOf_lbasis_of_indices (by omega) hm (checkX_raise_duplicate hread hx hpair))
  · rw [exec_eq_finish]
    exact finish_eq_fault.mpr (ruleOf_lbasis_of_indices (by omega) hm
      (checkX_of_first_bad hi hread hx (checkedX_fault hnone)))

end Sys2Proof.Machine
end

/-! # Proofs: the reconstruction pipeline (spec/44_reconstruct.md) -/

section
namespace Sys2Proof.Machine

open Sys2Proof.Claims

/-! ## The checks of lengths and values -/

section
variable {s : State} {m i : Nat} {l : BitVec 16} {e : Stop}

/-- Slot 0, whose length is read first, and the slots that check_len compares with it
(spec/44_reconstruct.md R203). -/
theorem range_eq_cons (hm : 1 ≤ m) : List.range m = 0 :: List.range' 1 (m - 1) := by
  obtain ⟨k, rfl⟩ : ∃ k, m = k + 1 := ⟨m - 1, by omega⟩
  rw [List.range_eq_range', List.range'_succ, Nat.add_sub_cancel]

theorem readSlen_of_holdsLength (hread : holdsLength s m l) (hi : i < m) : readSlen s i = .ok l := by
  rw [readSlen, hread i hi, written_some]

theorem checkedSlen_of_holdsLength (hread : holdsLength s m l) (hi : i < m) : checkedSlen s l i = .ok l :=
  checkedSlen_eq_ok.mpr ⟨hread i hi, rfl⟩

/-- Every slot but slot 0 has the length of slot 0 (spec/44_reconstruct.md R203). -/
theorem gather_checkedSlen (hread : holdsLength s m l) :
    gather (checkedSlen s l) (List.range' 1 (m - 1)) = .ok ((List.range' 1 (m - 1)).map fun _ => l) := by
  refine gather_of_ok _ _ _ fun j hj => checkedSlen_of_holdsLength hread ?_
  have hj := List.mem_range'_1.mp hj
  omega

/-- Equal lengths within the capacity pass (spec/44_reconstruct.md R203). -/
theorem checkLen_of_holdsLength (hm : 1 ≤ m) (hread : holdsLength s m l) (hl : l.toNat ≤ s.cfg.lMax) :
    checkLen s m = .ok l := by
  rw [checkLen, readSlen_of_holdsLength hread hm, check_bind_ok, gather_checkedSlen hread, check_bind_ok,
    raiseIf_bind_of_not (by omega)]

/-- Equal lengths above the capacity raise CAPACITY (spec/44_reconstruct.md R203). -/
theorem checkLen_raise_capacity (hm : 1 ≤ m) (hread : holdsLength s m l) (hl : s.cfg.lMax < l.toNat) :
    checkLen s m = .error (.raise .capacity 2) := by
  rw [checkLen, readSlen_of_holdsLength hread hm, check_bind_ok, gather_checkedSlen hread, check_bind_ok,
    raiseIf_bind_of hl]

/-- The first slot behind slot 0 that fails its own check ends check_len (spec/44_reconstruct.md R203, log 10). -/
theorem checkLen_of_first_bad (h1 : 1 ≤ i) (hi : i < m) (hread : holdsLength s i l)
    (hbad : checkedSlen s l i = .error e) : checkLen s m = .error e := by
  have hslots : List.range' 1 (m - 1)
      = List.range' 1 (i - 1) ++ i :: List.range' (i + 1) (m - (i + 1)) := by
    have hsplit := range_split hi
    rw [range_eq_cons h1, range_eq_cons (by omega)] at hsplit
    exact (List.cons.inj hsplit).2
  have hreads : gather (checkedSlen s l) (List.range' 1 (m - 1)) = .error e := by
    rw [hslots]
    refine gather_first_error (fun j hj => ⟨l, checkedSlen_of_holdsLength hread ?_⟩) hbad
    have hj := List.mem_range'_1.mp hj
    omega
  rw [checkLen, readSlen_of_holdsLength hread h1, check_bind_ok, hreads, check_bind_error]

/-- A length that differs from slot 0's raises INCONSISTENT_SHARES with its slot (spec/44_reconstruct.md R203). -/
theorem checkedSlen_raise {l' : BitVec 16} (hi : i < 65536) (hread : s.mem.slen.read i = some l') (hne : l' ≠ l) :
    checkedSlen s l i = .error (.raise .inconsistentShares (BitVec.ofNat 32 i)) := by
  rw [checkedSlen, readSlen, hread, written_some, check_bind_ok, raiseIf_bind_of hne, slotInfo_eq hi]

/-- The first length that nothing has written is a model fault (spec/10_state.md R41, log 10). -/
theorem checkLen_fault (hi : i < m) (hread : holdsLength s i l) (hnone : s.mem.slen.read i = none) :
    checkLen s m = .error (.fault (.unwritten (.slen i))) := by
  have hfault : readSlen s i = .error (.fault (.unwritten (.slen i))) := by
    rw [readSlen, hnone, written_none]
  cases i with
  | zero => rw [checkLen, hfault, check_bind_error]
  | succ i =>
    refine checkLen_of_first_bad (by omega) hi hread ?_
    rw [checkedSlen, hfault, check_bind_error]

end

section
variable {s : State} {m l i p : Nat} {y : Nat → Nat → FieldWord}

theorem checkedY_of_canonical (hread : s.mem.y.read (yKey i p) = some (y i p)) (hy : (y i p).toNat ≤ 256) :
    checkedY s i p = .ok (y i p) :=
  checkedY_eq_ok.mpr ⟨hread, (canonical_iff _).mpr hy⟩

/-- A value above 256 raises OPERAND_RANGE with its position and slot (spec/44_reconstruct.md R202). -/
theorem checkedY_raise (hread : s.mem.y.read (yKey i p) = some (y i p)) (hy : 256 < (y i p).toNat) :
    checkedY s i p = .error (.raise .operandRange (BitVec.ofNat 16 p ++ BitVec.ofNat 16 i)) := by
  rw [checkedY, readY, hread, written_some, check_bind_ok, raiseIf_bind_of ((canonical_false_iff _).mpr hy)]
  rfl

theorem checkedY_fault (hnone : s.mem.y.read (yKey i p) = none) :
    checkedY s i p = .error (.fault (.unwritten (.y i p))) := by
  rw [checkedY, readY, hnone, written_none, check_bind_error]

theorem gather_checkedY (hread : ∀ q < l, s.mem.y.read (yKey i q) = some (y i q))
    (hy : ∀ q < l, (y i q).toNat ≤ 256) :
    gather (checkedY s i) (List.range l) = .ok ((List.range l).map (y i)) := by
  refine gather_of_ok _ _ _ fun q hq => ?_
  rw [List.mem_range] at hq
  exact checkedY_of_canonical (hread q hq) (hy q hq)

/-- The values of slots 0..m-1 at positions 0..l-1, one row per slot. -/
def valueRows (m l : Nat) (y : Nat → Nat → FieldWord) : List (List FieldWord) :=
  (List.range m).map fun i => (List.range l).map (y i)

/-- Canonical values pass (spec/44_reconstruct.md R202). -/
theorem checkY_of_canonical (hread : holdsY s m l y) (hy : ∀ i < m, ∀ p < l, (y i p).toNat ≤ 256) :
    checkY s m l = .ok (valueRows m l y) := by
  refine gather_of_ok _ _ _ fun i hi => ?_
  rw [List.mem_range] at hi
  exact gather_checkedY (hread i hi) (hy i hi)

/-- The first value that fails its own check, slot by slot, ends check_y (spec/44_reconstruct.md R202, log 10). -/
theorem checkY_of_first_bad {e : Stop} (hi : i < m) (hp : p < l) (hread : holdsY s i l y)
    (hy : ∀ j < i, ∀ q < l, (y j q).toNat ≤ 256)
    (hrow : ∀ q < p, s.mem.y.read (yKey i q) = some (y i q)) (hyrow : ∀ q < p, (y i q).toNat ≤ 256)
    (hbad : checkedY s i p = .error e) : checkY s m l = .error e :=
  gather_range_error hi (fun j hj => ⟨_, gather_checkedY (hread j hj) (hy j hj)⟩)
    (gather_range_error hp (fun q hq => ⟨_, checkedY_of_canonical (hrow q hq) (hyrow q hq)⟩) hbad)

end

/-! ## The checks of a RECON in order -/

/-- A command whose rule meets a model fault faults (spec/10_state.md R41). -/
theorem exec_of_fault {i : Instr} {s : State} {r : Fault} (h : ruleOf i s = .error (.fault r)) :
    exec i s = .fault r := by
  rw [exec_eq_finish]
  exact finish_eq_fault.mpr h

section
variable {s : State} {l : BitVec 16} {x : Nat → FieldWord} {e : Stop}

theorem ruleOf_recon_of_count (h : checkCount s.cfg s.scnt.toNat = .error e) : ruleOf .recon s = .error e := by
  rw [ruleOf, reconRule, h, check_bind_error]

/-- check_len comes after check_count (spec/44_reconstruct.md R200). -/
theorem ruleOf_recon_of_length (h1 : 1 ≤ s.scnt.toNat) (hm : s.scnt.toNat ≤ s.cfg.sMax)
    (h : checkLen s s.scnt.toNat = .error e) : ruleOf .recon s = .error e := by
  have hcount : checkCount s.cfg s.scnt.toNat = .ok () := checkCount_eq_ok.mpr ⟨h1, hm⟩
  rw [ruleOf, reconRule, hcount, check_bind_ok, h, check_bind_error]

/-- check_x comes after check_len (spec/44_reconstruct.md R200). -/
theorem ruleOf_recon_of_indices (h1 : 1 ≤ s.scnt.toNat) (hm : s.scnt.toNat ≤ s.cfg.sMax)
    (hlen : holdsLength s s.scnt.toNat l) (hl : l.toNat ≤ s.cfg.lMax)
    (h : checkX s s.scnt.toNat = .error e) : ruleOf .recon s = .error e := by
  have hcount : checkCount s.cfg s.scnt.toNat = .ok () := checkCount_eq_ok.mpr ⟨h1, hm⟩
  rw [ruleOf, reconRule, hcount, check_bind_ok, checkLen_of_holdsLength h1 hlen hl, check_bind_ok, h,
    check_bind_error]

/-- check_y comes after check_x (spec/44_reconstruct.md R200). -/
theorem ruleOf_recon_of_values (h1 : 1 ≤ s.scnt.toNat) (hm : s.scnt.toNat ≤ s.cfg.sMax)
    (hlen : holdsLength s s.scnt.toNat l) (hl : l.toNat ≤ s.cfg.lMax) (hread : holdsX s s.scnt.toNat x)
    (hx : goodIndices s.scnt.toNat x) (h : checkY s s.scnt.toNat l.toNat = .error e) :
    ruleOf .recon s = .error e := by
  have hcount : checkCount s.cfg s.scnt.toNat = .ok () := checkCount_eq_ok.mpr ⟨h1, hm⟩
  rw [ruleOf, reconRule, hcount, check_bind_ok, checkLen_of_holdsLength h1 hlen hl, check_bind_ok,
    checkX_of_goodIndices hread hx, check_bind_ok, h, check_bind_error]

end

/-! ## How a RECON ends -/

/-- Every check of a RECON from s passes, on the indices x, the values y and the length l
(spec/44_reconstruct.md R200). -/
structure ReconReady (s : State) (x : Nat → FieldWord) (y : Nat → Nat → FieldWord) (l : BitVec 16) : Prop where
  nonempty : 1 ≤ s.scnt.toNat
  count_le : s.scnt.toNat ≤ s.cfg.sMax
  lengths : holdsLength s s.scnt.toNat l
  length_le : l.toNat ≤ s.cfg.lMax
  indices : holdsX s s.scnt.toNat x
  good : goodIndices s.scnt.toNat x
  values : holdsY s s.scnt.toNat l.toNat y
  values_le : ∀ i < s.scnt.toNat, ∀ p < l.toNat, (y i p).toNat ≤ 256

/-- The arrays that a RECON of the indices x and the values y leaves (spec/44_reconstruct.md R200). -/
def reconMemory (s : State) (x : Nat → FieldWord) (y : Nat → Nat → FieldWord) (l : BitVec 16) : Memory :=
  let ws := weights ((List.range s.scnt.toNat).map x)
  writeSecret (writeWeights s.mem ws) (recovered ws (valueRows s.scnt.toNat l.toNat y) l.toNat)

/-- What RECON has written before it completes (spec/44_reconstruct.md R204). -/
def reconResult (s : State) (x : Nat → FieldWord) (y : Nat → Nat → FieldWord) (l : BitVec 16) : State :=
  { s with mem := reconMemory s x y l, len := l }

/-- A command that does not sample completes with OK or raises (spec/60_exceptions.md R224, R229). -/
theorem exec_next_of_no_draws {i : Instr} {s t : State} (hcgen : ∀ rs1, i ≠ .cgen rs1) (hsplit : i ≠ .split)
    (h : exec i s = .next t) :
    (∃ u, ruleOf i s = .ok u ∧ t = u.complete .ok 0) ∨ ∃ c info, c ≠ .ok ∧ t = s.complete c info := by
  rcases exec_next h with hok | ⟨c, info, hraise, rfl⟩ | ⟨hwait, -⟩
  · exact .inl hok
  · exact .inr ⟨c, info, ruleOf_raise_ne_ok hraise, rfl⟩
  · rcases ruleOf_wait hwait with ⟨rs1, hi⟩ | hi
    · exact absurd hi (hcgen rs1)
    · exact absurd hi hsplit

/-- The duplicate check passes distinct indices alone (spec/43_lagrange_basis.md R187). -/
theorem nodup_of_checkDistinct {xs : List FieldWord} (h : checkDistinct xs = .ok ()) : xs.Nodup := by
  rw [checkDistinct] at h
  split at h
  · cases h
  · next hnone => exact (firstDuplicate_eq_none 0 xs).mp hnone

/-- Indices that pass check_x are distinct and in 1..256 (spec/43_lagrange_basis.md R187). -/
theorem holdsX_of_checkX {s : State} {m : Nat} {xs : List FieldWord} (h : checkX s m = .ok xs) :
    ∃ x, holdsX s m x ∧ goodIndices m x := by
  obtain ⟨rfl, hslot, hdistinct⟩ := checkX_eq_ok h
  have hindex : ∀ i < xs.length, ∃ v, xs[i]? = some v ∧ s.mem.x.read i = some v ∧ inRange v := by
    intro i hi
    obtain ⟨hread, hrange⟩ := hslot i hi
    exact ⟨xs[i], List.getElem?_eq_getElem hi, hread, inRange_iff.mpr hrange⟩
  choose! x hget hread hrange using hindex
  refine ⟨x, hread, hrange, fun i hi j hj hij => ?_⟩
  rw [← List.getElem?_inj hi (nodup_of_checkDistinct hdistinct), hget i hi, hget j hj, hij]

/-- Values that pass check_y are the canonical ones of slots 0..m-1 (spec/44_reconstruct.md R202). -/
theorem holdsY_of_checkY {s : State} {m l : Nat} {rows : List (List FieldWord)} (h : checkY s m l = .ok rows) :
    ∃ y, holdsY s m l y ∧ ∀ i < m, ∀ p < l, (y i p).toNat ≤ 256 := by
  obtain ⟨rfl, hrow⟩ := checkY_eq_ok h
  have hvalues : ∀ i < rows.length, ∀ p < l, ∃ v, s.mem.y.read (yKey i p) = some v ∧ v.toNat ≤ 256 := by
    intro i hi p hp
    obtain ⟨rfl, hvalue⟩ := hrow i hi
    obtain ⟨hv, hcanon⟩ := hvalue p hp
    exact ⟨_, hv, (canonical_iff _).mp hcanon⟩
  choose! y hread hle using hvalues
  exact ⟨y, hread, hle⟩

section
variable {s t : State} {x : Nat → FieldWord} {y : Nat → Nat → FieldWord} {l : BitVec 16}

/-- A ready RECON completes with the weights and the recovered bytes in place (spec/44_reconstruct.md R200). -/
theorem ReconReady.completes (h : ReconReady s x y l) : completes .recon s (reconResult s x y l) :=
  completes_of_ruleOf (reconRule_eq_ok.mpr ⟨⟨h.nonempty, h.count_le⟩, l, _, _,
    checkLen_of_holdsLength h.nonempty h.lengths h.length_le, checkX_of_goodIndices h.indices h.good,
    checkY_of_canonical h.values h.values_le, rfl⟩)

/-- A RECON whose rule gets through was ready (spec/44_reconstruct.md R200). -/
theorem ReconReady.of_reconRule {u : State} (h : reconRule s = .ok u) : ∃ x y l, ReconReady s x y l := by
  obtain ⟨⟨h1, hm⟩, l, xs, rows, hlen, hxs, hrows, -⟩ := reconRule_eq_ok.mp h
  obtain ⟨h0, hrest, hl⟩ := checkLen_eq_ok hlen
  obtain ⟨x, hindices, hgood⟩ := holdsX_of_checkX hxs
  obtain ⟨y, hvalues, hcanon⟩ := holdsY_of_checkY hrows
  refine ⟨x, y, l, h1, hm, fun i hi => ?_, hl, hindices, hgood, hvalues, hcanon⟩
  cases i with
  | zero => exact h0
  | succ i => exact hrest _ (by omega) hi

/-- A RECON that takes a next state was ready and completed, or raised (spec/44_reconstruct.md R204). -/
theorem exec_recon_next (h : exec .recon s = .next t) :
    (∃ x y l, ReconReady s x y l ∧ t = okState (reconResult s x y l))
      ∨ ∃ c info, c ≠ .ok ∧ t = s.complete c info := by
  rcases exec_next_of_no_draws (i := .recon) nofun nofun h with ⟨u, hu, -⟩ | hraise
  · obtain ⟨x, y, l, hready⟩ := ReconReady.of_reconRule hu
    exact .inl ⟨x, y, l, hready, Host.Outcome.next.inj (h.symm.trans hready.completes)⟩
  · exact .inr hraise

/-- A RECON that ends with CODE = 0 was ready, and t is its completion (spec/60_exceptions.md R220). -/
theorem exec_recon_ok (h : exec .recon s = .next t) (hcode : t.status.code = 0) :
    ∃ x y l, ReconReady s x y l ∧ t = okState (reconResult s x y l) := by
  rcases exec_recon_next h with hready | ⟨c, info, hc, rfl⟩
  · exact hready
  · exact absurd (State.complete_code_eq_zero_iff.mp hcode) hc

end

/-! ## The arrays after a RECON -/

/-- The byte recovered from the values v at one position: the weighted sum, folded
(spec/44_reconstruct.md R200, R201). -/
def recoveredByte (m : Nat) (x v : Nat → FieldWord) : Byte :=
  BitVec.ofNat 8 ((∑ i ∈ Finset.range m, (v i).toNat * basisValue m x i) % 257 % 256)

/-- Interpolation at 0 of one position, with the weights of the statements (spec/44_reconstruct.md R200). -/
theorem interpolate_weights {m : Nat} {x : Nat → FieldWord} (hx : ∀ j < m, inRange (x j))
    (v : Nat → FieldWord) :
    interpolate (weights ((List.range m).map x)) ((List.range m).map v)
      = (∑ i ∈ Finset.range m, (v i).toNat * basisValue m x i) % 257 := by
  have hsum : (∑ i ∈ Finset.range m, (v i).toNat * basisValue m x i)
      = ∑ i ∈ (List.range m).toFinset, (v i).toNat * basis ((List.range m).map x) i := by
    rw [List.toFinset_range]
    exact Finset.sum_congr rfl fun i hi => by rw [basis_eq_basisValue hx (Finset.mem_range.mp hi)]
  rw [hsum, List.sum_toFinset _ List.nodup_range, interpolate, weights, List.length_map, List.length_range,
    List.zipWith_map, List.zipWith_self]
  rfl

section
variable {s : State} {x : Nat → FieldWord} {y : Nat → Nat → FieldWord} {l : BitVec 16}

/-- W[i] holds the weight of slot i after a RECON (spec/44_reconstruct.md R200). -/
theorem reconMemory_w (hx : ∀ j < s.scnt.toNat, inRange (x j)) {i : Nat} (hi : i < s.scnt.toNat) :
    (reconMemory s x y l).w.read i = some (BitVec.ofNat 9 (basisValue s.scnt.toNat x i)) :=
  writeWeights_basisValue s.mem hx hi

/-- SECRET[p] holds the byte recovered from position p after a RECON (spec/44_reconstruct.md R200, R201). -/
theorem reconMemory_secret (hx : ∀ j < s.scnt.toNat, inRange (x j)) {p : Nat} (hp : p < l.toNat) :
    (reconMemory s x y l).secret.read p = some (recoveredByte s.scnt.toNat x fun i => y i p) := by
  have hcolumn : (valueRows s.scnt.toNat l.toNat y).map (fun row => row.getD p 0)
      = (List.range s.scnt.toNat).map fun i => y i p := by
    simp [valueRows, hp]
  rw [reconMemory, writeSecret_secret, dif_pos (by simpa using hp), recoveredByte, ← interpolate_weights hx,
    ← hcolumn]
  simp [recovered, fold]

/-- Elements outside W and SECRET of the shares keep what they hold (spec/44_reconstruct.md R204). -/
theorem reconMemory_read_other {e : Elem} (hw : ¬ reconWrites s.scnt.toNat l.toNat e) :
    (reconMemory s x y l).read e = s.mem.read e := by
  rw [reconMemory, writeSecret_other _ _ (by rintro p hp rfl; exact hw (show p < l.toNat by simpa using hp)),
    writeWeights_other _ _ (by rintro i hi rfl; exact hw (show i < s.scnt.toNat by simpa using hi))]

/-- Every weight and every recovered byte is written (spec/44_reconstruct.md R204). -/
theorem ReconReady.read_ne_none (h : ReconReady s x y l) {e : Elem} (hw : reconWrites s.scnt.toNat l.toNat e) :
    (reconMemory s x y l).read e ≠ none := by
  cases e with
  | w i => simp [Memory.read, reconMemory_w h.good.1 hw]
  | secret p => simp [Memory.read, reconMemory_secret h.good.1 hw]
  | x | slen | y => exact hw.elim

end

/-! ## The rule and the frames -/

/-- Settles O49: completion by reconMemory, each error from its check, each unwritten element from its read. -/
theorem reconRule_holds : Obligations.ReconRule := by
  refine ⟨?_, illegalCompletes_all 0x21, fun s x y l => ⟨fun h1 hm hlen hl hread hx hvalues hcanon => ?_,
    fun h0 => ?_, fun hm => ?_, fun i l' h1 hi hm hlen hslot hne => ?_, fun h1 hm hlen hl => ?_,
    fun i hi hm hlen hl hread hx hbad => ?_, fun i j hm hlen hl hread hx hpair => ?_,
    fun i hi hm hlen hnone => ?_, fun i hi hm hlen hl hread hx hnone => ?_,
    fun i hi p hp hm hlen hl hread hx hvalues hcanon hrow hcanonRow hnone => ?_,
    fun i hi p hp hm hlen hl hread hx hvalues hcanon hrow hcanonRow hbad => ?_⟩⟩
  · rw [← assembleWord_eq_wordOf]
    exact decodeOfEncode .recon rfl
  · have hready : ReconReady s x y l := ⟨h1, hm, hlen, hl, hread, hx, hvalues, hcanon⟩
    exact ⟨reconMemory s x y l, hready.completes, fun i => reconMemory_w hx.1,
      fun p => reconMemory_secret hx.1, fun e _ => reconMemory_read_other⟩
  · exact raises_of_ruleOf (ruleOf_recon_of_count (checkCount_raise_empty h0))
  · exact raises_of_ruleOf (ruleOf_recon_of_count (checkCount_raise_capacity hm))
  · exact raises_of_ruleOf (ruleOf_recon_of_length (by omega) hm
      (checkLen_of_first_bad h1 hi hlen (checkedSlen_raise (by omega) hslot hne)))
  · exact raises_of_ruleOf (ruleOf_recon_of_length h1 hm (checkLen_raise_capacity h1 hlen hl))
  · have hslot : i < 65536 := by omega
    exact raises_of_ruleOf (ruleOf_recon_of_indices (by omega) hm hlen hl (checkX_of_first_bad hi
      (fun a ha => hread a (by omega)) hx (checkedX_raise hslot (hread i (by omega)) hbad)))
  · have ⟨_, hj, _⟩ := hpair
    exact raises_of_ruleOf (ruleOf_recon_of_indices (by omega) hm hlen hl (checkX_raise_duplicate hread hx hpair))
  · exact exec_of_fault (ruleOf_recon_of_length (by omega) hm (checkLen_fault hi hlen hnone))
  · exact exec_of_fault (ruleOf_recon_of_indices (by omega) hm hlen hl
      (checkX_of_first_bad hi hread hx (checkedX_fault hnone)))
  · exact exec_of_fault (ruleOf_recon_of_values (by omega) hm hlen hl hread hx
      (checkY_of_first_bad hi hp hvalues hcanon hrow hcanonRow (checkedY_fault hnone)))
  · exact raises_of_ruleOf (ruleOf_recon_of_values (by omega) hm hlen hl hread hx (checkY_of_first_bad hi hp
      hvalues hcanon (fun q hq => hrow q hq.le) hcanonRow (checkedY_raise (hrow p le_rfl) hbad)))

/-- Settles O50: the completion and the raise of LBASIS, then those of RECON. -/
theorem reconstructionFrames : Obligations.ReconstructionFrames := by
  refine ⟨fun s t ht => ?_, fun s t ht => ?_⟩
  · rcases exec_next_of_no_draws (i := .lbasis) nofun nofun ht with ⟨u, hu, rfl⟩ | ⟨c, info, -, rfl⟩
    · obtain ⟨-, xs, hxs, rfl⟩ := lbasisRule_eq_ok.mp hu
      obtain ⟨hcount, -⟩ := checkX_eq_ok hxs
      refine ⟨rfl, rfl, ⟨rfl, rfl, rfl, rfl, rfl, rfl, rfl, rfl⟩, rfl, rfl, rfl,
        completionFields_complete .., fun hcode => absurd rfl hcode, fun e _ he => ?_⟩
      exact writeWeights_other _ _ (by simpa [hcount] using he)
    · exact ⟨rfl, rfl, ⟨rfl, rfl, rfl, rfl, rfl, rfl, rfl, rfl⟩, rfl, rfl, rfl,
        completionFields_complete .., fun _ => rfl, fun _ _ _ => rfl⟩
  · rcases exec_recon_next ht with ⟨x, y, l, hready, rfl⟩ | ⟨c, info, hc, rfl⟩
    · exact ⟨rfl, ⟨rfl, rfl, rfl, rfl, rfl, rfl, rfl, rfl⟩, rfl, rfl, rfl,
        completionFields_complete _ .ok 0, fun hcode => absurd rfl hcode,
        fun _ => ⟨hready.lengths 0 hready.nonempty, fun e => hready.read_ne_none⟩,
        fun e _ => reconMemory_read_other⟩
    · exact ⟨rfl, ⟨rfl, rfl, rfl, rfl, rfl, rfl, rfl, rfl⟩, rfl, rfl, rfl, completionFields_complete ..,
        fun _ => ⟨rfl, rfl⟩, fun hcode => absurd (State.complete_code_eq_zero_iff.mp hcode) hc,
        fun _ _ _ => rfl⟩

/-! ## Shares of length 0, and positions -/

/-- Settles O54: a RECON of length 0 is ready whatever Y holds, which is s.mem.y for the RECON from s itself. -/
theorem zeroLengthReconstruction : Obligations.ZeroLengthReconstruction := by
  intro s x h1 hm hlen hread hx
  have hready : ∀ y', ReconReady { s with mem := { s.mem with y := y' } } x (fun _ _ => 0) 0 :=
    fun _ => ⟨h1, hm, hlen, Nat.zero_le _, hread, hx, nofun, nofun⟩
  refine ⟨_, (hready s.mem.y).completes, rfl, rfl, rfl, fun i hi => ?_,
    fun y' => ⟨_, (hready y').completes, rfl, rfl, rfl⟩⟩
  exact Option.ne_none_iff_exists'.mpr ⟨_, reconMemory_w hx.1 hi⟩

/-- A recovered byte depends on the indices and the values at its position alone (spec/44_reconstruct.md R208). -/
theorem recoveredByte_congr {m : Nat} {x x' v v' : Nat → FieldWord} (hx : ∀ i < m, x i = x' i)
    (hv : ∀ i < m, v i = v' i) : recoveredByte m x v = recoveredByte m x' v' := by
  have hweight : ∀ i < m, basisValue m x i = basisValue m x' i := by
    intro i hi
    rw [basisValue, basisValue, hx i hi]
    refine congrArg (· % 257) (Finset.prod_congr rfl fun j hj => ?_)
    rw [hx j (Finset.mem_range.mp (Finset.mem_of_mem_erase hj))]
  rw [recoveredByte, recoveredByte, Finset.sum_congr rfl fun i hi => by
    rw [hv i (Finset.mem_range.mp hi), hweight i (Finset.mem_range.mp hi)]]

/-- Settles O55: both bytes are recoveredByte of the same indices and the same values at p. -/
theorem reconLanesAreIndependent : Obligations.ReconLanesAreIndependent := by
  intro s s' t t' p ht ht' hcode hcode' hp hp' hscnt hindices hvalues
  obtain ⟨x, y, l, h, rfl⟩ := exec_recon_ok ht hcode
  obtain ⟨x', y', l', h', rfl⟩ := exec_recon_ok ht' hcode'
  have hx : ∀ i < s.scnt.toNat, x i = x' i := fun i hi => Option.some.inj <|
    (h.indices i hi).symm.trans ((hindices i hi).trans (h'.indices i (hscnt ▸ hi)))
  have hy : ∀ i < s.scnt.toNat, y i p = y' i p := fun i hi => Option.some.inj <|
    (h.values i hi p hp).symm.trans ((hvalues i hi).trans (h'.values i (hscnt ▸ hi) p hp'))
  calc (reconMemory s x y l).secret.read p
      = some (recoveredByte s.scnt.toNat x fun i => y i p) := reconMemory_secret h.good.1 hp
    _ = some (recoveredByte s'.scnt.toNat x' fun i => y' i p) := by rw [recoveredByte_congr hx hy, hscnt]
    _ = (reconMemory s' x' y' l').secret.read p := (reconMemory_secret h'.good.1 hp').symm

/-! ## Interpolation of the shares of a SPLIT -/

/-- The polynomial with the first k coefficients c over the integers mod 257 (spec/41_coefficient_poly.md R155). -/
noncomputable def sharePolynomial (c : Nat → Nat) (k : Nat) : Polynomial (ZMod 257) :=
  ∑ i ∈ Finset.range k, Polynomial.C (c i : ZMod 257) * Polynomial.X ^ i

theorem cast_polyValue (c : Nat → Nat) (k x : Nat) :
    (polyValue c k x : ZMod 257) = (sharePolynomial c k).eval (x : ZMod 257) := by
  rw [polyValue, ZMod.natCast_mod, Nat.cast_sum, sharePolynomial, Polynomial.eval_finsetSum]
  simp

theorem sharePolynomial_degree_lt (c : Nat → Nat) (k : Nat) : (sharePolynomial c k).degree < k := by
  refine (Polynomial.degree_sum_le _ _).trans_lt
    ((Finset.sup_lt_iff (WithBot.bot_lt_coe k)).mpr fun i hi => ?_)
  exact (Polynomial.degree_C_mul_X_pow_le i _).trans_lt (Nat.cast_lt.mpr (Finset.mem_range.mp hi))

theorem sharePolynomial_eval_zero (c : Nat → Nat) {k : Nat} (hk : 1 ≤ k) :
    (sharePolynomial c k).eval 0 = (c 0 : ZMod 257) := by
  rw [sharePolynomial, Polynomial.eval_finsetSum, Finset.sum_eq_single_of_mem 0 (Finset.mem_range.mpr hk)]
  · simp
  · intro i _ hi
    simp [hi]

/-- The values of a polynomial at more distinct points than its degree, weighted, sum to its value at 0
(spec/43_lagrange_basis.md R188, spec/44_reconstruct.md R200). -/
theorem sum_eval_mul_basis [Fact (Nat.Prime 257)] {xs : List FieldWord}
    (hcanon : ∀ x ∈ xs, canonical x = true) (hnd : xs.Nodup) {f : Polynomial (ZMod 257)}
    (hdeg : f.degree < xs.length) :
    ∑ i ∈ Finset.range xs.length, f.eval (slotPoint xs i) * (basis xs i : ZMod 257) = f.eval 0 := by
  have hcard : f.degree < (Finset.range xs.length).card := by rwa [Finset.card_range]
  calc ∑ i ∈ Finset.range xs.length, f.eval (slotPoint xs i) * (basis xs i : ZMod 257)
      = (Lagrange.interpolate (Finset.range xs.length) (slotPoint xs)
          fun i => f.eval (slotPoint xs i)).eval 0 := by
        simp [Lagrange.interpolate_apply, Polynomial.eval_finsetSum, cast_basis]
    _ = f.eval 0 := by rw [← Lagrange.eq_interpolate (slotPoint_injOn hcanon hnd) hcard]

/-- Values at m >= k distinct indices of a polynomial of k coefficients interpolate at 0 to its constant term
(spec/44_reconstruct.md R205). -/
theorem sum_polyValue_basisValue {m k : Nat} {x : Nat → FieldWord} (hx : goodIndices m x) (hk : 1 ≤ k)
    (hkm : k ≤ m) {c : Nat → Nat} (hc : c 0 < 257) :
    (∑ i ∈ Finset.range m, polyValue c k (x i).toNat * basisValue m x i) % 257 = c 0 := by
  have := fact_prime_257
  have hlen : ((List.range m).map x).length = m := by simp
  have hterm : ∀ i ∈ Finset.range m, ((polyValue c k (x i).toNat * basisValue m x i : Nat) : ZMod 257)
      = (sharePolynomial c k).eval (slotPoint ((List.range m).map x) i) * basis ((List.range m).map x) i := by
    intro i hi
    have hi := Finset.mem_range.mp hi
    rw [Nat.cast_mul, cast_polyValue, ← basis_eq_basisValue hx.1 hi]
    simp [slotPoint, hi]
  have hdeg : (sharePolynomial c k).degree < ((List.range m).map x).length :=
    (sharePolynomial_degree_lt c k).trans_le (Nat.cast_le.mpr (hlen.symm ▸ hkm))
  have hsum := sum_eval_mul_basis (canonical_of_mem_indices hx.1) (nodup_indices hx) hdeg
  rw [hlen, sharePolynomial_eval_zero c hk] at hsum
  refine eq_of_cast_eq (Nat.mod_lt _ (by decide)) hc ?_
  rw [ZMod.natCast_mod, Nat.cast_sum, Finset.sum_congr rfl hterm, hsum]

/-- The index of the share that a SPLIT writes to slot i (spec/42_split.md R170). -/
def shareIndex (i : Nat) : FieldWord := BitVec.ofNat 9 (i + 1)

/-- Y[i][p] as a SPLIT of the bytes b with the draws ds writes it (spec/42_split.md R170). -/
def shareValue (k : Nat) (b : Nat → Byte) (ds : List FieldWord) (i p : Nat) : FieldWord :=
  BitVec.ofNat 9 (polyValue (lanePoly k b ds p) k (i + 1))

theorem polyValue_lt (c : Nat → Nat) (k x : Nat) : polyValue c k x < 257 := Nat.mod_lt _ (by decide)

theorem shareValue_toNat (k : Nat) (b : Nat → Byte) (ds : List FieldWord) (i p : Nat) :
    (shareValue k b ds i p).toNat = polyValue (lanePoly k b ds p) k (i + 1) :=
  toNat_ofNat_field (polyValue_lt ..)

/-- Any k or more different shares of one SPLIT recover the byte at each position, whatever the draws were
(spec/44_reconstruct.md R205). -/
theorem recoveredByte_of_shares {m k : Nat} {σ : Nat → Nat} (hx : goodIndices m fun i => shareIndex (σ i))
    (hσ : ∀ i < m, σ i < 256) (hk : 1 ≤ k) (hkm : k ≤ m) (b : Nat → Byte) (ds : List FieldWord) (p : Nat) :
    recoveredByte m (fun i => shareIndex (σ i)) (fun i => shareValue k b ds (σ i) p) = b p := by
  have hbyte : (b p).toNat < 256 := (b p).isLt
  have hsum : ∑ i ∈ Finset.range m,
        (shareValue k b ds (σ i) p).toNat * basisValue m (fun i => shareIndex (σ i)) i
      = ∑ i ∈ Finset.range m, polyValue (lanePoly k b ds p) k (shareIndex (σ i)).toNat
        * basisValue m (fun i => shareIndex (σ i)) i := by
    refine Finset.sum_congr rfl fun i hi => ?_
    have hi := hσ i (Finset.mem_range.mp hi)
    rw [shareValue_toNat, shareIndex, toNat_ofNat_field (by omega)]
  have hconst : lanePoly k b ds p 0 = (b p).toNat := rfl
  rw [recoveredByte, hsum, sum_polyValue_basisValue hx hk hkm (by rw [hconst]; omega), hconst,
    Nat.mod_eq_of_lt hbyte, BitVec.ofNat_toNat, BitVec.setWidth_eq]

/-- Slots of different shares hold distinct indices in 1..256 (spec/42_split.md R173). -/
theorem goodIndices_shares {m : Nat} {σ : Nat → Nat} (hσ : ∀ i < m, σ i < 256)
    (hinj : ∀ i < m, ∀ j < m, σ i = σ j → i = j) : goodIndices m fun i => shareIndex (σ i) := by
  have hval : ∀ i < m, (shareIndex (σ i)).toNat = σ i + 1 := fun i hi => by
    have := hσ i hi
    exact toNat_ofNat_field (by omega)
  refine ⟨fun i hi => ?_, fun i hi j hj hij => hinj i hi j hj ?_⟩
  · have := hσ i hi
    rw [inRange, hval i hi]
    omega
  · have hij := congrArg BitVec.toNat hij
    rw [hval i hi, hval j hj] at hij
    omega

/-- What a ready SPLIT leaves in X[i] and SLEN[i] (spec/42_split.md R170). -/
theorem split_writes_index {s t : State} {b : Nat → Byte} {ds left : List FieldWord} {i : Nat}
    (h : splitReady s b ds left) (ht : exec .split s = .next t) (hi : i < s.nreg.toNat) :
    t.mem.x.read i = some (shareIndex i) ∧ t.mem.slen.read i = some s.len := by
  obtain rfl := Host.Outcome.next.inj (ht.symm.trans (split_completes h))
  exact ⟨(writeShares_x ..).trans (if_pos hi), (writeShares_slen ..).trans (if_pos hi)⟩

/-- Slots of different shares are at most as many as the shares. -/
theorem slots_le_shares {m n : Nat} {σ : Nat → Nat} (hσ : ∀ i < m, σ i < n)
    (hinj : ∀ i < m, ∀ j < m, σ i = σ j → i = j) : m ≤ n := by
  have hcard := Finset.card_le_card_of_injOn (s := Finset.range m) (t := Finset.range n) σ
    (fun i hi => by simpa using hσ i (by simpa using hi))
    (fun i hi j hj => hinj i (by simpa using hi) j (by simpa using hj))
  simpa using hcard

/-- Settles O56: RECON is ready on the shares, and interpolation gives back each byte. -/
theorem sharesReconstructTheSecret : Obligations.SharesReconstructTheSecret := by
  intro s t u σ hb ht hok hcfg hk hσ hinj hslots
  obtain ⟨b, ds, left, hsplit, -⟩ := exec_split_ok hb ht hok
  have ⟨_, h2, _, hn, hl, hsecret, _⟩ := hsplit
  have hσ256 : ∀ i < u.scnt.toNat, σ i < 256 := fun i hi =>
    (hσ i hi).trans_le (hn.trans s.cfg.sMax_legal.2)
  have hgood := goodIndices_shares hσ256 hinj
  have hready : ReconReady u (fun i => shareIndex (σ i))
      (fun i => shareValue s.kreg.toNat b ds (σ i)) s.len := by
    refine ⟨by omega, hcfg ▸ (slots_le_shares hσ hinj).trans hn, fun i hi => ?_, hcfg ▸ hl, fun i hi => ?_,
      hgood, fun i hi p hp => ?_, fun i _ p _ => ?_⟩
    · obtain ⟨-, hslen, -⟩ := hslots i hi
      exact hslen.trans (split_writes_index hsplit ht (hσ i hi)).2
    · obtain ⟨hindex, -, -⟩ := hslots i hi
      exact hindex.trans (split_writes_index hsplit ht (hσ i hi)).1
    · obtain ⟨-, -, hvalue⟩ := hslots i hi
      exact (hvalue p hp).trans (split_writes_lane hsplit ht (hσ i hi) hp)
    · rw [shareValue_toNat]
      exact Nat.le_of_lt_succ (polyValue_lt ..)
  refine ⟨_, hready.completes, rfl, rfl, fun p hp => ?_⟩
  rw [hsecret p hp, ← recoveredByte_of_shares hgood hσ256 (by omega) hk b ds p]
  exact reconMemory_secret hgood.1 hp

end Sys2Proof.Machine
end

/-! # Proofs: idle blocks and completion codes (spec/60_exceptions.md R220, R226, R237) -/

section
namespace Sys2Proof.Machine

open Sys2Proof.Claims

/-! ## An idle block -/

/-- The agents' moves to come and the response are no part of the block (logs 2, 3, 4). -/
theorem sameBlock_with_agents (s : State) (ts : List Turn) (p : List HostOp) (raw : List FieldWord)
    (r : Response) : sameBlock s { s with turns := ts, program := p, entropy := raw, response := r } :=
  ⟨rfl, rfl, rfl, rfl, rfl, rfl, rfl, rfl, rfl, rfl, rfl, rfl⟩

/-- A host turn whose next operation is no write leaves the block as it was (spec/20_memory.md R72). -/
theorem hostTurn_sameBlock {s t : State} (h : hostTurn s = .next t)
    (hwrite : ∀ a w en v rest, s.program ≠ .write a w en v :: rest) : sameBlock s t := by
  rcases hostTurn_next h with ⟨-, rfl⟩ | ⟨v, p, rfl⟩ | ⟨l, v, rest, hp, -⟩
  · exact sameBlock_with_agents t t.turns t.program t.entropy t.response
  · exact sameBlock_with_agents s s.turns p s.entropy (.readData v)
  · exact absurd hp (hwrite _ _ _ v rest)

/-- Settles O14, by the agent that moved: the unit has no step while BUSY = 0, RST is excluded, and the others
change the block by a host write alone. -/
theorem idleBlockHolds : Obligations.IdleBlockHolds := by
  intro s t hidle hstep hreset hwrite
  cases step_next hstep with
  | host rest turns does => exact (hostTurn_sameBlock does hwrite :)
  | unit rest turns busy does => exact absurd (busy.symm.trans hidle) (by decide)
  | idleUnit rest turns busy does => exact does ▸ sameBlock_with_agents s rest s.program s.entropy s.response
  | entropy raw rest turns does =>
    exact does ▸ sameBlock_with_agents s rest s.program (s.entropy ++ [raw]) s.response
  | reset rest turns does => exact absurd turns (hreset rest)

/-! ## The codes of a completion -/

/-- A command that changes the state completes, with OK or with one of the codes that it can raise
(spec/60_exceptions.md R224, R226). -/
theorem exec_completes_with {i : Instr} {s t : State} (h : exec i s = .next t) (hne : t ≠ s) :
    ∃ c ∈ Code.ok :: raisedCodes i, ∃ u info, t = State.complete u c info := by
  rcases exec_next h with ⟨u, -, rfl⟩ | ⟨c, info, hraise, rfl⟩ | ⟨-, rfl⟩
  · exact ⟨.ok, List.mem_cons_self, u, 0, rfl⟩
  · exact ⟨c, List.mem_cons_of_mem _ (ruleOf_raisesOnly i s c info hraise), s, info, rfl⟩
  · exact absurd rfl hne

/-- Settles O57: the numbers listed for a command are those of OK and of the codes that it can raise. -/
theorem completionCodes : Obligations.CompletionCodes := by
  intro i s t h hne
  obtain ⟨c, hc, u, info, rfl⟩ := exec_completes_with h hne
  have hbits : (u.complete c info).status.code ∈ (Code.ok :: raisedCodes i).map Code.bits :=
    List.mem_map_of_mem hc
  refine ⟨completionFields_complete u c info, ?_⟩
  cases i <;> exact hbits

end Sys2Proof.Machine
end

/-! # Proofs: reset, and the end of a pending command (spec/70_reset_and_hazards.md) -/

section
namespace Sys2Proof.Machine

open Sys2Proof.Claims

/-! ## Reset -/

/-- RST gives the block the power-on values of its own parameters (spec/70_reset_and_hazards.md R260). -/
theorem sameBlock_powerOn_applyReset (s : State) : sameBlock (State.powerOn s.cfg) s.applyReset :=
  sameBlock_with_agents (State.powerOn s.cfg) s.turns s.program s.entropy s.response

/-- Settles O10: the step is RST on the state with the turn taken off, whose parameters are those of s. -/
theorem resetTurnResetsEverything : Obligations.ResetTurnResetsEverything := by
  intro s rest hturns
  have hstep : step s = .next (State.applyReset { s with turns := rest }) := step_of_turns_cons hturns
  exact ⟨_, hstep, sameBlock_powerOn_applyReset _, Memory.read_unwritten, rfl, rfl, rfl, rfl⟩

/-! ## A pending command -/

theorem step_of_pending {s : State} (hbusy : s.status.busy = true) (hturns : s.turns = []) :
    step s = unitStep s := by
  rw [step_of_turns_nil hturns, defaultTurn, if_pos hbusy]

theorem unitStep_of_decode_error {s : State} {e : DecodeError} (h : decode s.cmdreg = .error e) :
    unitStep s = .next (s.complete .illegalCommand 0) := by
  simp only [unitStep, h]

/-- A command whose rule waits lacks draws (spec/41_coefficient_poly.md R153). -/
theorem lacksDraws_of_wait {i : Instr} {s : State} (h : ruleOf i s = .error .wait) : lacksDraws s i := by
  rcases ruleOf_wait_draws h with ⟨rs1, rfl, hdraws⟩ | ⟨rfl, hdraws⟩
  · exact takeDraws_eq_none_iff.mp hdraws
  · exact takeDraws_eq_none_iff.mp hdraws

/-- The unit's step of a command completes it, waits for draws, or meets an unwritten element, as its rule gets
through or raises, waits, or faults (spec/60_exceptions.md R224, R229, spec/10_state.md R41). -/
theorem exec_ends (i : Instr) (s : State) :
    (∃ t, exec i s = .next t ∧ completionFields t) ∨ (exec i s = .next s ∧ lacksDraws s i)
      ∨ ∃ e, exec i s = .fault (.unwritten e) ∧ s.mem.read e = none := by
  match hrule : ruleOf i s with
  | .ok u => exact .inl ⟨_, by rw [exec_eq_finish, hrule, finish_ok], completionFields_complete ..⟩
  | .error (.raise c info) =>
    exact .inl ⟨_, by rw [exec_eq_finish, hrule, finish_raise], completionFields_complete ..⟩
  | .error .wait => exact .inr (.inl ⟨exec_of_wait hrule, lacksDraws_of_wait hrule⟩)
  | .error (.fault r) =>
    obtain ⟨e, rfl, hunwritten⟩ := ruleOf_fault hrule
    exact .inr (.inr ⟨e, exec_of_fault hrule, hunwritten⟩)

/-- Settles O15: the default turn is the unit's step, on a word that is a command or on one that is not. -/
theorem pendingCommandCompletes : Obligations.PendingCommandCompletes := by
  intro s hbusy hturns
  rw [step_of_pending hbusy hturns]
  cases hdecode : decode s.cmdreg with
  | error e => exact .inl ⟨_, unitStep_of_decode_error hdecode, completionFields_complete ..⟩
  | ok i =>
    rw [unitStep_of_decode hdecode]
    exact (exec_ends i s).imp_right (.imp_left fun ⟨hwait, hlacks⟩ => ⟨hwait, i, rfl, hlacks⟩)

end Sys2Proof.Machine
end
